-- ==== Sys2Proof/Word.lean ====
section
/-! DEFINITION. The word types of the block (10_state.md: u32, i32, byte, bit, binary32) and the plainest
predicates on a binary32 bit pattern. -/

namespace Sys2Proof

/-- A byte of the serial line (00_scope.md R10). -/
abbrev Byte := BitVec 8

/-- The level of an output line (10_state.md R41 to R43). -/
abbrev Bit := BitVec 1

/-- `u32` of 00_scope.md R11. -/
abbrev U32 := BitVec 32

/-- `i32` of 00_scope.md R11, two's complement. -/
abbrev I32 := BitVec 32

/-- `f32` of 00_scope.md R11: an IEEE 754 binary32 value, held as its bit pattern. -/
abbrev F32 := BitVec 32

/-- The eleven bytes of an inbound frame, offset 0 first (30_encoding.md R110). -/
abbrev Frame := Vector Byte 11

/-- The pattern without its sign bit, as a number: exponent and fraction fields. -/
def F32.magBits (x : F32) : Nat := x.toNat % 2 ^ 31

/-- The magnitude pattern of an infinity. -/
def F32.infBits : Nat := 0x7F800000

/-- Neither an infinity nor a NaN. -/
def F32.isFinite (x : F32) : Bool := decide (x.magBits < F32.infBits)

/-- Not a number. -/
def F32.isNaN (x : F32) : Bool := decide (F32.infBits < x.magBits)

/-- Plus or minus infinity. -/
def F32.isInf (x : F32) : Bool := decide (x.magBits = F32.infBits)

/-- Plus or minus zero. -/
def F32.isZero (x : F32) : Bool := decide (x.magBits = 0)

/-- The sign bit. -/
def F32.sign (x : F32) : Bool := decide (2 ^ 31 ≤ x.toNat)

/-- Finite and greater than zero: the constraint "binary32, > 0" of 00_scope.md R8 (log entry 4). -/
def F32.isPosFinite (x : F32) : Bool := !x.sign && x.isFinite && !x.isZero

end Sys2Proof
end

