-- ==== Sys2Proof/Config.lean ====
section
/-! DEFINITION. The parameters of the block (00_scope.md R8) and the values the spec leaves open.
The fixed parameters are constants, the decided and the OPEN ones are the fields of `ConfigOf`; an OPEN
parameter of `Config.current` is a constant with no body. -/

namespace Sys2Proof

/-- `DIR_UPDATE`: when the direction line follows the direction bit (00_scope.md R8, D20). -/
inductive DirUpdate where
  | atStart
  | immediate
  deriving DecidableEq, Repr

/-- `NUMERIC`: the arithmetic of speeds (00_scope.md R8, R12). It is a parameter of the machine, because it says what
a speed is: `Sys2Proof.Machine.machineOf`. -/
inductive Numeric where
  | binary32
  | real
  deriving DecidableEq, Repr

/-- `A_MODE`: the semantics of action `A` (00_scope.md R8, D23). -/
inductive AMode where
  | flip
  | byValue
  deriving DecidableEq, Repr

/-- The parameters of 00_scope.md R8 that are not fixed by it, over the type `R` of the speeds
(binary32, or the reals under `NUMERIC = REAL`, R12). -/
structure ConfigOf (R : Type) where
  /-- `V_MIN_SPS`, minimum start speed. -/
  vMinSps : R
  /-- `A_MIN_SPS2`, floor of the acceleration magnitude (OPEN). -/
  aMinSps2 : R
  /-- `STEPS_PER_REV` (OPEN). -/
  stepsPerRev : Nat
  /-- `TIMER_MAX_US`, largest half-period (OPEN). -/
  timerMaxUs : U32
  /-- `DT_DIVISOR`, 1 or 2. -/
  dtDivisor : Nat
  /-- `V_CLEARS_PLAN`. -/
  vClearsPlan : Bool
  /-- `DIR_UPDATE`. -/
  dirUpdate : DirUpdate
  /-- `DIR_FWD_LEVEL`. -/
  dirFwdLevel : Bit
  /-- `A_MODE`. -/
  aMode : AMode
  /-- `HAS_X`. -/
  hasX : Bool
  /-- `RESET_TRAPEZOID`. -/
  resetTrapezoid : Bool
  /-- `RESET_TARGET_SPS`. -/
  resetTargetSps : R
  /-- `ADC_VREF_V` (OPEN). -/
  adcVrefV : R
  /-- `ADC_RES` (OPEN). -/
  adcRes : R
  /-- `ADC_MAX`, largest raw sample (OPEN). -/
  adcMax : Nat
  /-- `SENS_ZERO_V` (OPEN). -/
  sensZeroV : R
  /-- `SENS_V_PER_A` (OPEN). -/
  sensVPerA : R
  deriving DecidableEq, Repr

/-- The parameters of the block under `NUMERIC = BINARY32`, the normative one (R12). -/
abbrev Config := ConfigOf F32

namespace Config

/-! The parameters R8 fixes. -/

/-- `RING_CAP`. -/
def ringCap : Nat := 50
/-- `T_SAMPLE_MS`. -/
def tSampleMs : Nat := 2
/-- `T_AVG_MS`. -/
def tAvgMs : Nat := 100
/-- `RAMP_RATE`, 1 / `T_RAMP_S`. -/
def rampRate : Nat := 5
/-- `H_MIN_US`. -/
def hMinUs : Nat := 1
/-- `TELEM_PERIOD_MS` in µs: the period of `TELEM_TICK` in the time base of 60_exceptions.md R320. -/
def telemPeriodUs : Nat := 1000

/-! The OPEN parameters: nothing in the spec fixes them (R8, N2). Each is a constant with no body, brought
inside R8's constraint by `Config.current` (log entry 2). -/

opaque openAMinSps2 : F32
opaque openStepsPerRev : Nat
opaque openTimerMaxUs : U32
opaque openAdcVrefV : F32
opaque openAdcRes : F32
opaque openAdcMax : Nat
opaque openSensZeroV : F32
opaque openSensVPerA : F32

/-! Values the spec does not state (log entries 6, 7), free. -/

/-- `minf` / `maxf` (the flag is true for `maxf`) when an operand is a NaN. -/
opaque freeMinMax : Bool → F32 → F32 → F32
/-- The integer a NaN converts to where the result is then bounded to `lo..hi`. -/
opaque freeInteger : Int → Int → Int

/-- `v` where it meets the constraint, else `w`. -/
def within {A : Type} (ok : A → Bool) (v w : A) : A := if ok v then v else w

/-- The parameters the machine is reset with: R8's defaults (spec decisions) and the OPEN constants. -/
def current : Config where
  vMinSps := 0x43FA0000#32            -- 500.0 (D32)
  aMinSps2 := within F32.isPosFinite openAMinSps2 0x3F800000#32
  stepsPerRev := within (fun n => decide (1 ≤ n ∧ n ≤ 65535)) openStepsPerRev 200
  timerMaxUs := within (fun n => decide (1 ≤ n.toNat)) openTimerMaxUs 65535#32
  dtDivisor := 1
  vClearsPlan := true
  dirUpdate := .atStart
  dirFwdLevel := 0#1
  aMode := .flip
  hasX := true
  resetTrapezoid := true
  resetTargetSps := 0x43FA0000#32     -- V_MIN_SPS (D31)
  adcVrefV := within F32.isPosFinite openAdcVrefV 0x40A00000#32
  adcRes := within F32.isPosFinite openAdcRes 0x44800000#32
  adcMax := within (fun n => decide (1 ≤ n)) openAdcMax 1023
  sensZeroV := within F32.isFinite openSensZeroV 0x40200000#32
  sensVPerA := within (fun x => x.isFinite && !x.isZero) openSensVPerA 0x3DCCCCCD#32

/-- The example parameters of 95_test_vectors.md: R8's defaults with example values for the OPEN ones. -/
def example95 : Config where
  vMinSps := 0x43FA0000#32            -- 500.0
  aMinSps2 := 0x3F800000#32           -- 1.0
  stepsPerRev := 200
  timerMaxUs := 65535#32
  dtDivisor := 1
  vClearsPlan := true
  dirUpdate := .atStart
  dirFwdLevel := 0#1
  aMode := .flip
  hasX := true
  resetTrapezoid := true
  resetTargetSps := 0x43FA0000#32     -- 500.0
  adcVrefV := 0x40A00000#32           -- 5.0
  adcRes := 0x44800000#32             -- 1024.0
  adcMax := 1023
  sensZeroV := 0x40200000#32          -- 2.5
  sensVPerA := 0x3DCCCCCD#32          -- 0.1

/-- The constraints of R8's last column ("a model must satisfy every constraint"). -/
def wf (c : Config) : Bool :=
  c.vMinSps.isPosFinite && c.aMinSps2.isPosFinite &&
  decide (1 ≤ c.stepsPerRev ∧ c.stepsPerRev ≤ 65535) && decide (1 ≤ c.timerMaxUs.toNat) &&
  decide (c.dtDivisor = 1 ∨ c.dtDivisor = 2) && c.resetTargetSps.isPosFinite &&
  c.adcVrefV.isPosFinite && c.adcRes.isPosFinite && decide (1 ≤ c.adcMax) &&
  c.sensZeroV.isFinite && c.sensVPerA.isFinite && !c.sensVPerA.isZero

end Config

end Sys2Proof
end

