-- ==== Sys2Proof/Syntax.lean ====
section
/-! DEFINITION. The instructions: the ten command frames of opcode_table.json (30_encoding.md R119), with the
axis and the six-digit value every frame carries (R112, R114), and the causes of a drop. -/

namespace Sys2Proof

/-- An axis index, 0..2 in the block, `'1'`..`'3'` on the wire (00_scope.md R14, D39). -/
inductive AxisId where
  | axis0
  | axis1
  | axis2
  deriving DecidableEq, Repr

/-- The index 0..2. -/
def AxisId.index : AxisId → Nat
  | .axis0 => 0
  | .axis1 => 1
  | .axis2 => 2

/-- A command frame. Every frame carries a value; the commands that ignore it keep it here, so that the
encoding loses nothing (R114: "decoded for every action, whether or not the action uses it"). -/
inductive Instr where
  /-- `M`, START: value = step count, 0 for unbounded motion (R231). -/
  | start (a : AxisId) (n : Nat)
  /-- `S`, STOP (R234). -/
  | stop (a : AxisId) (v : Nat)
  /-- `F`, FWD (R235). -/
  | fwd (a : AxisId) (v : Nat)
  /-- `R`, REV (R236). -/
  | rev (a : AxisId) (v : Nat)
  /-- `V`, SPEED: value = RPM (R237). -/
  | speed (a : AxisId) (rpm : Nat)
  /-- `E`, ENA (R240). -/
  | ena (a : AxisId) (v : Nat)
  /-- `D`, DIS (R241). -/
  | dis (a : AxisId) (v : Nat)
  /-- `A`, TRAP: value used under `A_MODE = BY_VALUE` (R242, R243). -/
  | trap (a : AxisId) (v : Nat)
  /-- `C`, QCUR (R244). -/
  | qcur (a : AxisId) (v : Nat)
  /-- `X`, QROT, present only when `HAS_X` (R245). -/
  | qrot (a : AxisId) (v : Nat)
  deriving DecidableEq, Repr

/-- The axis a command names. -/
def Instr.axis : Instr → AxisId
  | .start a _ | .stop a _ | .fwd a _ | .rev a _ | .speed a _
  | .ena a _ | .dis a _ | .trap a _ | .qcur a _ | .qrot a _ => a

/-- The value field. -/
def Instr.value : Instr → Nat
  | .start _ v | .stop _ v | .fwd _ v | .rev _ v | .speed _ v
  | .ena _ v | .dis _ v | .trap _ v | .qcur _ v | .qrot _ v => v

/-- The causes of 60_exceptions.md R310. -/
inductive DropCause where
  | badFraming
  | badChecksum
  | badAxis
  | badAction
  | badDigit
  | badValue
  deriving DecidableEq, Repr

/-- The spec's code numbers (R310). -/
def DropCause.code : DropCause → Nat
  | .badFraming => 1
  | .badChecksum => 2
  | .badAxis => 3
  | .badAction => 4
  | .badDigit => 5
  | .badValue => 6

end Sys2Proof
end

