-- ==== Sys2Proof/WellFormed.lean ====
section
/-! DEFINITION. Which instruction terms a frame can carry. -/

namespace Sys2Proof

/-- A frame carries a value of six digits (30_encoding.md R114: 0..999999). -/
def Instr.valueOk (i : Instr) : Bool := decide (i.value ≤ 999999)

/-- `X` is an action code only when `HAS_X` is true (R113). -/
def Instr.presentIn (hasX : Bool) : Instr → Bool
  | .qrot _ _ => hasX
  | .start _ _ | .stop _ _ | .fwd _ _ | .rev _ _ | .speed _ _
  | .ena _ _ | .dis _ _ | .trap _ _ | .qcur _ _ => true

/-- A well-formed instruction of a block built with or without the option `HAS_X`. -/
def Instr.wf (hasX : Bool) (i : Instr) : Bool := i.valueOk && i.presentIn hasX

end Sys2Proof
end

