-- ==== Sys2Proof/Decode.lean ====
section
/-! DEFINITION. The decoder of 30_encoding.md R120, total on every eleven bytes and rejecting by cause, and
after it the encoder, the body form of the assembler (R124) and the pseudo-instruction MOVE (R125). -/

namespace Sys2Proof

/-- The start marker (R110). -/
def stx : Byte := 0x02#8

/-- The end marker (R110). -/
def etx : Byte := 0x03#8

/-- The checksum engine (R115): the XOR of offsets 1 to 8. -/
def cks (f : Frame) : Byte :=
  f[1] ^^^ f[2] ^^^ f[3] ^^^ f[4] ^^^ f[5] ^^^ f[6] ^^^ f[7] ^^^ f[8]

/-- The axis selector (R112): `'1'`..`'3'`. -/
def axisOf (b : Byte) : Option AxisId :=
  if b = 0x31#8 then some .axis0
  else if b = 0x32#8 then some .axis1
  else if b = 0x33#8 then some .axis2
  else none

/-- The action code (R113, R119): which command a letter selects, `X` only when `HAS_X`. -/
def actionOf (hasX : Bool) (b : Byte) (a : AxisId) (v : Nat) : Option Instr :=
  if b = 0x4D#8 then some (.start a v)
  else if b = 0x53#8 then some (.stop a v)
  else if b = 0x46#8 then some (.fwd a v)
  else if b = 0x52#8 then some (.rev a v)
  else if b = 0x56#8 then some (.speed a v)
  else if b = 0x45#8 then some (.ena a v)
  else if b = 0x44#8 then some (.dis a v)
  else if b = 0x41#8 then some (.trap a v)
  else if b = 0x43#8 then some (.qcur a v)
  else if b = 0x58#8 && hasX then some (.qrot a v)
  else none

/-- `'0'`..`'9'` (R114). -/
def isDigit (b : Byte) : Bool := decide (0x30 ≤ b.toNat ∧ b.toNat ≤ 0x39)

/-- The value of one digit. -/
def digitValue (b : Byte) : Nat := b.toNat - 0x30

/-- Every byte of offsets 3 to 8 is a digit. -/
def allDigits (f : Frame) : Bool :=
  isDigit f[3] && isDigit f[4] && isDigit f[5] && isDigit f[6] && isDigit f[7] && isDigit f[8]

/-- The value field (R114, R85): six decimal digits, offset 3 the most significant. -/
def valueOf (f : Frame) : Nat :=
  digitValue f[3] * 100000 + digitValue f[4] * 10000 + digitValue f[5] * 1000 +
  digitValue f[6] * 100 + digitValue f[7] * 10 + digitValue f[8]

/-- What `decode` answers (R120): `Drop(cause)` or `Cmd(i, code, value)`. -/
inductive Decoded where
  | drop (cause : DropCause)
  | cmd (i : Instr)
  deriving DecidableEq, Repr

/-- `decode(buf)` (R120), the checks in the order the rule gives them. -/
def decode (hasX : Bool) (f : Frame) : Decoded :=
  if f[0] ≠ stx ∨ f[10] ≠ etx then .drop .badFraming
  else if f[9] ≠ cks f then .drop .badChecksum
  else
    match axisOf f[1] with
    | none => .drop .badAxis
    | some a =>
      match actionOf hasX f[2] a (valueOf f) with
      | none => .drop .badAction
      | some i => if allDigits f then .cmd i else .drop .badDigit

/-- The instruction of eleven bytes, where they are a command. -/
def Decoded.instr? : Decoded → Option Instr
  | .drop _ => none
  | .cmd i => some i

/-! The encoder. -/

/-- The selector byte of an axis (R112). -/
def AxisId.selector : AxisId → Byte
  | .axis0 => 0x31#8
  | .axis1 => 0x32#8
  | .axis2 => 0x33#8

/-- The action code of a command (R119). -/
def Instr.code : Instr → Byte
  | .start _ _ => 0x4D#8
  | .stop _ _ => 0x53#8
  | .fwd _ _ => 0x46#8
  | .rev _ _ => 0x52#8
  | .speed _ _ => 0x56#8
  | .ena _ _ => 0x45#8
  | .dis _ _ => 0x44#8
  | .trap _ _ => 0x41#8
  | .qcur _ _ => 0x43#8
  | .qrot _ _ => 0x58#8

/-- The ASCII digit of weight `w` of `n`. -/
def asciiDigit (n w : Nat) : Byte := BitVec.ofNat 8 (0x30 + n / w % 10)

/-- The body form (R124 a): the eight characters of offsets 1 to 8. -/
def Instr.body (i : Instr) : Vector Byte 8 :=
  #v[i.axis.selector, i.code, asciiDigit i.value 100000, asciiDigit i.value 10000,
     asciiDigit i.value 1000, asciiDigit i.value 100, asciiDigit i.value 10, asciiDigit i.value 1]

/-- The assembler adds STX, the checksum of R115 and ETX to a body (R124). -/
def assemble (b : Vector Byte 8) : Frame :=
  #v[stx, b[0], b[1], b[2], b[3], b[4], b[5], b[6], b[7],
     b[0] ^^^ b[1] ^^^ b[2] ^^^ b[3] ^^^ b[4] ^^^ b[5] ^^^ b[6] ^^^ b[7], etx]

/-- The frame of an instruction. -/
def encode (i : Instr) : Frame := assemble i.body

/-- The pseudo-instruction `MOVE a, rpm, n` (R125): `SPEED a, rpm` then `START a, n`. -/
def moveFrames (a : AxisId) (rpm n : Nat) : List Frame :=
  [encode (.speed a rpm), encode (.start a n)]

/-! A frame as one number (R111): 88 bits, offset 0 first, each byte most significant bit first. -/

/-- The 88-bit pattern of R111. -/
def frameWord (f : Frame) : Nat := f.toList.foldl (fun acc b => acc * 256 + b.toNat) 0

/-- Byte `k` of a word numbered as opcode_table.json numbers it: offset 0 in bits 87 to 80. -/
def wordByteTable (w k : Nat) : Byte := BitVec.ofNat 8 (w >>> (8 * (10 - k)))

/-- Byte `k` of a word whose first byte is in bits 7 to 0. -/
def wordByteLow (w k : Nat) : Byte := BitVec.ofNat 8 (w >>> (8 * k))

/-- The eleven bytes of a word. The table puts offset 0 in bits 87 to 80 (R111); a word whose bits 87 to 80
are not STX is read with offset 0 in bits 7 to 0 instead (log entry 18: no valid frame reads both ways). -/
def frameOfWord (nbits w : Nat) : Frame :=
  let w := w % 2 ^ nbits
  if wordByteTable w 0 = stx then Vector.ofFn (fun k : Fin 11 => wordByteTable w k.val)
  else Vector.ofFn (fun k : Fin 11 => wordByteLow w k.val)

/-- The instruction the decoder reads from a word (`HAS_X` as in `Config.current`). -/
def decodeTableWord (nbits w : Nat) : Option Instr :=
  (decode Config.current.hasX (frameOfWord nbits w)).instr?

end Sys2Proof
end

