-- ==== Sys2Proof/Machine/Numerics.lean ====
section
/-! DEFINITION. The arithmetic of speeds as a record of operations (00_scope.md R11), so that the datapath is
written once and read both in binary32 and, under R12, in the reals. -/

namespace Sys2Proof

/-- What an integer conversion of a speed gives: an integer, or no integer at all (binary32 only). -/
inductive Rounded where
  | int (n : Int)
  | posInf
  | negInf
  | nan
  deriving DecidableEq, Repr

/-- The operations of R11 on the type `R` of speeds. -/
structure Numerics (R : Type) where
  /-- `+f` -/
  add : R → R → R
  /-- `-f` -/
  sub : R → R → R
  /-- `*f` -/
  mul : R → R → R
  /-- `/f` -/
  div : R → R → R
  /-- `sqrtf` -/
  sqrt : R → R
  /-- `absf` -/
  abs : R → R
  /-- `minf` -/
  min : R → R → R
  /-- `maxf` -/
  max : R → R → R
  /-- `tof32` -/
  ofInt : Int → R
  /-- ordered `<` -/
  lt : R → R → Bool
  /-- ordered `<=` -/
  le : R → R → Bool
  /-- exact floor -/
  floor : R → Rounded
  /-- toward zero -/
  trunc : R → Rounded
  /-- `floor(x + 1/2)`, exact -/
  rnd : R → Rounded

end Sys2Proof

namespace Sys2Proof.Machine

/-- `sat(lo, hi, n)` (R11), on unbounded integers. -/
def sat (lo hi n : Int) : Int := min hi (max lo n)

/-- `sat` of a converted speed. An infinity is beyond every integer on its side (log entry 7, from
41_scheduler.md R194 a); for a NaN the spec states no integer, so a free one is bounded. -/
def satRounded (lo hi : Int) : Rounded → Int
  | .int n => sat lo hi n
  | .posInf => hi
  | .negInf => lo
  | .nan => sat lo hi (Config.freeInteger lo hi)

end Sys2Proof.Machine
end

