-- ==== Sys2Proof/Machine/Binary32.lean ====
section
/-! DEFINITION. IEEE 754 binary32 arithmetic (00_scope.md R11, D7): each operation is exact on integers and
rounded once, to nearest, ties to even. Every finite binary32 value is a whole number of units of 2^-149, so
a value is held as a sign and a natural number of units. -/

namespace Sys2Proof.Machine.Binary32

/-- 2^149: how many units make 1. -/
def one : Nat := 2 ^ 149

/-- The units of a magnitude pattern; of an infinity's pattern, 2^277, above every finite value. -/
def magUnits (b : Nat) : Nat :=
  if b / 2 ^ 23 = 0 then b else (2 ^ 23 + b % 2 ^ 23) * 2 ^ (b / 2 ^ 23 - 1)

/-- The signed number of units of a pattern. -/
def units (x : F32) : Int := if x.sign then -(magUnits x.magBits : Int) else (magUnits x.magBits : Int)

/-- Nearest integer to `num / den`, ties to even. -/
def nearestEven (num den : Nat) : Nat :=
  let q := num / den
  let r := num % den
  if den < 2 * r ∨ (2 * r = den ∧ q % 2 = 1) then q + 1 else q

/-- How many low bits a value of `num / den` units drops to fit the 24-bit significand. -/
def dropBits (num den : Nat) : Nat := Nat.log2 (num / den) - 23

/-- The magnitude pattern nearest to `num / den` units (ties to even), infinity where it overflows. A
significand that rounds up to 2^24 carries into the exponent field by itself. -/
def roundMag (num den : Nat) : Nat :=
  let sh := dropBits num den
  min F32.infBits (sh * 2 ^ 23 + nearestEven num (den * 2 ^ sh))

/-- A pattern from its sign and magnitude pattern. -/
def pack (neg : Bool) (mag : Nat) : F32 := BitVec.ofNat 32 ((if neg then 2 ^ 31 else 0) + mag)

/-- The NaN an operation gives (log entry 5: the spec speaks of one NaN value). -/
def nan : F32 := 0x7FC00000#32

/-- An infinity. -/
def inf (neg : Bool) : F32 := pack neg F32.infBits

/-- The value rounded from a signed number of units. -/
def ofUnits (z : Int) : F32 := pack (decide (z < 0)) (roundMag z.natAbs 1)

/-- Sign change. -/
def neg (x : F32) : F32 := x ^^^ 0x80000000#32

/-- `+f`. -/
def add (x y : F32) : F32 :=
  if x.isNaN || y.isNaN then nan
  else if x.isInf then (if y.isInf && x.sign != y.sign then nan else x)
  else if y.isInf then y
  else
    let z := units x + units y
    if z = 0 then pack (x.sign && y.sign) 0 else ofUnits z

/-- `-f`. -/
def sub (x y : F32) : F32 := add x (neg y)

/-- `*f`. -/
def mul (x y : F32) : F32 :=
  if x.isNaN || y.isNaN then nan
  else if x.isInf || y.isInf then (if x.isZero || y.isZero then nan else inf (x.sign != y.sign))
  else pack (x.sign != y.sign) (roundMag (magUnits x.magBits * magUnits y.magBits) one)

/-- `/f`. -/
def div (x y : F32) : F32 :=
  if x.isNaN || y.isNaN then nan
  else if x.isInf then (if y.isInf then nan else inf (x.sign != y.sign))
  else if y.isInf then pack (x.sign != y.sign) 0
  else if y.isZero then (if x.isZero then nan else inf (x.sign != y.sign))
  else pack (x.sign != y.sign) (roundMag (magUnits x.magBits * one) (magUnits y.magBits))

/-- Integer square root, one binary digit at a time from digit `k - 1` down: the largest `r + d` with
`d < 2^k` whose square is at most `n`. -/
def isqrtFrom : Nat → Nat → Nat → Nat
  | 0, _, r => r
  | k + 1, n, r => isqrtFrom k n (if (r + 2 ^ k) * (r + 2 ^ k) ≤ n then r + 2 ^ k else r)

/-- The floor of the square root of any `n < 2^430`. -/
def isqrt (n : Nat) : Nat := isqrtFrom 215 n 0

/-- `sqrtf`, correctly rounded. The root is taken in half units; where it is not exact a quarter unit is
added, which lies on the same side of every rounding boundary as the root itself. -/
def sqrt (x : F32) : F32 :=
  if x.isNaN then nan
  else if x.isZero then x
  else if x.sign then nan
  else if x.isInf then x
  else
    let n := magUnits x.magBits * one * 4
    let s := isqrt n
    pack false (roundMag (2 * s + if s * s = n then 0 else 1) 4)

/-- `absf`. -/
def abs (x : F32) : F32 := x &&& 0x7FFFFFFF#32

/-- Ordered `<`: false where an operand is a NaN. -/
def lt (x y : F32) : Bool := !x.isNaN && !y.isNaN && decide (units x < units y)

/-- Ordered `<=`. -/
def le (x y : F32) : Bool := !x.isNaN && !y.isNaN && decide (units x ≤ units y)

/-- `minf`; for equal operands the first (log entry 8), for a NaN a free value (log entry 6). -/
def min (x y : F32) : F32 :=
  if x.isNaN || y.isNaN then Config.freeMinMax false x y else if lt y x then y else x

/-- `maxf`; as `min`. -/
def max (x y : F32) : F32 :=
  if x.isNaN || y.isNaN then Config.freeMinMax true x y else if lt x y then y else x

/-- `tof32` of an integer. -/
def ofInt (n : Int) : F32 := ofUnits (n * one)

/-- An exact conversion `f` of a finite value's units, and the infinities and NaN by name. -/
def convert (f : Int → Int) (x : F32) : Rounded :=
  if x.isNaN then .nan
  else if x.isInf then (if x.sign then .negInf else .posInf)
  else .int (f (units x))

/-- `floor`. -/
def floor (x : F32) : Rounded := convert (fun z => z / one) x

/-- `trunc`. -/
def trunc (x : F32) : Rounded := convert (fun z => Int.tdiv z one) x

/-- `rnd(x) = floor(x + 1/2)` (R11), exact. -/
def rnd (x : F32) : Rounded := convert (fun z => (2 * z + one) / (2 * one)) x

end Sys2Proof.Machine.Binary32

namespace Sys2Proof.Machine

/-- The binary32 operations, `NUMERIC = BINARY32` (R11). -/
def binary32 : Numerics F32 where
  add := Binary32.add
  sub := Binary32.sub
  mul := Binary32.mul
  div := Binary32.div
  sqrt := Binary32.sqrt
  abs := Binary32.abs
  min := Binary32.min
  max := Binary32.max
  ofInt := Binary32.ofInt
  lt := Binary32.lt
  le := Binary32.le
  floor := Binary32.floor
  trunc := Binary32.trunc
  rnd := Binary32.rnd

end Sys2Proof.Machine
end

