-- ==== Sys2Proof/Machine/Operands.lean ====
section
/-! DEFINITION. The operand forms: what a command's value field and a speed turn into. -/

namespace Sys2Proof.Machine

variable {R : Type}

/-- A value field as a u32 step count (30_encoding.md R114, 10_state.md R33). -/
def stepCount (n : Nat) : U32 := BitVec.ofNat 32 n

/-- RPM to steps/s (42_protocol.md R250). -/
def sps (N : Numerics R) (c : ConfigOf R) (rpm : Nat) : R :=
  N.div (N.mul (N.ofInt rpm) (N.ofInt c.stepsPerRev)) (N.ofInt 60)

/-- `H(v, old)`: speed to half-period (41_scheduler.md R181). -/
def halfPeriod (N : Numerics R) (c : ConfigOf R) (v : R) (old : U32) : U32 :=
  if N.le v (N.ofInt 0) then old
  else
    BitVec.ofInt 32
      (satRounded Config.hMinUs c.timerMaxUs.toNat (N.floor (N.div (N.ofInt 500000) v)))

/-- The mode action `A` requests (42_protocol.md R242, R243): the inverse of the present one under `FLIP`,
value 0 off and any other value on under `BY_VALUE`. -/
def trapRequest (c : ConfigOf R) (v : Nat) (present : Bool) : Bool :=
  match c.aMode with
  | .flip => !present
  | .byValue => decide (v ≠ 0)

/-- The direction-line level of a direction (10_state.md R42): `forward` is `DIR_FWD_LEVEL`, the other level
is `1 - DIR_FWD_LEVEL`. -/
def dirLevel (c : ConfigOf R) (forward : Bool) : Bit :=
  if forward then c.dirFwdLevel else 1#1 - c.dirFwdLevel

end Sys2Proof.Machine
end

