-- ==== Sys2Proof/Machine/State.lean ====
section
/-! DEFINITION. The state of the block (10_state.md R30), its inputs and parameters, and the state after reset
(70_reset_and_hazards.md R350). Plain data throughout. -/

namespace Sys2Proof.Machine

/-- Why a step can stop. -/
inductive Fault where
  /-- Raised by `RX` when the parser is accumulating and already holds eleven bytes: the next byte would go to
  a frame offset outside 0..10, which 20_memory.md R82 says is never formed. Safe: no reachable state raises
  it (the invariant of Safety.lean), and where it is raised the model stops. -/
  | frameOffset
  deriving DecidableEq, Repr

/-- Why an instruction can be without a meaning. -/
inductive Refusal where
  /-- Answered by an arm of `exec` whose instruction has no meaning yet. Safe. No arm answers it. -/
  | notModelled (mnemonic : String)
  deriving DecidableEq, Repr

/-- 10_state.md R32: Forward = 0, Reverse = 1. -/
inductive Direction where
  | forward
  | reverse
  deriving DecidableEq, Repr

/-- The one bit of R32. -/
def Direction.bit : Direction → Bit
  | .forward => 0#1
  | .reverse => 1#1

/-- A MotionPlan (10_state.md R40). -/
structure MotionPlanOf (R : Type) where
  totalSteps : U32
  stepsDone : U32
  accelSteps : U32
  cruiseSteps : U32
  decelSteps : U32
  peakSpeedSps : R
  deriving DecidableEq, Repr

/-- The Axis record (10_state.md R31 to R43), thirteen fields (R51). -/
structure AxisOf (R : Type) where
  /-- R31. -/
  enabled : Bool
  /-- R32. -/
  direction : Direction
  /-- R33: 0 means unbounded motion. -/
  remainingSteps : U32
  /-- R34: the half-period, and the period register of the axis timer. -/
  stepIntervalUs : U32
  /-- R35: a mailbox of one entry. -/
  pendingIntervalUs : Option U32
  /-- R36. -/
  trapezoidEnabled : Bool
  /-- R37. -/
  currentSpeedSps : R
  /-- R38. -/
  targetSpeedSps : R
  /-- R39: signed. -/
  accelerationSps2 : R
  /-- R40. -/
  plan : Option (MotionPlanOf R)
  /-- R41. -/
  stepLevel : Bit
  /-- R42. -/
  dirOut : Bit
  /-- R43: active low. -/
  enaOutN : Bit
  deriving DecidableEq, Repr

abbrev MotionPlan := MotionPlanOf F32
abbrev Axis := AxisOf F32

/-- One value per axis (00_scope.md R8: `N_AXES` = 3). -/
structure PerAxis (A : Type) where
  ax0 : A
  ax1 : A
  ax2 : A
  deriving DecidableEq, Repr

/-- The value of one axis. -/
def PerAxis.get {A : Type} (p : PerAxis A) : AxisId → A
  | .axis0 => p.ax0
  | .axis1 => p.ax1
  | .axis2 => p.ax2

/-- Write the value of one axis. -/
def PerAxis.set {A : Type} (p : PerAxis A) : AxisId → A → PerAxis A
  | .axis0, v => { p with ax0 := v }
  | .axis1, v => { p with ax1 := v }
  | .axis2, v => { p with ax2 := v }

/-- The CurrentChannel (10_state.md R45). -/
structure Channel where
  ring : Vector I32 50
  wr : Fin 50
  full : Bool
  avg : I32
  deriving DecidableEq, Repr

/-- The telemetry time base (10_state.md R46). -/
structure TimeBase where
  nowMs : U32
  lastSampleMs : U32
  lastAvgMs : U32
  deriving DecidableEq, Repr

/-- 10_state.md R47. -/
inductive PState where
  | idle
  | accum
  deriving DecidableEq, Repr

/-- The parser (10_state.md R47): `idx` bytes of `buf` are held. -/
structure Parser where
  pstate : PState
  buf : Frame
  idx : Fin 12
  deriving DecidableEq, Repr

/-- One drop (60_exceptions.md R310): its cause and the frame it was raised on. -/
structure DropEntry where
  cause : DropCause
  frame : Frame
  deriving DecidableEq, Repr

/-- What the outside does to the block (00_scope.md R7 a, d, e). -/
inductive HostEvent where
  /-- A byte on the serial input. -/
  | rx (b : Byte)
  /-- The host takes a reply byte. -/
  | txPop
  /-- The environment sets a raw analog sample (10_state.md R50). -/
  | setAdc (a : AxisId) (raw : Nat)
  /-- The environment sets a rotation value (R50). -/
  | setRpm (a : AxisId) (v : I32)
  deriving DecidableEq, Repr

/-- One agent step (00_scope.md R7, 60_exceptions.md R312). -/
inductive Event where
  | host (e : HostEvent)
  | schedTick (a : AxisId)
  | telemTick
  deriving DecidableEq, Repr

/-- An outside action at a time of the timed refinement, which the host chooses (60_exceptions.md R320 d). -/
structure Arrival where
  time : Nat
  ev : HostEvent
  deriving DecidableEq, Repr

end Sys2Proof.Machine

namespace Sys2Proof.Machine

/-- The state of a block whose speeds are of type `R`: `State` is the one under `NUMERIC = BINARY32`, `State ℝ` the one
under `REAL` (00_scope.md R12). `axis` to `timer` are the tuple of 10_state.md R30; `cfg` the parameters (R8), which no
operation writes (log entry 1); `adc` and `rpmIn` the input ports as the environment last set them (R50, log
entry 10); `agenda`, `t`, `arrivals` and `telemDue` say which agent moves next (log entries 14, 16). -/
structure State (R : Type := F32) where
  cfg : ConfigOf R
  axis : PerAxis (AxisOf R)
  ch : PerAxis Channel
  tbase : TimeBase
  parser : Parser
  txq : List Byte
  dropLog : List DropEntry
  timer : PerAxis U32
  adc : PerAxis Nat
  rpmIn : PerAxis I32
  agenda : List Event
  t : Nat
  arrivals : List Arrival
  telemDue : Bool
  deriving DecidableEq, Repr

/-- The Axis record after reset (R31 to R43, R350), over either arithmetic. -/
def AxisOf.reset {R : Type} (N : Numerics R) (c : ConfigOf R) : AxisOf R where
  enabled := false
  direction := .forward
  remainingSteps := 0#32
  stepIntervalUs := halfPeriod N c c.vMinSps 1#32
  pendingIntervalUs := none
  trapezoidEnabled := c.resetTrapezoid
  currentSpeedSps := N.ofInt 0
  targetSpeedSps := c.resetTargetSps
  accelerationSps2 := N.ofInt 0
  plan := none
  stepLevel := 0#1
  dirOut := c.dirFwdLevel
  enaOutN := 1#1

/-- The Axis record after reset under `BINARY32`. -/
def Axis.reset (c : Config) : Axis := AxisOf.reset binary32 c

/-- The CurrentChannel after reset (R45). The spec leaves the ring unspecified: zero, DESIGN CHOICE (log entry
12); it is never read before it is written. -/
def Channel.reset : Channel where
  ring := Vector.replicate 50 0#32
  wr := 0
  full := false
  avg := 0#32

/-- The parser after reset (R47); the buffer unspecified by the spec: zero, DESIGN CHOICE (log entry 12). -/
def Parser.reset : Parser where
  pstate := .idle
  buf := Vector.replicate 11 0#8
  idx := 0

/-- The same value on the three axes. -/
def PerAxis.all {A : Type} (v : A) : PerAxis A := ⟨v, v, v⟩

/-- The state right after reset of a block with the parameters `c` (R350, R353), over either arithmetic. -/
def State.resetOf {R : Type} (N : Numerics R) (c : ConfigOf R) : State R where
  cfg := c
  axis := PerAxis.all (AxisOf.reset N c)
  ch := PerAxis.all Channel.reset
  tbase := { nowMs := 0#32, lastSampleMs := 0#32, lastAvgMs := 0#32 }
  parser := Parser.reset
  txq := []
  dropLog := []
  timer := PerAxis.all 0#32
  adc := PerAxis.all 0
  rpmIn := PerAxis.all 0#32
  agenda := []
  t := 0
  arrivals := []
  telemDue := false

/-- The state right after reset under `BINARY32`. -/
def State.resetWith (c : Config) : State := State.resetOf binary32 c

/-- The state right after reset. -/
def State.reset : State := State.resetWith Config.current

end Sys2Proof.Machine
end

