-- ==== Sys2Proof/Machine/Ops.lean ====
section
/-! DEFINITION. The named operations over the state: the axis records, the ring space (20_memory.md R81), the
reply queue (42_protocol.md R247), the timer restart (41_scheduler.md R196) and the drop (60_exceptions.md R310),
which is all the block has of an exception. There is no return from one (R315). -/

namespace Sys2Proof.Machine

variable {R : Type}

/-- Apply `f` to the Axis record of axis `a`, and to nothing else. -/
def State.updAxis (s : State R) (a : AxisId) (f : AxisOf R → AxisOf R) : State R :=
  { s with axis := s.axis.set a (f (s.axis.get a)) }

/-- The restart of axis `a`'s timer (41_scheduler.md R196, 60_exceptions.md R320 b). -/
def State.restartTimer (s : State R) (a : AxisId) : State R :=
  { s with timer := s.timer.set a 0#32 }

/-- `raise Drop(cause)` (60_exceptions.md R310): the cause and `buf[0..10]` are appended to `dropLog`, and
nothing else changes. -/
def State.raiseDrop (s : State R) (cause : DropCause) : State R :=
  { s with dropLog := s.dropLog ++ [{ cause := cause, frame := s.parser.buf }] }

/-- `MemRead(ring, k)` (20_memory.md R81). -/
def memRead (ring : Vector I32 50) (k : Fin 50) : I32 := ring[k]

/-- `MemWrite(ring, k, v)` (20_memory.md R81). -/
def memWrite (ring : Vector I32 50) (k : Fin 50) (v : I32) : Vector I32 50 := ring.set k v

/-- The sign byte of a reply (30_encoding.md R117). -/
def signByte (v : Int) : Byte := if 0 ≤ v then 0x2B#8 else 0x2D#8

/-- The magnitude a reply carries (R117): saturated at 99999. -/
def replyMagnitude (v : Int) : Nat := Nat.min v.natAbs 99999

/-- The seven bytes of offsets 1 to 7 of a reply (R116). -/
def replyBody (sel : Byte) (v : Int) : List Byte :=
  let m := replyMagnitude v
  [sel, signByte v, asciiDigit m 10000, asciiDigit m 1000, asciiDigit m 100, asciiDigit m 10, asciiDigit m 1]

/-- A reply frame (R116, R118): STX, the body, the XOR of the body, ETX. -/
def replyFrame (sel : Byte) (v : Int) : List Byte :=
  [stx] ++ replyBody sel v ++ [(replyBody sel v).foldl (· ^^^ ·) 0#8, etx]

/-- `reply(sel, v)` (42_protocol.md R247): the ten bytes enter the reply queue together. -/
def State.reply (s : State R) (sel : Byte) (v : Int) : State R :=
  { s with txq := s.txq ++ replyFrame sel v }

/-- The value on an analog port: a draw in `0..ADC_MAX` (10_state.md R50, log entry 10). -/
def State.adcIn (s : State R) (a : AxisId) : Nat := Nat.min (s.adc.get a) s.cfg.adcMax

end Sys2Proof.Machine
end

