-- ==== Sys2Proof/Machine/Direction.lean ====
section
/-! DEFINITION. FWD and REV (42_protocol.md R235, R236). -/

namespace Sys2Proof.Machine

variable {R : Type}

/-- Set the direction bit; the direction line follows at once only under `DIR_UPDATE = IMMEDIATE`. -/
def setDirection (c : ConfigOf R) (d : Direction) (ax : AxisOf R) : AxisOf R :=
  { ax with
    direction := d
    dirOut :=
      match c.dirUpdate with
      | .atStart => ax.dirOut
      | .immediate => dirLevel c (decide (d = .forward)) }

/-- FWD (R235), REV (R236) on the state. -/
def State.setDirection (a : AxisId) (d : Direction) (s : State R) : State R :=
  s.updAxis a (Machine.setDirection s.cfg d)

/-- FWD (R235); the value is ignored. -/
def execFwd (a : AxisId) (_v : Nat) (s : State) : Host.Outcome State Fault Refusal :=
  .next (s.setDirection a .forward)

/-- REV (R236); the value is ignored. -/
def execRev (a : AxisId) (_v : Nat) (s : State) : Host.Outcome State Fault Refusal :=
  .next (s.setDirection a .reverse)

end Sys2Proof.Machine
end

