-- ==== Sys2Proof/Machine/Excitation.lean ====
section
/-! DEFINITION. ENA and DIS (42_protocol.md R240, R241): the excitation line, active low. -/

namespace Sys2Proof.Machine

/-- The excitation line of one axis (R240, R241). -/
def State.setExcitation {R : Type} (a : AxisId) (level : Bit) (s : State R) : State R :=
  s.updAxis a fun ax => { ax with enaOutN := level }

/-- ENA (R240); the value is ignored. -/
def execEna (a : AxisId) (_v : Nat) (s : State) : Host.Outcome State Fault Refusal :=
  .next (s.setExcitation a 0#1)

/-- DIS (R241); the value is ignored. -/
def execDis (a : AxisId) (_v : Nat) (s : State) : Host.Outcome State Fault Refusal :=
  .next (s.setExcitation a 1#1)

end Sys2Proof.Machine
end

