-- ==== Sys2Proof/Machine/Datapath.lean ====
section
/-! DEFINITION. The speed datapath of 41_scheduler.md section 1, over either arithmetic. -/

namespace Sys2Proof.Machine

variable {R : Type}

/-- `amag(ax)` (R182): the acceleration's magnitude, floored. -/
def amag (N : Numerics R) (c : ConfigOf R) (ax : AxisOf R) : R :=
  N.max (N.abs ax.accelerationSps2) c.aMinSps2

/-- `dv(ax)` (R183): the speed change of one half-period. -/
def dv (N : Numerics R) (c : ConfigOf R) (ax : AxisOf R) : R :=
  N.div (N.mul (amag N c ax) (N.div (N.ofInt ax.stepIntervalUs.toNat) (N.ofInt c.dtDivisor)))
    (N.ofInt 1000000)

/-- `towards(cur, goal, d)` (R184). -/
def towards (N : Numerics R) (cur goal d : R) : R :=
  if N.lt cur goal then N.min goal (N.add cur d)
  else if N.lt goal cur then N.max goal (N.sub cur d)
  else cur

/-- `down(cur, d)` (R185). -/
def down (N : Numerics R) (c : ConfigOf R) (cur d : R) : R :=
  if N.lt c.vMinSps cur then N.max c.vMinSps (N.sub cur d) else cur

/-- The acceleration that reaches `goal` from `from_` in the ramp time (10_state.md R39, D8). -/
def rampAccel (N : Numerics R) (goal from_ : R) : R :=
  N.mul (N.sub goal from_) (N.ofInt Config.rampRate)

/-- The stopping distance of the fallback path, line 24 of R186. -/
def stopDistance (N : Numerics R) (c : ConfigOf R) (ax : AxisOf R) : R :=
  N.div (N.mul ax.currentSpeedSps ax.currentSpeedSps) (N.mul (N.ofInt 2) (amag N c ax))

end Sys2Proof.Machine
end

