-- ==== Sys2Proof/Machine/Planner.lean ====
section
/-! DEFINITION. The velocity-profile planner (40_planner.md R150 to R159), a function of its five inputs. -/

namespace Sys2Proof.Machine

variable {R : Type}

/-- `rnd_sat(x) = min(rnd(x), 2^32)` for `x ≥ 0` (R156). -/
def rndSat (N : Numerics R) (x : R) : Nat := (satRounded 0 (2 ^ 32) (N.rnd x)).toNat

/-- The distance `(v² − u²) / (2·a)`, clamped at 0, in steps not yet rounded (R153, R154). -/
def rampDistance (N : Numerics R) (v u twoA : R) : R :=
  N.max (N.ofInt 0) (N.div (N.sub (N.mul v v) (N.mul u u)) twoA)

/-- The triangular branch's peak (R155, R157): floored at `v0`, limited by `vT` first. -/
def trianglePeak (N : Numerics R) (v0 vT vE a : R) (n : U32) : R :=
  let s := N.add (N.mul a (N.ofInt n.toNat)) (N.div (N.add (N.mul v0 v0) (N.mul vE vE)) (N.ofInt 2))
  N.max v0 (N.min (N.sqrt s) vT)

/-- `PLAN(v0, vT, vE, a, N)` (R153). -/
def plan (N : Numerics R) (v0 vT vE a : R) (n : U32) : MotionPlanOf R :=
  let twoA := N.mul (N.ofInt 2) a
  let accel := rndSat N (rampDistance N vT v0 twoA)
  let decel := rndSat N (rampDistance N vT vE twoA)
  if accel + decel ≤ n.toNat then
    { totalSteps := n
      stepsDone := 0#32
      accelSteps := BitVec.ofNat 32 accel
      cruiseSteps := BitVec.ofNat 32 (n.toNat - accel - decel)
      decelSteps := BitVec.ofNat 32 decel
      peakSpeedSps := vT }
  else
    let p := trianglePeak N v0 vT vE a n
    let accel' := Nat.min n.toNat (rndSat N (rampDistance N p v0 twoA))
    { totalSteps := n
      stepsDone := 0#32
      accelSteps := BitVec.ofNat 32 accel'
      cruiseSteps := 0#32
      decelSteps := BitVec.ofNat 32 (n.toNat - accel')
      peakSpeedSps := p }

end Sys2Proof.Machine
end

