-- ==== Sys2Proof/Machine/Scheduler.lean ====
section
/-! DEFINITION. `SCHED_TICK` (41_scheduler.md R186) on one Axis record, over either arithmetic; the line
numbers are those of the rule. -/

namespace Sys2Proof.Machine

variable {R : Type}

/-- Lines 5 to 8: one full step of bounded motion, and exhaustion (R187, R188). -/
def countStep (ax : AxisOf R) : AxisOf R :=
  if ax.remainingSteps - 1#32 = 0#32 then
    { ax with remainingSteps := 0#32, enabled := false, plan := none }
  else
    { ax with
      remainingSteps := ax.remainingSteps - 1#32
      plan := ax.plan.map fun p => { p with stepsDone := p.stepsDone + 1#32 } }

/-- Lines 9 and 10, and the use of a pending interval by `M` (42_protocol.md R233). -/
def applyPending (ax : AxisOf R) : AxisOf R :=
  match ax.pendingIntervalUs with
  | some h => { ax with stepIntervalUs := h, pendingIntervalUs := none }
  | none => ax

/-- Lines 3 to 10, on a rising edge. -/
def risingEdge (ax : AxisOf R) : AxisOf R :=
  applyPending (if ax.remainingSteps = 0#32 then ax else countStep ax)

/-- Lines 16 to 22: the speed of a planned move (R190). -/
def plannedSpeed (N : Numerics R) (c : ConfigOf R) (p : MotionPlanOf R) (cur d : R) : R :=
  if p.stepsDone.toNat < p.accelSteps.toNat then
    if N.lt cur p.peakSpeedSps then N.min p.peakSpeedSps (N.add cur d) else cur
  else if p.stepsDone.toNat < p.accelSteps.toNat + p.cruiseSteps.toNat then p.peakSpeedSps
  else down N c cur d

/-- Lines 24 to 28: the speed of a bounded move with no plan (R190). -/
def fallbackSpeed (N : Numerics R) (c : ConfigOf R) (ax : AxisOf R) (d : R) : R :=
  if N.le (N.ofInt ax.remainingSteps.toNat) (stopDistance N c ax) then down N c ax.currentSpeedSps d
  else towards N ax.currentSpeedSps ax.targetSpeedSps d

/-- Lines 12 to 28: the new speed. -/
def nextSpeed (N : Numerics R) (c : ConfigOf R) (ax : AxisOf R) : R :=
  let d := dv N c ax
  if ax.remainingSteps = 0#32 then towards N ax.currentSpeedSps ax.targetSpeedSps d
  else
    match ax.plan with
    | some p => plannedSpeed N c p ax.currentSpeedSps d
    | none => fallbackSpeed N c ax d

/-- Lines 12 to 30: the speed update and the interval update (R191). -/
def speedUpdate (N : Numerics R) (c : ConfigOf R) (ax : AxisOf R) : AxisOf R :=
  { ax with
    currentSpeedSps := nextSpeed N c ax
    stepIntervalUs := halfPeriod N c (nextSpeed N c ax) ax.stepIntervalUs }

/-- Line 2 and, where the flip is a rising edge, lines 3 to 10. -/
def flipStep (ax : AxisOf R) : AxisOf R :=
  let flipped := { ax with stepLevel := ~~~ax.stepLevel }
  if flipped.stepLevel = 1#1 then risingEdge flipped else flipped

/-- `SCHED_TICK` (R186). -/
def schedTick (N : Numerics R) (c : ConfigOf R) (ax : AxisOf R) : AxisOf R :=
  if ax.enabled then
    let edged := flipStep ax
    if edged.trapezoidEnabled && edged.enabled then speedUpdate N c edged else edged
  else ax

end Sys2Proof.Machine
end

