-- ==== Sys2Proof/Machine/Motion.lean ====
section
/-! DEFINITION. START and STOP (42_protocol.md R231 to R234). -/

namespace Sys2Proof.Machine

variable {R : Type}

/-- The common part of `M` (R231), with the direction line under `DIR_UPDATE = AT_START` (10_state.md R42). -/
def startCommon (c : ConfigOf R) (n : U32) (ax : AxisOf R) : AxisOf R :=
  { ax with
    enabled := true
    remainingSteps := n
    dirOut :=
      match c.dirUpdate with
      | .atStart => dirLevel c (decide (ax.direction = .forward))
      | .immediate => ax.dirOut }

/-- `M` with trapezoid mode on (R232; the Planner's invocation 40_planner.md R151, R152). -/
def startTrapezoid (N : Numerics R) (c : ConfigOf R) (n : U32) (ax : AxisOf R) : AxisOf R :=
  let ax := { ax with
    currentSpeedSps := c.vMinSps
    accelerationSps2 := rampAccel N ax.targetSpeedSps c.vMinSps }
  { ax with
    plan :=
      if n = 0#32 then none
      else some (plan N c.vMinSps ax.targetSpeedSps c.vMinSps (amag N c ax) n)
    stepIntervalUs := halfPeriod N c c.vMinSps ax.stepIntervalUs
    pendingIntervalUs := none }

/-- `M` with trapezoid mode off (R233): a pending interval is applied at the start. -/
def startDirect (ax : AxisOf R) : AxisOf R := applyPending { ax with plan := none }

/-- `M` on an Axis record (R231). -/
def startAxis (N : Numerics R) (c : ConfigOf R) (n : U32) (ax : AxisOf R) : AxisOf R :=
  let ax := startCommon c n ax
  if ax.trapezoidEnabled then startTrapezoid N c n ax else startDirect ax

/-- `S` on an Axis record (R234). -/
def stopAxis (N : Numerics R) (ax : AxisOf R) : AxisOf R :=
  { ax with
    enabled := false
    remainingSteps := 0#32
    currentSpeedSps := N.ofInt 0
    plan := none }

/-- START (R231): the axis starts and its timer restarts. -/
def State.start (N : Numerics R) (a : AxisId) (n : Nat) (s : State R) : State R :=
  (s.updAxis a (startAxis N s.cfg (stepCount n))).restartTimer a

/-- STOP (R234). -/
def State.stop (N : Numerics R) (a : AxisId) (s : State R) : State R := s.updAxis a (stopAxis N)

/-- START, under `BINARY32`. -/
def execStart (a : AxisId) (n : Nat) (s : State) : Host.Outcome State Fault Refusal :=
  .next (s.start binary32 a n)

/-- STOP, under `BINARY32`; the value is ignored. -/
def execStop (a : AxisId) (_v : Nat) (s : State) : Host.Outcome State Fault Refusal :=
  .next (s.stop binary32 a)

end Sys2Proof.Machine
end

