-- ==== Sys2Proof/Machine/Query.lean ====
section
/-! DEFINITION. QCUR and QROT (42_protocol.md R244 to R247). -/

namespace Sys2Proof.Machine

variable {R : Type}

/-- QCUR (R244): the cached average, never recomputed here. The reply's selector is the query's (`buf[1]`), the
selector byte of the axis it decoded to (log entry 20). -/
def State.queryCurrent (a : AxisId) (s : State R) : State R := s.reply a.selector (s.ch.get a).avg.toInt

/-- QROT (R245): the rotation value on the input port; without `HAS_X` the frame is dropped. -/
def State.queryRotation (a : AxisId) (s : State R) : State R :=
  if s.cfg.hasX then s.reply a.selector (s.rpmIn.get a).toInt else s.raiseDrop .badAction

/-- QCUR (R244); the value is ignored. -/
def execQcur (a : AxisId) (_v : Nat) (s : State) : Host.Outcome State Fault Refusal :=
  .next (s.queryCurrent a)

/-- QROT (R245); the value is ignored. -/
def execQrot (a : AxisId) (_v : Nat) (s : State) : Host.Outcome State Fault Refusal :=
  .next (s.queryRotation a)

end Sys2Proof.Machine
end

