-- ==== Sys2Proof/Machine/Speed.lean ====
section
/-! DEFINITION. SPEED (42_protocol.md R237 to R239) and TRAP (R242, R243). -/

namespace Sys2Proof.Machine

variable {R : Type}

/-- `V` to the speed `v` on an Axis record: R238 with trapezoid mode on, R239 off. -/
def speedAxis (N : Numerics R) (c : ConfigOf R) (v : R) (ax : AxisOf R) : AxisOf R :=
  if ax.trapezoidEnabled then
    { ax with
      targetSpeedSps := v
      accelerationSps2 := rampAccel N v ax.currentSpeedSps
      plan := if c.vClearsPlan then none else ax.plan }
  else
    { ax with
      targetSpeedSps := v
      currentSpeedSps := v
      pendingIntervalUs := some (halfPeriod N c v ax.stepIntervalUs) }

/-- Switching trapezoid mode off (R242). -/
def trapezoidOff (N : Numerics R) (c : ConfigOf R) (ax : AxisOf R) : AxisOf R :=
  { ax with
    trapezoidEnabled := false
    currentSpeedSps := ax.targetSpeedSps
    pendingIntervalUs := some (halfPeriod N c ax.targetSpeedSps ax.stepIntervalUs)
    plan := none }

/-- `A` on an Axis record (R242, R243): a request equal to the present mode changes nothing. -/
def trapAxis (N : Numerics R) (c : ConfigOf R) (v : Nat) (ax : AxisOf R) : AxisOf R :=
  match ax.trapezoidEnabled, trapRequest c v ax.trapezoidEnabled with
  | true, false => trapezoidOff N c ax
  | false, true => { ax with trapezoidEnabled := true }
  | true, true => ax
  | false, false => ax

/-- SPEED (R237): value 0 is a no-op, recorded as `BAD_VALUE`. -/
def State.speed (N : Numerics R) (a : AxisId) (rpm : Nat) (s : State R) : State R :=
  if rpm = 0 then s.raiseDrop .badValue
  else s.updAxis a (speedAxis N s.cfg (sps N s.cfg rpm))

/-- TRAP (R242, R243). -/
def State.trap (N : Numerics R) (a : AxisId) (v : Nat) (s : State R) : State R :=
  s.updAxis a (trapAxis N s.cfg v)

/-- SPEED, under `BINARY32`. -/
def execSpeed (a : AxisId) (rpm : Nat) (s : State) : Host.Outcome State Fault Refusal :=
  .next (s.speed binary32 a rpm)

/-- TRAP, under `BINARY32`. -/
def execTrap (a : AxisId) (v : Nat) (s : State) : Host.Outcome State Fault Refusal :=
  .next (s.trap binary32 a v)

end Sys2Proof.Machine
end

