-- ==== Sys2Proof/Machine/Dispatch.lean ====
section
/-! DEFINITION. The dispatch table (42_protocol.md R230): one arm per command. -/

namespace Sys2Proof.Machine

def exec (i : Instr) (s : State) : Host.Outcome State Fault Refusal :=
  match i with
  | .start a n => Sys2Proof.Machine.execStart a n s
  | .stop a v => Sys2Proof.Machine.execStop a v s
  | .fwd a v => Sys2Proof.Machine.execFwd a v s
  | .rev a v => Sys2Proof.Machine.execRev a v s
  | .speed a rpm => Sys2Proof.Machine.execSpeed a rpm s
  | .ena a v => Sys2Proof.Machine.execEna a v s
  | .dis a v => Sys2Proof.Machine.execDis a v s
  | .trap a v => Sys2Proof.Machine.execTrap a v s
  | .qcur a v => Sys2Proof.Machine.execQcur a v s
  | .qrot a v => Sys2Proof.Machine.execQrot a v s

end Sys2Proof.Machine
end

