-- ==== Sys2Proof/Machine/Protocol.lean ====
section
/-! DEFINITION. What a block is built with, and the frame parser `RX` (42_protocol.md R220 to R223), which fetches the
instruction's bytes and runs it with its last one, and `TX_POP` (R248). -/

namespace Sys2Proof.Machine

/-- What `NUMERIC` chooses (00_scope.md R8, R12): the arithmetic of the speeds, and the commands over it. Everything
else of the block is the same text under both values. -/
structure Build (R : Type) where
  numerics : Numerics R
  exec : Instr → State R → Host.Outcome (State R) Fault Refusal

/-- `NUMERIC = BINARY32`: the machine of `Sys2Proof.core`. -/
def binary32Build : Build F32 where
  numerics := binary32
  exec := exec

/-- The parser between frames, holding the bytes `f` of the last one. -/
def Parser.idleWith (f : Frame) : Parser := { pstate := .idle, buf := f, idx := 0 }

variable {R : Type}

/-- Frame completion (R223): the command the bytes decode to runs, or the frame is dropped. -/
def Build.completeFrame (B : Build R) (s : State R) : Host.Outcome (State R) Fault Refusal :=
  match decode s.cfg.hasX s.parser.buf with
  | .drop cause => .next (s.raiseDrop cause)
  | .cmd i => B.exec i s

/-- `RX(b)` in `IDLE` (R221): STX begins a frame, any other byte is discarded. -/
def rxIdle (b : Byte) (s : State R) : State R :=
  if b = stx then
    { s with parser := { pstate := .accum, buf := s.parser.buf.set 0 b, idx := 1 } }
  else s

/-- `RX(b)` in `ACCUM` (R222): every byte is taken; the eleventh completes the frame. -/
def Build.rxAccum (B : Build R) (b : Byte) (s : State R) : Host.Outcome (State R) Fault Refusal :=
  if h : s.parser.idx.val < 11 then
    let buf := s.parser.buf.set s.parser.idx.val b
    if s.parser.idx.val = 10 then B.completeFrame { s with parser := Parser.idleWith buf }
    else .next { s with parser := { pstate := .accum, buf := buf, idx := ⟨s.parser.idx.val + 1, by omega⟩ } }
  else .fault .frameOffset

/-- `RX(b)` (R220). -/
def Build.rx (B : Build R) (b : Byte) (s : State R) : Host.Outcome (State R) Fault Refusal :=
  match s.parser.pstate with
  | .idle => .next (rxIdle b s)
  | .accum => B.rxAccum b s

/-- `TX_POP` (R248): the oldest reply byte leaves; with the queue empty nothing changes. -/
def txPop (s : State R) : State R := { s with txq := s.txq.tail }

/-- Frame completion under `BINARY32`. -/
abbrev completeFrame (s : State) : Host.Outcome State Fault Refusal := binary32Build.completeFrame s

end Sys2Proof.Machine
end

