-- ==== Sys2Proof/Machine/Telemetry.lean ====
section
/-! DEFINITION. The current telemetry unit (43_telemetry.md): `TELEM_TICK`. -/

namespace Sys2Proof.Machine

variable {R : Type}

/-- `sample_mA(r)` (R282), left to right, over either arithmetic. -/
def sampleMilliamps (N : Numerics R) (c : ConfigOf R) (r : Nat) : Int :=
  let volts := N.div (N.mul (N.ofInt r) c.adcVrefV) c.adcRes
  satRounded (-2 ^ 31) (2 ^ 31 - 1)
    (N.trunc (N.mul (N.div (N.sub volts c.sensZeroV) c.sensVPerA) (N.ofInt 1000)))

/-- The cursor advanced modulo `RING_CAP` (R281 line 7). -/
def nextCursor (k : Fin 50) : Fin 50 := ⟨(k.val + 1) % Config.ringCap, Nat.mod_lt _ (by decide)⟩

/-- Lines 6 to 8 of R281: write the ring, advance the cursor, mark full once wrapped (R283). -/
def pushSample (c : Channel) (v : I32) : Channel where
  ring := memWrite c.ring c.wr v
  wr := nextCursor c.wr
  full := c.full || decide ((nextCursor c.wr).val = 0)
  avg := c.avg

/-- How many entries are valid (R284). -/
def Channel.count (c : Channel) : Nat := if c.full then Config.ringCap else c.wr.val

/-- The exact sum of the valid entries (R284). -/
def Channel.sum (c : Channel) : Int := ((c.ring.toList.take c.count).map BitVec.toInt).sum

/-- `mean(c)` (R284): truncated toward zero, 0 where there are no samples. -/
def Channel.mean (c : Channel) : I32 :=
  if c.count = 0 then 0#32 else BitVec.ofInt 32 (Int.tdiv c.sum c.count)

/-- Lines 4 to 8 for one channel: the sample drawn from its port. -/
def State.sampled (N : Numerics R) (s : State R) (a : AxisId) : Channel :=
  pushSample (s.ch.get a) (BitVec.ofInt 32 (sampleMilliamps N s.cfg (s.adcIn a)))

/-- Lines 3 to 8: a sample on each of the three channels. -/
def State.sampleAll (N : Numerics R) (s : State R) : State R :=
  { s with
    tbase := { s.tbase with lastSampleMs := s.tbase.nowMs }
    ch := { ax0 := s.sampled N .axis0, ax1 := s.sampled N .axis1, ax2 := s.sampled N .axis2 } }

/-- Line 11 for one channel. -/
def Channel.averaged (c : Channel) : Channel := { c with avg := c.mean }

/-- Lines 10 and 11: the average of each of the three channels. -/
def State.averageAll (s : State R) : State R :=
  { s with
    tbase := { s.tbase with lastAvgMs := s.tbase.nowMs }
    ch := { ax0 := s.ch.ax0.averaged, ax1 := s.ch.ax1.averaged, ax2 := s.ch.ax2.averaged } }

/-- Line 1. -/
def State.advanceMs (s : State R) : State R :=
  { s with tbase := { s.tbase with nowMs := s.tbase.nowMs + 1#32 } }

/-- Lines 2 to 8: sample where the sampling period has passed (modulo 2^32, R287). -/
def State.sampleIfDue (N : Numerics R) (s : State R) : State R :=
  if Config.tSampleMs ≤ (s.tbase.nowMs - s.tbase.lastSampleMs).toNat then s.sampleAll N else s

/-- Lines 9 to 11. -/
def State.averageIfDue (s : State R) : State R :=
  if Config.tAvgMs ≤ (s.tbase.nowMs - s.tbase.lastAvgMs).toNat then s.averageAll else s

/-- `TELEM_TICK` (R281): the sample before the average. -/
def State.telemTick (N : Numerics R) (s : State R) : State R := (s.advanceMs.sampleIfDue N).averageIfDue

end Sys2Proof.Machine
end

