-- ==== Sys2Proof/Machine/Events.lean ====
section
/-! DEFINITION. The agents (00_scope.md R7, 60_exceptions.md R312): one atomic step of each, the order of the
timed refinement (R313, R320), and where an instruction is placed to be fetched next. -/

namespace Sys2Proof.Machine

variable {R : Type}

/-- What the outside does (R7 a, d, e). Setting a port is a step of the environment and touches nothing else. -/
def Build.takeHostEvent (B : Build R) (e : HostEvent) (s : State R) : Host.Outcome (State R) Fault Refusal :=
  match e with
  | .rx b => B.rx b s
  | .txPop => .next (txPop s)
  | .setAdc a raw => .next { s with adc := s.adc.set a raw }
  | .setRpm a v => .next { s with rpmIn := s.rpmIn.set a v }

/-- One agent step. A compare-match starts its timer's count again (R320 a). -/
def Build.takeEvent (B : Build R) (e : Event) (s : State R) : Host.Outcome (State R) Fault Refusal :=
  match e with
  | .host h => B.takeHostEvent h s
  | .schedTick a => .next ((s.updAxis a (schedTick B.numerics s.cfg)).restartTimer a)
  | .telemTick => .next (s.telemTick B.numerics)

/-- Axis `a`'s timer has reached its period (R320 a: `cntUs ≥ stepIntervalUs`). -/
def State.tickDue (s : State R) (a : AxisId) : Bool :=
  decide ((s.axis.get a).stepIntervalUs.toNat ≤ (s.timer.get a).toNat)

/-- The host takes a reply byte: after every other action of the same time (R313). -/
def HostEvent.isPop : HostEvent → Bool
  | .txPop => true
  | .rx _ => false
  | .setAdc _ _ => false
  | .setRpm _ _ => false

/-- The first element that `p` accepts, and the list without it. -/
def extractFirst {A : Type} (p : A → Bool) : List A → Option (A × List A)
  | [] => none
  | x :: xs =>
    if p x then some (x, xs)
    else
      match extractFirst p xs with
      | some (y, ys) => some (y, x :: ys)
      | none => none

/-- The next outside action due at time `t`: `RX` and port changes in the host's order, then `TX_POP` (R313,
log entry 15). -/
def dueArrival (t : Nat) (l : List Arrival) : Option (Arrival × List Arrival) :=
  match extractFirst (fun x => decide (x.time ≤ t) && !x.ev.isPop) l with
  | some r => some r
  | none => extractFirst (fun x => decide (x.time ≤ t) && x.ev.isPop) l

/-- One µs passes (R320 a, c): every count advances, and `TELEM_TICK` falls due at each multiple of 1000. -/
def State.advanceUs (s : State R) : State R :=
  { s with
    t := s.t + 1
    timer := { ax0 := s.timer.ax0 + 1#32, ax1 := s.timer.ax1 + 1#32, ax2 := s.timer.ax2 + 1#32 }
    telemDue := decide ((s.t + 1) % Config.telemPeriodUs = 0) }

/-- One step of the timed refinement (R320): the event due first in the order of R313, or one µs. -/
def Build.timedStep (B : Build R) (s : State R) : Host.Outcome (State R) Fault Refusal :=
  if s.tickDue .axis0 then B.takeEvent (.schedTick .axis0) s
  else if s.tickDue .axis1 then B.takeEvent (.schedTick .axis1) s
  else if s.tickDue .axis2 then B.takeEvent (.schedTick .axis2) s
  else if s.telemDue then B.takeEvent .telemTick { s with telemDue := false }
  else
    match dueArrival s.t s.arrivals with
    | some (x, rest) => B.takeEvent (.host x.ev) { s with arrivals := rest }
    | none => .next s.advanceUs

/-- The next step: the head of the agenda (any interleaving, R7), or the timed refinement. -/
def Build.nextStep (B : Build R) (s : State R) : Host.Outcome (State R) Fault Refusal :=
  match s.agenda with
  | e :: rest => B.takeEvent e { s with agenda := rest }
  | [] => B.timedStep s

/-- One agent step under `BINARY32`. -/
abbrev takeEvent (e : Event) (s : State) : Host.Outcome State Fault Refusal := binary32Build.takeEvent e s

/-- `s` with the frame `f` at the point of being fetched: ten bytes held by the parser, the eleventh the next
byte to arrive. -/
def State.withFrame (s : State R) (f : Frame) : State R :=
  { s with
    parser := { pstate := .accum, buf := f, idx := 10 }
    agenda := .host (.rx f[10]) :: s.agenda }

end Sys2Proof.Machine
end

