-- ==== Sys2Proof/Machine/Step.lean ====
section
/-! DEFINITION. The step of the machine, and where the host places an instruction for it to fetch. -/

namespace Sys2Proof.Machine

/-- One step, under `NUMERIC = BINARY32`: one atomic step of one agent (00_scope.md R7), or one µs of the timed refinement (60_exceptions.md
R320). -/
def step (s : State) : Host.Outcome State Fault Refusal := binary32Build.nextStep s

/-- `s` with the instruction whose bits are `w` stored where the next step fetches it. -/
def State.withFetchWord (s : State) (nbits w : Nat) : State := s.withFrame (frameOfWord nbits w)

end Sys2Proof.Machine
end

