-- ==== Sys2Proof/Machine/RealNumerics.lean ====
section
/-! DEFINITION. `NUMERIC = REAL` (00_scope.md R12): the same operations, exact, over the real numbers. The
block is written over `Numerics R`; with this record it is the block under REAL, which Machine/Real.lean runs. -/

namespace Sys2Proof

/-- A quotient by 0 under `REAL`, which the spec does not state (log entry 27): free. -/
noncomputable opaque Config.freeRealQuotient : ℝ → ℝ

/-- The root of a negative number under `REAL`, which the spec does not state (log entry 27): free. -/
noncomputable opaque Config.freeRealRoot : ℝ → ℝ

end Sys2Proof

namespace Sys2Proof.Machine

/-- The exact real operations (R12): `sqrtf` the real square root, `tof32` the identity, the integer
conversions unchanged. -/
noncomputable def realNumerics : Numerics ℝ where
  add := fun x y => x + y
  sub := fun x y => x - y
  mul := fun x y => x * y
  div := fun x y => @ite _ (y = 0) (Classical.dec _) (Config.freeRealQuotient x) (x / y)
  sqrt := fun x => @ite _ (x < 0) (Classical.dec _) (Config.freeRealRoot x) (Real.sqrt x)
  abs := fun x => |x|
  min := fun x y => min x y
  max := fun x y => max x y
  ofInt := fun n => (n : ℝ)
  lt := fun x y => @decide (x < y) (Classical.dec _)
  le := fun x y => @decide (x ≤ y) (Classical.dec _)
  floor := fun x => .int ⌊x⌋
  trunc := fun x => .int (if 0 ≤ x then ⌊x⌋ else ⌈x⌉)
  rnd := fun x => .int ⌊x + 1 / 2⌋

/-- The number a finite binary32 value is: its units of 2^-149. -/
noncomputable def realOf (x : F32) : ℝ := (Binary32.units x : ℝ) / 2 ^ 149

/-- The parameters under `REAL`: R8 constrains the speeds among them to binary32 values, whichever the arithmetic, so
they are the numbers those values are (log entry 28). -/
noncomputable def realParams (c : Config) : ConfigOf ℝ where
  vMinSps := realOf c.vMinSps
  aMinSps2 := realOf c.aMinSps2
  stepsPerRev := c.stepsPerRev
  timerMaxUs := c.timerMaxUs
  dtDivisor := c.dtDivisor
  vClearsPlan := c.vClearsPlan
  dirUpdate := c.dirUpdate
  dirFwdLevel := c.dirFwdLevel
  aMode := c.aMode
  hasX := c.hasX
  resetTrapezoid := c.resetTrapezoid
  resetTargetSps := realOf c.resetTargetSps
  adcVrefV := realOf c.adcVrefV
  adcRes := realOf c.adcRes
  adcMax := c.adcMax
  sensZeroV := realOf c.sensZeroV
  sensVPerA := realOf c.sensVPerA

end Sys2Proof.Machine
end

