-- ==== Sys2Proof/Machine/Real.lean ====
section
/-! DEFINITION. The block under `NUMERIC = REAL` (00_scope.md R12), and `NUMERIC` as the parameter of the machine (R8).
The state is `State ℝ`, the step the same text as under `BINARY32` with the operations of `realNumerics`. -/

namespace Sys2Proof.Machine

/-- The commands under `REAL` (42_protocol.md R230): the same meanings over the real arithmetic. -/
noncomputable def execReal (i : Instr) (s : State ℝ) : Host.Outcome (State ℝ) Fault Refusal :=
  match i with
  | .start a n => .next (s.start realNumerics a n)
  | .stop a _ => .next (s.stop realNumerics a)
  | .fwd a _ => .next (s.setDirection a .forward)
  | .rev a _ => .next (s.setDirection a .reverse)
  | .speed a rpm => .next (s.speed realNumerics a rpm)
  | .ena a _ => .next (s.setExcitation a 0#1)
  | .dis a _ => .next (s.setExcitation a 1#1)
  | .trap a v => .next (s.trap realNumerics a v)
  | .qcur a _ => .next (s.queryCurrent a)
  | .qrot a _ => .next (s.queryRotation a)

/-- `NUMERIC = REAL`. -/
noncomputable def realBuild : Build ℝ where
  numerics := realNumerics
  exec := execReal

/-- One step under `REAL`. -/
noncomputable def realStep (s : State ℝ) : Host.Outcome (State ℝ) Fault Refusal := realBuild.nextStep s

/-- The state after reset under `REAL` (70_reset_and_hazards.md R350). -/
noncomputable def realReset : State ℝ := State.resetOf realNumerics (realParams Config.current)

/-- The machine for each value of `NUMERIC` (R8). `BINARY32` is normative (R12) and is the machine of
`Sys2Proof.core`; a state under `REAL` holds real numbers, so it can be neither printed nor compared (log entry 9). -/
noncomputable def machineOf : Numeric → Host.Core
  | .binary32 => Sys2Proof.core
  | .real =>
    { State := State ℝ, Fault := Fault, Refusal := Refusal, step := realStep, reset := realReset }

end Sys2Proof.Machine
end

