-- ==== Sys2Proof/Safety.lean ====
section
/-! DEFINITION. What a safe run keeps, and the terms the claims use: the legal values of 10_state.md as an
invariant, and what one step leaves alone. -/

namespace Sys2Proof.Machine

variable {R : Type}

/-- A legal half-period: `H_MIN_US..TIMER_MAX_US` (10_state.md R34). -/
abbrev IntervalOk (c : ConfigOf R) (h : U32) : Prop :=
  Config.hMinUs ≤ h.toNat ∧ h.toNat ≤ c.timerMaxUs.toNat

/-- The plan of a move with `rem` steps left (10_state.md R40). -/
abbrev PlanOk (p : MotionPlanOf R) (rem : U32) : Prop :=
  p.accelSteps.toNat + p.cruiseSteps.toNat + p.decelSteps.toNat = p.totalSteps.toNat ∧
  p.stepsDone.toNat + rem.toNat = p.totalSteps.toNat

/-- The legal values of an Axis record's integer fields (10_state.md R33 to R35, R40): a plan stands only in a
bounded move under trapezoid mode, and a disabled axis has no steps left and no plan. -/
abbrev AxisOk (c : ConfigOf R) (ax : AxisOf R) : Prop :=
  ax.remainingSteps.toNat ≤ 999999 ∧
  IntervalOk c ax.stepIntervalUs ∧
  (∀ h ∈ ax.pendingIntervalUs, IntervalOk c h) ∧
  (∀ p ∈ ax.plan, PlanOk p ax.remainingSteps ∧ ax.remainingSteps ≠ 0#32 ∧ ax.trapezoidEnabled = true) ∧
  (ax.enabled = false → ax.remainingSteps = 0#32)

/-- The parser holds no byte when idle, and a begun frame when accumulating (10_state.md R47, 42_protocol.md
R221, R222; 30_encoding.md R122). -/
abbrev ParserOk (p : Parser) : Prop :=
  (p.pstate = .idle → p.idx.val = 0) ∧
  (p.pstate = .accum → 1 ≤ p.idx.val ∧ p.idx.val ≤ 10 ∧ p.buf[0] = stx)

/-- The cadences hold: less than a period has passed since the last sample and the last average
(43_telemetry.md R281, R287). -/
abbrev TimeBaseOk (b : TimeBase) : Prop :=
  (b.nowMs - b.lastSampleMs).toNat < Config.tSampleMs ∧ (b.nowMs - b.lastAvgMs).toNat < Config.tAvgMs

/-- A logged drop is what its frame gives (60_exceptions.md R310, 30_encoding.md R122): the cause is the one
`decode` answers, or the frame is a `V` with value 0. -/
abbrev DropOk (c : ConfigOf R) (d : DropEntry) : Prop :=
  d.frame[0] = stx ∧
  (decode c.hasX d.frame = .drop d.cause ∨
   (d.cause = .badValue ∧
    (decode c.hasX d.frame = .cmd (.speed .axis0 0) ∨ decode c.hasX d.frame = .cmd (.speed .axis1 0) ∨
     decode c.hasX d.frame = .cmd (.speed .axis2 0))))

/-- What every step keeps of the fields that are no speeds, under either arithmetic. The last two clauses are the
timed refinement's (60_exceptions.md R320): no count is above its period, and `TELEM_TICK` is due only at a multiple
of 1000 µs. -/
structure State.IntegersOk (s : State R) : Prop where
  axes : ∀ a, AxisOk s.cfg (s.axis.get a)
  parser : ParserOk s.parser
  timeBase : TimeBaseOk s.tbase
  drops : ∀ d ∈ s.dropLog, DropOk s.cfg d
  timers : ∀ a, (s.timer.get a).toNat ≤ (s.axis.get a).stepIntervalUs.toNat
  telemDue : s.telemDue = true → s.t % Config.telemPeriodUs = 0

/-- What every step keeps, under `BINARY32`. -/
structure State.Inv (s : State) : Prop extends State.IntegersOk s where
  params : Config.wf s.cfg = true

/-- The legal values of an Axis record's speeds (10_state.md R37, R38): the current speed finite and not
negative, the target finite and positive, the acceleration a number, a plan's peak finite and positive. -/
abbrev SpeedsOk (ax : Axis) : Prop :=
  (F32.isFinite ax.currentSpeedSps = true ∧ 0 ≤ Binary32.units ax.currentSpeedSps) ∧
  F32.isPosFinite ax.targetSpeedSps = true ∧
  F32.isNaN ax.accelerationSps2 = false ∧
  (∀ p ∈ ax.plan, F32.isPosFinite p.peakSpeedSps = true)

/-! The same under `REAL`. -/

/-- The constraints of 00_scope.md R8 on parameters that are real numbers. -/
abbrev RealParamsOk (c : ConfigOf ℝ) : Prop :=
  0 < c.vMinSps ∧ 0 < c.aMinSps2 ∧ (1 ≤ c.stepsPerRev ∧ c.stepsPerRev ≤ 65535) ∧ 1 ≤ c.timerMaxUs.toNat ∧
  (c.dtDivisor = 1 ∨ c.dtDivisor = 2) ∧ 0 < c.resetTargetSps ∧ 0 < c.adcVrefV ∧ 0 < c.adcRes ∧
  1 ≤ c.adcMax ∧ c.sensVPerA ≠ 0

/-- The legal speeds under `REAL` (10_state.md R37, R38). -/
abbrev RealSpeedsOk (ax : AxisOf ℝ) : Prop :=
  0 ≤ ax.currentSpeedSps ∧ 0 < ax.targetSpeedSps ∧ ∀ p ∈ ax.plan, 0 < p.peakSpeedSps

/-- What every step keeps, under `REAL`. -/
structure State.RealInv (s : State ℝ) : Prop extends State.IntegersOk s where
  params : RealParamsOk s.cfg
  speeds : ∀ a, RealSpeedsOk (s.axis.get a)

/-! What a step leaves alone. -/

/-- `t` is `s` but, perhaps, in the axis records, the timers, the reply queue and the drop log: the parameters,
the telemetry unit, the parser, the ports and the model's own fields are the same. -/
abbrev SameElsewhere (s t : State R) : Prop :=
  t.cfg = s.cfg ∧ t.ch = s.ch ∧ t.tbase = s.tbase ∧ t.parser = s.parser ∧ t.adc = s.adc ∧
  t.rpmIn = s.rpmIn ∧ t.agenda = s.agenda ∧ t.t = s.t ∧ t.arrivals = s.arrivals ∧ t.telemDue = s.telemDue

/-- `t` is `s` but in axis `a`'s record: nothing is queued, nothing is dropped, no timer moves. -/
abbrev OnlyAxis (a : AxisId) (s t : State R) : Prop :=
  SameElsewhere s t ∧ t.txq = s.txq ∧ t.dropLog = s.dropLog ∧ t.timer = s.timer ∧
  ∀ b, b ≠ a → t.axis.get b = s.axis.get b

end Sys2Proof.Machine
end

