-- ==== Sys2Proof/Certificates/Slice0/Obligations.lean ====
section
/-! DEFINITION. The statements for the provers. Each docstring names the rule of spec/ it rests on. -/

open Sys2Proof Sys2Proof.Machine

/-! ## Frames: 30_encoding.md -/

/-- Decoding the frame of a well-formed instruction gives the instruction back, whichever options the block has
(R110 to R120). -/
def Obligations.DecodeOfEncode : Prop :=
  ∀ (hasX : Bool) (i : Instr), i.wf hasX = true → decode hasX (encode i) = .cmd i

/-- Every frame the decoder accepts is the frame of the well-formed instruction it gives: each command has one
frame and no accepted frame has a bit the instruction does not determine (R110 to R120). -/
def Obligations.EncodeOfDecode : Prop :=
  ∀ (hasX : Bool) (f : Frame) (i : Instr),
    decode hasX f = .cmd i → i.wf hasX = true ∧ encode i = f

/-- R120: the five checks of `decode`, in their order, and the command where all pass, bytes written out; and a
drop of any cause changes the drop log and nothing else. -/
def Obligations.DecodeChecksInOrder : Prop :=
  ∀ (hasX : Bool) (f : Frame),
    let framed := f[0] = 0x02#8 ∧ f[10] = 0x03#8
    let summed := f[9] = f[1] ^^^ f[2] ^^^ f[3] ^^^ f[4] ^^^ f[5] ^^^ f[6] ^^^ f[7] ^^^ f[8]
    let selects := f[1] = 0x31#8 ∨ f[1] = 0x32#8 ∨ f[1] = 0x33#8
    let acts := f[2] ∈ [0x4D#8, 0x53#8, 0x46#8, 0x52#8, 0x56#8, 0x45#8, 0x44#8, 0x41#8, 0x43#8] ∨
      (f[2] = 0x58#8 ∧ hasX = true)
    let digits := ∀ k : Fin 11, 3 ≤ k.val → k.val ≤ 8 → 0x30 ≤ f[k].toNat ∧ f[k].toNat ≤ 0x39
    (¬framed → decode hasX f = .drop .badFraming) ∧
    (framed → ¬summed → decode hasX f = .drop .badChecksum) ∧
    (framed → summed → ¬selects → decode hasX f = .drop .badAxis) ∧
    (framed → summed → selects → ¬acts → decode hasX f = .drop .badAction) ∧
    (framed → summed → selects → acts → ¬digits → decode hasX f = .drop .badDigit) ∧
    (framed → summed → selects → acts → digits →
      ∃ i, decode hasX f = .cmd i ∧ i.axis.index = f[1].toNat - 0x31 ∧ i.code = f[2] ∧
        i.value = (f[3].toNat - 0x30) * 100000 + (f[4].toNat - 0x30) * 10000 +
          (f[5].toNat - 0x30) * 1000 + (f[6].toNat - 0x30) * 100 + (f[7].toNat - 0x30) * 10 +
          (f[8].toNat - 0x30)) ∧
    ∀ (s : State) (cause : DropCause), s.cfg.hasX = hasX → s.parser.buf = f →
      decode hasX f = .drop cause →
      completeFrame s = .next { s with dropLog := s.dropLog ++ [{ cause := cause, frame := f }] }

/-- R126, which the spec derives from R115 and R120: a single-bit change in one of offsets 1 to 8 changes the checksum by that bit; a frame with a single-bit
change in offsets 1 to 9 is dropped and the drop log is all that changes; two changes of the same bit in two of
offsets 1 to 8 cancel. -/
def Obligations.SingleBitChangeDropped : Prop :=
  ∀ (f : Frame) (j : Nat), f[0] = stx → f[10] = etx → f[9] = cks f → j < 8 →
    let flip (g : Frame) (k : Fin 11) : Frame := g.set k.val (g[k] ^^^ (1#8 <<< j))
    (∀ k : Fin 11, 1 ≤ k.val → k.val ≤ 8 →
      cks (flip f k) = cks f ^^^ (1#8 <<< j) ∧ (flip f k)[9] = f[9]) ∧
    (∀ k : Fin 11, 1 ≤ k.val → k.val ≤ 9 → ∀ s : State, s.parser.buf = flip f k →
      completeFrame s =
        .next { s with dropLog := s.dropLog ++ [{ cause := .badChecksum, frame := flip f k }] }) ∧
    (∀ k l : Fin 11, 1 ≤ k.val → k.val ≤ 8 → 1 ≤ l.val → l.val ≤ 8 → k ≠ l →
      (flip (flip f k) l)[9] = cks (flip (flip f k) l))

/-- One frame of each command, written out in the table's numbering (R111), decodes to the command. The
words are R124's example and frames of 95_test_vectors.md. -/
def Obligations.SampleWordsDecode : Prop :=
  decodeTableWord 88 0x02314D3030303130307D03 = some (.start .axis0 100) ∧
  decodeTableWord 88 0x0231533030303030306203 = some (.stop .axis0 0) ∧
  decodeTableWord 88 0x0231463030303030307703 = some (.fwd .axis0 0) ∧
  decodeTableWord 88 0x0232523030303030306003 = some (.rev .axis1 0) ∧
  decodeTableWord 88 0x0231563030303330306403 = some (.speed .axis0 300) ∧
  decodeTableWord 88 0x0232453030303030307703 = some (.ena .axis1 0) ∧
  decodeTableWord 88 0x0231443030303030307503 = some (.dis .axis0 0) ∧
  decodeTableWord 88 0x0231413030303030307003 = some (.trap .axis0 0) ∧
  decodeTableWord 88 0x0233433030303030307003 = some (.qcur .axis2 0) ∧
  decodeTableWord 88 0x0232583030303030306A03 = some (.qrot .axis1 0) ∧
  decodeTableWord 88 0x0231513030303030306003 = none

/-- R116 to R118 and 42_protocol.md R247: a reply is STX, the selector, the sign, five decimal digits of
`min(|v|, 99999)` most significant first, the XOR of the seven bytes before it, ETX; and it enters the reply
queue whole. -/
def Obligations.ReplyFrameBytes : Prop :=
  ∀ (sel : Byte) (v : Int), ∃ m4 m3 m2 m1 m0 : Nat,
    m4 ≤ 9 ∧ m3 ≤ 9 ∧ m2 ≤ 9 ∧ m1 ≤ 9 ∧ m0 ≤ 9 ∧
    m4 * 10000 + m3 * 1000 + m2 * 100 + m1 * 10 + m0 = Nat.min v.natAbs 99999 ∧
    let sign : Byte := if v ≥ 0 then 0x2B#8 else 0x2D#8
    let digit (m : Nat) : Byte := BitVec.ofNat 8 (0x30 + m)
    replyFrame sel v =
      [0x02#8, sel, sign, digit m4, digit m3, digit m2, digit m1, digit m0,
       sel ^^^ sign ^^^ digit m4 ^^^ digit m3 ^^^ digit m2 ^^^ digit m1 ^^^ digit m0, 0x03#8] ∧
    ∀ s : State, s.reply sel v = { s with txq := s.txq ++ replyFrame sel v }

/-! ## Reset and the invariants: 10_state.md, 70_reset_and_hazards.md -/

/-- R350: what reset leaves, for every choice of the parameters. (What an unwritten ring entry or the frame
buffer holds is unspecified by the rule and not stated here.) The interval is 10_state.md R34's 1000 µs where
`V_MIN_SPS` is 500.0 and the timer holds it. -/
def Obligations.ResetState : Prop :=
  State.reset = State.resetWith Config.current ∧
  ∀ c : Config,
    let s := State.resetWith c
    s.cfg = c ∧
    (∀ a, s.axis.get a =
      { enabled := false, direction := .forward, remainingSteps := 0#32,
        stepIntervalUs := halfPeriod binary32 c c.vMinSps 1#32, pendingIntervalUs := none,
        trapezoidEnabled := c.resetTrapezoid, currentSpeedSps := 0#32,
        targetSpeedSps := c.resetTargetSps, accelerationSps2 := 0#32, plan := none,
        stepLevel := 0#1, dirOut := c.dirFwdLevel, enaOutN := 1#1 }) ∧
    (c.vMinSps = 0x43FA0000#32 → 1000 ≤ c.timerMaxUs.toNat →
      halfPeriod binary32 c c.vMinSps 1#32 = 1000#32) ∧
    (∀ a, s.timer.get a = 0#32) ∧
    (∀ a, (s.ch.get a).wr = 0 ∧ (s.ch.get a).full = false ∧ (s.ch.get a).avg = 0#32) ∧
    s.tbase = { nowMs := 0#32, lastSampleMs := 0#32, lastAvgMs := 0#32 } ∧
    s.parser.pstate = .idle ∧ s.parser.idx = 0 ∧ s.txq = [] ∧ s.dropLog = []

/-- The invariant and the legal speeds hold after reset, whatever parameters meet R8's constraints; the parameters
the machine is reset with meet them. -/
def Obligations.ResetMeetsInvariant : Prop :=
  Config.current.wf = true ∧
  ∀ c : Config, c.wf = true →
    (State.resetWith c).Inv ∧ ∀ a, SpeedsOk ((State.resetWith c).axis.get a)

/-- Every step, from every state that meets it, keeps the invariant: legal intervals and counts, plans whose
phases sum to their total and whose progress matches the steps left, the parser's shape, the telemetry cadence,
timers never above their period, and a drop log that tells the truth. -/
def Obligations.StepKeepsInvariant : Prop :=
  ∀ s t : State, s.Inv → step s = .next t → t.Inv

/-- Every step keeps the speeds legal (R37, R38): finite, not negative, the target positive. No operation makes a
NaN of a speed, whatever the parameters. -/
def Obligations.StepKeepsSpeedsLegal : Prop :=
  ∀ s t : State, s.Inv → (∀ a, SpeedsOk (s.axis.get a)) → step s = .next t →
    ∀ a, SpeedsOk (t.axis.get a)

/-- The block never stops (60_exceptions.md R311, R324; 42_protocol.md R249): from a state that meets the invariant a
step always gives a next state. (That the model stops at all, on a frame offset R82 says is never formed, is the
model's choice, log entry 23.) -/
def Obligations.StepNeverStops : Prop :=
  ∀ s : State, s.Inv → ∃ t, step s = .next t

/-- The parameters are read-only (10_state.md R55, 70_reset_and_hazards.md R353), the full flags and the drop log
are cleared by nothing but reset (R352): no step changes a parameter, clears a full flag or removes a drop. -/
def Obligations.NothingButResetClears : Prop :=
  ∀ s t : State, step s = .next t →
    t.cfg = s.cfg ∧ s.dropLog <+: t.dropLog ∧
    ∀ a, (s.ch.get a).full = true → (t.ch.get a).full = true

/-! ## The commands: 42_protocol.md -/

/-- R231 with R232 (trapezoid mode on) and R233 (off): START in every state, for every step count a frame
carries; the rest of the state is unchanged. -/
def Obligations.StartEffect : Prop :=
  ∀ (a : AxisId) (n : Nat) (s : State), n ≤ 999999 →
    let c := s.cfg
    let ax := s.axis.get a
    let lineAtStart := if ax.direction = .forward then c.dirFwdLevel else 1#1 - c.dirFwdLevel
    let line := match c.dirUpdate with | .atStart => lineAtStart | .immediate => ax.dirOut
    let acc := Binary32.mul (Binary32.sub ax.targetSpeedSps c.vMinSps) (Binary32.ofInt 5)
    let mag := Binary32.max (Binary32.abs acc) c.aMinSps2
    ∃ t, exec (.start a n) s = .next t ∧
      SameElsewhere s t ∧ t.txq = s.txq ∧ t.dropLog = s.dropLog ∧
      t.timer = s.timer.set a 0#32 ∧ (∀ b, b ≠ a → t.axis.get b = s.axis.get b) ∧
      (ax.trapezoidEnabled = true → t.axis.get a =
        { ax with
          enabled := true, remainingSteps := BitVec.ofNat 32 n, dirOut := line,
          currentSpeedSps := c.vMinSps, accelerationSps2 := acc,
          plan := if n = 0 then none
            else some (plan binary32 c.vMinSps ax.targetSpeedSps c.vMinSps mag (BitVec.ofNat 32 n)),
          stepIntervalUs := halfPeriod binary32 c c.vMinSps ax.stepIntervalUs,
          pendingIntervalUs := none }) ∧
      (ax.trapezoidEnabled = false → t.axis.get a =
        { ax with
          enabled := true, remainingSteps := BitVec.ofNat 32 n, dirOut := line, plan := none,
          stepIntervalUs := ax.pendingIntervalUs.getD ax.stepIntervalUs,
          pendingIntervalUs := none })

/-- R234: STOP changes four fields of its axis and nothing else; a second STOP changes nothing. -/
def Obligations.StopEffect : Prop :=
  ∀ (a : AxisId) (v w : Nat) (s : State),
    ∃ t, exec (.stop a v) s = .next t ∧ OnlyAxis a s t ∧
      t.axis.get a =
        { s.axis.get a with
          enabled := false, remainingSteps := 0#32, currentSpeedSps := 0#32, plan := none } ∧
      exec (.stop a w) t = .next t

/-- R235, R236: FWD and REV write the direction bit; the direction line follows at once only under
`DIR_UPDATE = IMMEDIATE`. -/
def Obligations.DirectionEffect : Prop :=
  ∀ (a : AxisId) (v : Nat) (s : State),
    let ax := s.axis.get a
    let line (level : Bit) := match s.cfg.dirUpdate with | .atStart => ax.dirOut | .immediate => level
    (∃ t, exec (.fwd a v) s = .next t ∧ OnlyAxis a s t ∧
      t.axis.get a = { ax with direction := .forward, dirOut := line s.cfg.dirFwdLevel }) ∧
    (∃ t, exec (.rev a v) s = .next t ∧ OnlyAxis a s t ∧
      t.axis.get a = { ax with direction := .reverse, dirOut := line (1#1 - s.cfg.dirFwdLevel) })

/-- R237, with R238 (trapezoid mode on), R239 (off) and the conversion R250: SPEED in every state. Value 0
changes nothing but the drop log. -/
def Obligations.SpeedEffect : Prop :=
  ∀ (a : AxisId) (rpm : Nat) (s : State),
    let c := s.cfg
    let ax := s.axis.get a
    let v := Binary32.div (Binary32.mul (Binary32.ofInt rpm) (Binary32.ofInt c.stepsPerRev))
      (Binary32.ofInt 60)
    (c.stepsPerRev = 200 → rpm = 300 → v = 0x447A0000#32) ∧
    (c.stepsPerRev = 200 → rpm = 150 → v = 0x43FA0000#32) ∧
    (rpm = 0 → exec (.speed a rpm) s =
      .next { s with dropLog := s.dropLog ++ [{ cause := .badValue, frame := s.parser.buf }] }) ∧
    (0 < rpm → ∃ t, exec (.speed a rpm) s = .next t ∧ OnlyAxis a s t ∧
      (ax.trapezoidEnabled = true → t.axis.get a =
        { ax with
          targetSpeedSps := v,
          accelerationSps2 := Binary32.mul (Binary32.sub v ax.currentSpeedSps) (Binary32.ofInt 5),
          plan := if c.vClearsPlan = true then none else ax.plan }) ∧
      (ax.trapezoidEnabled = false → t.axis.get a =
        { ax with
          targetSpeedSps := v, currentSpeedSps := v,
          pendingIntervalUs := some (halfPeriod binary32 c v ax.stepIntervalUs) }))

/-- R240, R241: ENA drives the excitation line to 0, DIS to 1, and nothing else changes. -/
def Obligations.ExcitationEffect : Prop :=
  ∀ (a : AxisId) (v : Nat) (s : State),
    (∃ t, exec (.ena a v) s = .next t ∧ OnlyAxis a s t ∧
      t.axis.get a = { s.axis.get a with enaOutN := 0#1 }) ∧
    (∃ t, exec (.dis a v) s = .next t ∧ OnlyAxis a s t ∧
      t.axis.get a = { s.axis.get a with enaOutN := 1#1 })

/-- R242 (`A_MODE = FLIP`): TRAP inverts the mode; switching off collapses the speed, queues the interval and
clears the plan; switching on changes nothing else. -/
def Obligations.TrapFlipEffect : Prop :=
  ∀ (a : AxisId) (v : Nat) (s : State), s.cfg.aMode = .flip →
    let ax := s.axis.get a
    ∃ t, exec (.trap a v) s = .next t ∧ OnlyAxis a s t ∧
      (ax.trapezoidEnabled = true → t.axis.get a =
        { ax with
          trapezoidEnabled := false, currentSpeedSps := ax.targetSpeedSps,
          pendingIntervalUs := some (halfPeriod binary32 s.cfg ax.targetSpeedSps ax.stepIntervalUs),
          plan := none }) ∧
      (ax.trapezoidEnabled = false → t.axis.get a = { ax with trapezoidEnabled := true })

/-- R243 (`A_MODE = BY_VALUE`): value 0 requests off, any other on; a request equal to the present mode changes
nothing, one that differs does what FLIP does for that switch. -/
def Obligations.TrapByValueEffect : Prop :=
  ∀ (a : AxisId) (v : Nat) (s : State), s.cfg.aMode = .byValue →
    let ax := s.axis.get a
    let requested : Bool := decide (v ≠ 0)
    ∃ t, exec (.trap a v) s = .next t ∧ OnlyAxis a s t ∧
      (ax.trapezoidEnabled = requested → t = s) ∧
      (ax.trapezoidEnabled = true → requested = false → t.axis.get a =
        { ax with
          trapezoidEnabled := false, currentSpeedSps := ax.targetSpeedSps,
          pendingIntervalUs := some (halfPeriod binary32 s.cfg ax.targetSpeedSps ax.stepIntervalUs),
          plan := none }) ∧
      (ax.trapezoidEnabled = false → requested = true →
        t.axis.get a = { ax with trapezoidEnabled := true })

/-- QCUR as R244 has it, with the selector of the instruction's axis in place of `buf[1]` (log entry 20): it queues a
reply with the cached average of its axis, and nothing else changes. -/
def Obligations.QueryCurrentEffect : Prop :=
  ∀ (a : AxisId) (v : Nat) (s : State),
    exec (.qcur a v) s =
      .next { s with
        txq := s.txq ++ replyFrame (BitVec.ofNat 8 (0x31 + a.index)) (s.ch.get a).avg.toInt }

/-- QROT as R245 has it, with the selector of the instruction's axis in place of `buf[1]` (log entry 20): it queues a
reply with the rotation value on its axis's input port; without `HAS_X` the frame is dropped with `BAD_ACTION`. -/
def Obligations.QueryRotationEffect : Prop :=
  ∀ (a : AxisId) (v : Nat) (s : State),
    (s.cfg.hasX = true → exec (.qrot a v) s =
      .next { s with
        txq := s.txq ++ replyFrame (BitVec.ofNat 8 (0x31 + a.index)) (s.rpmIn.get a).toInt }) ∧
    (s.cfg.hasX = false → exec (.qrot a v) s =
      .next { s with dropLog := s.dropLog ++ [{ cause := .badAction, frame := s.parser.buf }] })

/-- R244, R245 at the step that takes a query's last byte: the reply carries `buf[1]`, and the cached average or the
rotation value on the port; nothing else changes. Without `HAS_X` a frame with `X` that passes the earlier checks is
dropped with `BAD_ACTION`. -/
def Obligations.QueryFrameReplies : Prop :=
  ∀ (s : State) (b : Byte) (rest : List Event), s.agenda = .host (.rx b) :: rest →
    s.parser.pstate = .accum → s.parser.idx.val = 10 →
    let buf := s.parser.buf.set 10 b
    let s' := { s with agenda := rest, parser := { pstate := .idle, buf := buf, idx := 0 } }
    (∀ a v, decode s.cfg.hasX buf = .cmd (.qcur a v) →
      step s = .next { s' with txq := s.txq ++ replyFrame buf[1] (s.ch.get a).avg.toInt }) ∧
    (∀ a v, decode s.cfg.hasX buf = .cmd (.qrot a v) →
      step s = .next { s' with txq := s.txq ++ replyFrame buf[1] (s.rpmIn.get a).toInt }) ∧
    (s.cfg.hasX = false → buf[0] = stx → buf[10] = etx → buf[9] = cks buf →
      buf[1] ∈ [0x31#8, 0x32#8, 0x33#8] → buf[2] = 0x58#8 →
      step s = .next { s' with dropLog := s.dropLog ++ [{ cause := .badAction, frame := buf }] })

/-- R246, for every step: the step that takes the last byte of a `C` or `X` frame appends ten bytes to the reply
queue; any other step leaves the queue as it is, or the host takes its first byte. -/
def Obligations.RepliesOnlyFromQueries : Prop :=
  ∀ s t : State, step s = .next t →
    let takesLastByte := s.parser.pstate = .accum ∧ s.parser.idx.val = 10 ∧ t.parser.pstate = .idle
    let isQuery := ∃ a v, decode s.cfg.hasX t.parser.buf = .cmd (.qcur a v) ∨
      decode s.cfg.hasX t.parser.buf = .cmd (.qrot a v)
    (takesLastByte → isQuery → ∃ r : List Byte, r.length = 10 ∧ t.txq = s.txq ++ r) ∧
    (takesLastByte → ¬isQuery → t.txq = s.txq) ∧
    (¬takesLastByte → t.txq = s.txq ∨ (t.txq = s.txq.tail ∧ t.parser = s.parser))

/-- 10_state.md R52, the command column, with R32 and R36 to R43: a command that changes a field of an axis is
one of that field's writers and names that axis. -/
def Obligations.CommandsWriteOnlyTheirFields : Prop :=
  ∀ (i : Instr) (s t : State) (b : AxisId), exec i s = .next t →
    let x := s.axis.get b
    let y := t.axis.get b
    (y.enabled ≠ x.enabled → ∃ v, i = .start b v ∨ i = .stop b v) ∧
    (y.remainingSteps ≠ x.remainingSteps → ∃ v, i = .start b v ∨ i = .stop b v) ∧
    (y.stepIntervalUs ≠ x.stepIntervalUs → ∃ v, i = .start b v) ∧
    (y.pendingIntervalUs ≠ x.pendingIntervalUs →
      (∃ v, i = .start b v ∧ y.pendingIntervalUs = none) ∨ ∃ v, i = .speed b v ∨ i = .trap b v) ∧
    (y.currentSpeedSps ≠ x.currentSpeedSps →
      ∃ v, i = .start b v ∨ i = .stop b v ∨ i = .speed b v ∨ i = .trap b v) ∧
    (y.plan ≠ x.plan → (∃ v, i = .start b v) ∨
      (y.plan = none ∧ ∃ v, i = .stop b v ∨ i = .speed b v ∨ i = .trap b v)) ∧
    (y.direction ≠ x.direction → ∃ v, i = .fwd b v ∨ i = .rev b v) ∧
    (y.targetSpeedSps ≠ x.targetSpeedSps → ∃ v, i = .speed b v) ∧
    (y.accelerationSps2 ≠ x.accelerationSps2 → ∃ v, i = .start b v ∨ i = .speed b v) ∧
    (y.trapezoidEnabled ≠ x.trapezoidEnabled → ∃ v, i = .trap b v) ∧
    (y.dirOut ≠ x.dirOut → ∃ v, i = .start b v ∨ i = .fwd b v ∨ i = .rev b v) ∧
    (y.enaOutN ≠ x.enaOutN → ∃ v, i = .ena b v ∨ i = .dis b v) ∧
    y.stepLevel = x.stepLevel

/-- 20_memory.md R92 for the commands: a command writes its own axis (record and timer), the reply queue and the
drop log, and reads of the axes only its own: the record it leaves is the same in any two states that agree on
the parameters and on that axis. -/
def Obligations.CommandsAreAxisLocal : Prop :=
  ∀ (i : Instr) (s t : State), exec i s = .next t →
    SameElsewhere s t ∧ s.txq <+: t.txq ∧ s.dropLog <+: t.dropLog ∧
    (∀ b, b ≠ i.axis → t.axis.get b = s.axis.get b ∧ t.timer.get b = s.timer.get b) ∧
    ∀ s' t' : State, exec i s' = .next t' → s'.cfg = s.cfg →
      s'.axis.get i.axis = s.axis.get i.axis → t'.axis.get i.axis = t.axis.get i.axis

/-! ## The parser and the step: 42_protocol.md section 1 -/

/-- R221 and R222, for every byte: in `IDLE` only STX begins a frame and any other byte is discarded; in `ACCUM`,
before the eleventh byte, every byte is taken. -/
def Obligations.ParserTakesBytes : Prop :=
  ∀ (s : State) (b : Byte) (rest : List Event), s.agenda = .host (.rx b) :: rest →
    (s.parser.pstate = .idle → b = 0x02#8 → step s = .next { s with
      agenda := rest, parser := { pstate := .accum, buf := s.parser.buf.set 0 b, idx := 1 } }) ∧
    (s.parser.pstate = .idle → b ≠ 0x02#8 → step s = .next { s with agenda := rest }) ∧
    (∀ (k : Fin 12) (h : k.val < 10), s.parser.pstate = .accum → s.parser.idx = k →
      step s = .next { s with
        agenda := rest,
        parser := { pstate := .accum, buf := s.parser.buf.set k.val b, idx := ⟨k.val + 1, by omega⟩ } })

/-- R223: the step that takes the eleventh byte runs the instruction the eleven bytes decode to, on the state with
the parser back in `IDLE`; where they decode to a drop, that state gains the drop and nothing else. -/
def Obligations.StepRunsDecodedInstruction : Prop :=
  ∀ (s : State) (b : Byte) (rest : List Event), s.agenda = .host (.rx b) :: rest →
    s.parser.pstate = .accum → s.parser.idx.val = 10 →
    let buf := s.parser.buf.set 10 b
    let s' := { s with agenda := rest, parser := { pstate := .idle, buf := buf, idx := 0 } }
    (∀ i, decode s.cfg.hasX buf = .cmd i → step s = exec i s') ∧
    (∀ cause, decode s.cfg.hasX buf = .drop cause →
      step s = .next { s' with dropLog := s.dropLog ++ [{ cause := cause, frame := buf }] })

/-- R221 to R223 together: from `IDLE`, the eleven bytes of any well-formed instruction, taken one a step, run that
instruction, whatever the buffer held; nothing else happens in the eleven steps. -/
def Obligations.ElevenBytesRunTheInstruction : Prop :=
  ∀ (i : Instr) (s : State) (rest : List Event), i.wf s.cfg.hasX = true → s.parser.pstate = .idle →
    s.agenda = (encode i).toList.map (fun b => .host (.rx b)) ++ rest →
    Host.Core.run Sys2Proof.core 11 s =
      exec i { s with agenda := rest, parser := { pstate := .idle, buf := encode i, idx := 0 } }

/-- An instruction placed by `withFetchWord` (the model's own way to place one, log entries 17 and 18) is the one the
next step runs: the decoder's reading of the same word,
on the state with the parser back in `IDLE`. The premise says the state's block has the option `HAS_X` as the
word decoder reads it. -/
def Obligations.FetchedWordRunsNext : Prop :=
  ∀ (s : State) (nbits w : Nat) (i : Instr), s.cfg.hasX = Config.current.hasX →
    decodeTableWord nbits w = some i →
    step (s.withFetchWord nbits w) =
      exec i { s with parser := { pstate := .idle, buf := frameOfWord nbits w, idx := 0 } }

/-- R248: TX_POP removes the oldest reply byte; when there is none, of which the rule does not speak, it changes
nothing (log entry 24). -/
def Obligations.TxPopTakesOldest : Prop :=
  ∀ (s : State) (rest : List Event), s.agenda = .host .txPop :: rest →
    (∀ b q, s.txq = b :: q → step s = .next { s with agenda := rest, txq := q }) ∧
    (s.txq = [] → step s = .next { s with agenda := rest })

/-! ## The step scheduler: 41_scheduler.md -/

/-- R186 and 20_memory.md R92: a tick of axis `a` writes axis `a`'s record and nothing else but its timer's count,
and reads only that record and the parameters; on a disabled axis the record is unchanged (R180). The count, of the
timed refinement (10_state.md R44, 60_exceptions.md R320 a), is set to 0 by a tick from the agenda too (log entry
22). -/
def Obligations.TickIsAxisLocal : Prop :=
  ∀ (s : State) (a : AxisId) (rest : List Event), s.agenda = .schedTick a :: rest →
    step s = .next { s with
      agenda := rest, axis := s.axis.set a (schedTick binary32 s.cfg (s.axis.get a)),
      timer := s.timer.set a 0#32 } ∧
    ((s.axis.get a).enabled = false →
      step s = .next { s with agenda := rest, timer := s.timer.set a 0#32 })

/-- R187, R188: an enabled axis's tick flips the line; a falling edge changes no count; a rising edge of bounded
motion takes one step off, and one onto the plan's progress, or, at the last step, disables the axis and clears
the plan with speed and direction kept; a rising edge of unbounded motion counts nothing. -/
def Obligations.RisingEdgeAccounting : Prop :=
  ∀ (c : Config) (x : Axis), x.enabled = true →
    let y := schedTick binary32 c x
    (x.stepLevel = 1#1 → y.stepLevel = 0#1 ∧ y.remainingSteps = x.remainingSteps ∧ y.plan = x.plan ∧
      y.enabled = true ∧ y.pendingIntervalUs = x.pendingIntervalUs) ∧
    (x.stepLevel = 0#1 → y.stepLevel = 1#1 ∧ y.pendingIntervalUs = none ∧
      (x.remainingSteps = 0#32 → y.remainingSteps = 0#32 ∧ y.plan = x.plan ∧ y.enabled = true) ∧
      (x.remainingSteps = 1#32 → y.remainingSteps = 0#32 ∧ y.plan = none ∧ y.enabled = false ∧
        y.currentSpeedSps = x.currentSpeedSps ∧
        y.stepIntervalUs = x.pendingIntervalUs.getD x.stepIntervalUs) ∧
      (1 < x.remainingSteps.toNat →
        y.remainingSteps.toNat = x.remainingSteps.toNat - 1 ∧ y.enabled = true ∧
        y.plan = x.plan.map fun p => { p with stepsDone := p.stepsDone + 1#32 })) ∧
    y.direction = x.direction ∧ y.targetSpeedSps = x.targetSpeedSps ∧
    y.accelerationSps2 = x.accelerationSps2 ∧ y.trapezoidEnabled = x.trapezoidEnabled ∧
    y.dirOut = x.dirOut ∧ y.enaOutN = x.enaOutN

/-- R191: with trapezoid mode off a tick changes the interval only by applying a pending one on a rising edge (and,
by line 11 of R186, leaves the speed alone); with it on and the axis still enabled, the interval becomes the
half-period of the new speed, converted from the interval after any pending application. -/
def Obligations.IntervalAfterTick : Prop :=
  ∀ (c : Config) (x : Axis), x.enabled = true →
    let y := schedTick binary32 c x
    let applied := if x.stepLevel = 0#1 then x.pendingIntervalUs.getD x.stepIntervalUs
      else x.stepIntervalUs
    (x.trapezoidEnabled = false → y.currentSpeedSps = x.currentSpeedSps ∧ y.stepIntervalUs = applied) ∧
    (x.trapezoidEnabled = true → y.enabled = true →
      y.stepIntervalUs = halfPeriod binary32 c y.currentSpeedSps applied)

/-- R190 with R183, every operation written out (R182, R184, R185; lines 11 to 28 of R186): the speed a tick gives an
axis in trapezoid mode that stays enabled. The step `d` uses the interval after any pending application, `rem` and
`done` are the counts after the tick's own step; `rem = 0` is unbounded motion. -/
def Obligations.SpeedAfterTick : Prop :=
  ∀ (c : Config) (x : Axis), x.enabled = true → x.trapezoidEnabled = true →
    let y := schedTick binary32 c x
    y.enabled = true →
    let cur := x.currentSpeedSps
    let goal := x.targetSpeedSps
    let rising : Bool := decide (x.stepLevel = 0#1)
    let counts : Bool := rising && decide (x.remainingSteps ≠ 0#32)
    let interval := if rising then x.pendingIntervalUs.getD x.stepIntervalUs else x.stepIntervalUs
    let rem := if counts then x.remainingSteps - 1#32 else x.remainingSteps
    let mag := Binary32.max (Binary32.abs x.accelerationSps2) c.aMinSps2
    let dtUs := Binary32.div (Binary32.ofInt interval.toNat) (Binary32.ofInt c.dtDivisor)
    let d := Binary32.div (Binary32.mul mag dtUs) (Binary32.ofInt 1000000)
    let toTarget :=
      if Binary32.lt cur goal then Binary32.min goal (Binary32.add cur d)
      else if Binary32.lt goal cur then Binary32.max goal (Binary32.sub cur d) else cur
    let slower :=
      if Binary32.lt c.vMinSps cur then Binary32.max c.vMinSps (Binary32.sub cur d) else cur
    let stop := Binary32.div (Binary32.mul cur cur) (Binary32.mul (Binary32.ofInt 2) mag)
    (rem = 0#32 → y.currentSpeedSps = toTarget) ∧
    (rem ≠ 0#32 → ∀ p, x.plan = some p →
      let done := (if counts then p.stepsDone + 1#32 else p.stepsDone).toNat
      let peak := p.peakSpeedSps
      (done < p.accelSteps.toNat → y.currentSpeedSps =
        if Binary32.lt cur peak then Binary32.min peak (Binary32.add cur d) else cur) ∧
      (p.accelSteps.toNat ≤ done → done < p.accelSteps.toNat + p.cruiseSteps.toNat →
        y.currentSpeedSps = peak) ∧
      (p.accelSteps.toNat + p.cruiseSteps.toNat ≤ done → y.currentSpeedSps = slower)) ∧
    (rem ≠ 0#32 → x.plan = none →
      y.currentSpeedSps =
        if Binary32.le (Binary32.ofInt rem.toNat) stop then slower else toTarget)

/-- What R187 derives from R186: a move of `n` steps ends at the `2n-1`-th tick when it starts with the line low and at the `2n`-th when
it starts with the line high; until then the axis is enabled, from then on it is disabled with no steps left and
ticks change nothing, and exactly `n` rising edges are produced. -/
def Obligations.BoundedMoveEndsOnTime : Prop :=
  ∀ (c : Config) (x : Axis) (n : Nat), x.enabled = true → x.remainingSteps.toNat = n → 0 < n →
    let after (k : Nat) : Axis := (schedTick binary32 c)^[k] x
    let last := if x.stepLevel = 0#1 then 2 * n - 1 else 2 * n
    (∀ k, k < last → (after k).enabled = true) ∧
    (∀ k, last ≤ k → after k = after last ∧ (after k).enabled = false ∧
      (after k).remainingSteps = 0#32 ∧ (after k).plan = none ∧ (after k).stepLevel = 1#1) ∧
    ((List.range last).filter fun k =>
      (after k).stepLevel == 0#1 && (after (k + 1)).stepLevel == 1#1).length = n

/-- 60_exceptions.md R323. After STOP the axis's ticks change nothing of its record, and a second STOP changes nothing;
no other command disables an enabled axis. Of all steps (a byte, a tick, the telemetry, a passing microsecond), one
that leaves an enabled axis disabled takes the last byte of a STOP of that axis, or is the tick that makes the last
step of a bounded move; one that gives unbounded motion an end takes the last byte of a START of that axis; and
however many ticks pass, unbounded motion goes on. -/
def Obligations.StopIsTheOnlyCancellation : Prop :=
  (∀ (a : AxisId) (v : Nat) (s t : State), exec (.stop a v) s = .next t →
    exec (.stop a v) t = .next t ∧
    ∀ k : Nat, (schedTick binary32 t.cfg)^[k] (t.axis.get a) = t.axis.get a) ∧
  (∀ (i : Instr) (a : AxisId) (s t : State), exec i s = .next t → (s.axis.get a).enabled = true →
    (t.axis.get a).enabled = false → ∃ v, i = .stop a v) ∧
  (∀ (s t : State) (a : AxisId), step s = .next t → (s.axis.get a).enabled = true →
    let x := s.axis.get a
    let y := t.axis.get a
    let runs (i : Instr) := s.parser.pstate = .accum ∧ s.parser.idx.val = 10 ∧ t.parser.pstate = .idle ∧
      decode s.cfg.hasX t.parser.buf = .cmd i
    (y.enabled = false → (∃ v, runs (.stop a v)) ∨
      (x.remainingSteps = 1#32 ∧ y.remainingSteps = 0#32 ∧ x.stepLevel = 0#1 ∧ y.stepLevel = 1#1)) ∧
    (x.remainingSteps = 0#32 → y.enabled = false → ∃ v, runs (.stop a v)) ∧
    (x.remainingSteps = 0#32 → y.remainingSteps ≠ 0#32 → ∃ n, runs (.start a n))) ∧
  (∀ (c : Config) (x : Axis) (k : Nat), x.enabled = true → x.remainingSteps = 0#32 →
    let y := (schedTick binary32 c)^[k] x
    y.enabled = true ∧ y.remainingSteps = 0#32)

/-- R184, R185: `towards` and `down` written out; and, for speeds that are finite and a step that is a number and not
negative, `towards` stays between the speed and the goal, and `down` never raises the speed nor takes it below
`V_MIN_SPS` from above. -/
def Obligations.RampsDoNotOvershoot : Prop :=
  ∀ (c : Config) (cur goal d : F32),
    towards binary32 cur goal d =
      (if Binary32.lt cur goal then Binary32.min goal (Binary32.add cur d)
       else if Binary32.lt goal cur then Binary32.max goal (Binary32.sub cur d) else cur) ∧
    down binary32 c cur d =
      (if Binary32.lt c.vMinSps cur then Binary32.max c.vMinSps (Binary32.sub cur d) else cur) ∧
    (F32.isFinite cur = true → F32.isFinite goal = true → F32.isFinite c.vMinSps = true →
      F32.isNaN d = false → 0 ≤ Binary32.units d →
      let u := Binary32.units
      (u cur ≤ u goal →
        u cur ≤ u (towards binary32 cur goal d) ∧ u (towards binary32 cur goal d) ≤ u goal) ∧
      (u goal ≤ u cur →
        u goal ≤ u (towards binary32 cur goal d) ∧ u (towards binary32 cur goal d) ≤ u cur) ∧
      u (down binary32 c cur d) ≤ u cur ∧
      (u c.vMinSps ≤ u cur → u c.vMinSps ≤ u (down binary32 c cur d)) ∧
      (u cur ≤ u c.vMinSps → down binary32 c cur d = cur))

/-- R190, the planned phases (lines 16 to 22 of R186): each phase's speed written out; and, for speeds that are finite
and a step that is a number and not negative, accelerate never lowers the speed and does not pass the peak, and
decelerate never raises the speed. -/
def Obligations.PlannedPhases : Prop :=
  ∀ (c : Config) (p : MotionPlan) (cur d : F32),
    let u := Binary32.units
    let v := plannedSpeed binary32 c p cur d
    let done := p.stepsDone.toNat
    let numbers := F32.isFinite cur = true ∧ F32.isFinite p.peakSpeedSps = true ∧
      F32.isFinite c.vMinSps = true ∧ F32.isNaN d = false ∧ 0 ≤ u d
    (done < p.accelSteps.toNat →
      v = (if Binary32.lt cur p.peakSpeedSps then Binary32.min p.peakSpeedSps (Binary32.add cur d)
        else cur) ∧
      (numbers → u cur ≤ u v ∧ (u cur ≤ u p.peakSpeedSps → u v ≤ u p.peakSpeedSps))) ∧
    (p.accelSteps.toNat ≤ done → done < p.accelSteps.toNat + p.cruiseSteps.toNat →
      v = p.peakSpeedSps) ∧
    (p.accelSteps.toNat + p.cruiseSteps.toNat ≤ done →
      v = (if Binary32.lt c.vMinSps cur then Binary32.max c.vMinSps (Binary32.sub cur d) else cur) ∧
      (numbers → u v ≤ u cur))

/-- R181: `H` keeps the old interval for a speed that is not positive, and otherwise gives the floor of
500000 / v held within `H_MIN_US..TIMER_MAX_US`; with the rule's examples. -/
def Obligations.HalfPeriodConversion : Prop :=
  ∀ (c : Config) (old : U32), 1 ≤ c.timerMaxUs.toNat →
    let H := fun v : F32 => halfPeriod binary32 c v old
    (∀ v : F32, Binary32.le v 0#32 = true → H v = old) ∧
    (∀ (v : F32) (k : Int), Binary32.le v 0#32 = false →
      Binary32.floor (Binary32.div 0x48F42400#32 v) = .int k →
      ((H v).toNat : Int) = min (c.timerMaxUs.toNat : Int) (max 1 k)) ∧
    (∀ v : F32, Binary32.le v 0#32 = false → IntervalOk c (H v)) ∧
    (1501 ≤ c.timerMaxUs.toNat →
      H 0x43FA0000#32 = 1000#32 ∧ H 0x43FB4000#32 = 995#32 ∧ H 0x447A0000#32 = 500#32 ∧
      H 0x43A68000#32 = 1501#32 ∧ H 0x49127C00#32 = 1#32) ∧
    (c.timerMaxUs.toNat < 166666 → H 0x40400000#32 = c.timerMaxUs)

/-! ## The arithmetic of speeds: 00_scope.md R11 -/

/-- R11, "rounded to nearest, ties to even": of all finite binary32 magnitudes none is nearer to `num / den` units
than the one rounding gives, and where another is as near, the one given has an even last bit. -/
def Obligations.RoundingIsNearestEven : Prop :=
  ∀ (num den b : Nat), 0 < den → Binary32.roundMag num den < F32.infBits → b < F32.infBits →
    let r := Binary32.roundMag num den
    let far (m : Nat) : Nat := ((num : Int) - (Binary32.magUnits m * den : Nat)).natAbs
    far r ≤ far b ∧ (far b = far r → b ≠ r → r % 2 = 0)

/-- R11: each of the five operations, on finite operands with a result that is not zero or undefined, is the exact
result rounded once. In units of 2^-149: the sum and the difference exact, the product over 2^149, the quotient times
2^149; and the root's exact value is the real square root of 2^149 times the units: the result is positive and finite,
no finite magnitude is nearer to that real number, and where another is as near, the result's last bit is even. -/
def Obligations.OperationsRoundOnce : Prop :=
  ∀ x y : F32, F32.isFinite x = true → F32.isFinite y = true →
    let u := Binary32.units
    let m := fun z : F32 => Binary32.magUnits (F32.magBits z)
    (u x + u y ≠ 0 → Binary32.add x y =
      Binary32.pack (decide (u x + u y < 0)) (Binary32.roundMag (u x + u y).natAbs 1)) ∧
    (u x - u y ≠ 0 → Binary32.sub x y =
      Binary32.pack (decide (u x - u y < 0)) (Binary32.roundMag (u x - u y).natAbs 1)) ∧
    Binary32.mul x y =
      Binary32.pack (F32.sign x != F32.sign y) (Binary32.roundMag (m x * m y) (2 ^ 149)) ∧
    (m y ≠ 0 → Binary32.div x y =
      Binary32.pack (F32.sign x != F32.sign y) (Binary32.roundMag (m x * 2 ^ 149) (m y))) ∧
    (0 < u x →
      let exact := Real.sqrt ((m x : ℝ) * 2 ^ 149)
      let far (b : Nat) := |exact - (Binary32.magUnits b : ℝ)|
      let r := F32.magBits (Binary32.sqrt x)
      F32.sign (Binary32.sqrt x) = false ∧ r < F32.infBits ∧
      ∀ b : Nat, b < F32.infBits → far r ≤ far b ∧ (far b = far r → b ≠ r → r % 2 = 0))

/-! ## The planner: 40_planner.md -/

/-- R158, whose first sentence the spec derives from R153: for every five inputs, in either arithmetic, the three phases sum to the total exactly, the total is N,
no step is done, and every count is in 0..N. -/
def Obligations.PlanPhasesSumExactly : Prop :=
  ∀ (R : Type) (N : Numerics R) (v0 vT vE a : R) (n : U32),
    let p := plan N v0 vT vE a n
    p.accelSteps.toNat + p.cruiseSteps.toNat + p.decelSteps.toNat = p.totalSteps.toNat ∧
    p.totalSteps = n ∧ p.stepsDone = 0#32 ∧
    p.accelSteps.toNat ≤ n.toNat ∧ p.cruiseSteps.toNat ≤ n.toNat ∧ p.decelSteps.toNat ≤ n.toNat

/-- R154, R155, with every operation written out: the branch test compares the rounded step counts; the
trapezoidal branch has the target as peak and the remainder as cruise, the triangular one no cruise and the
remainder as deceleration. -/
def Obligations.PlanBranches : Prop :=
  ∀ (v0 vT vE a : F32) (n : U32),
    let twoA := Binary32.mul (Binary32.ofInt 2) a
    let distance (v u : F32) := Binary32.max (Binary32.ofInt 0)
      (Binary32.div (Binary32.sub (Binary32.mul v v) (Binary32.mul u u)) twoA)
    let A := rndSat binary32 (distance vT v0)
    let D := rndSat binary32 (distance vT vE)
    let root := Binary32.sqrt (Binary32.add (Binary32.mul a (Binary32.ofInt n.toNat))
      (Binary32.div (Binary32.add (Binary32.mul v0 v0) (Binary32.mul vE vE)) (Binary32.ofInt 2)))
    let peak := Binary32.max v0 (Binary32.min root vT)
    let p := plan binary32 v0 vT vE a n
    (A + D ≤ n.toNat → p.peakSpeedSps = vT ∧ p.accelSteps.toNat = A ∧ p.decelSteps.toNat = D ∧
      p.cruiseSteps.toNat = n.toNat - A - D) ∧
    (n.toNat < A + D → p.peakSpeedSps = peak ∧ p.cruiseSteps = 0#32 ∧
      p.accelSteps.toNat = min n.toNat (rndSat binary32 (distance peak v0)) ∧
      p.decelSteps.toNat = n.toNat - p.accelSteps.toNat)

/-- R161, the source's worked example: `PLAN(500, 2000, 500, 4000, 10000)`; and the acceleration the `M` command
would use for the same speeds is 7500. -/
def Obligations.PlanWorkedExample : Prop :=
  plan binary32 0x43FA0000#32 0x44FA0000#32 0x43FA0000#32 0x457A0000#32 10000#32 =
    { totalSteps := 10000#32, stepsDone := 0#32, accelSteps := 469#32, cruiseSteps := 9062#32,
      decelSteps := 469#32, peakSpeedSps := 0x44FA0000#32 } ∧
  rampAccel binary32 0x44FA0000#32 0x43FA0000#32 = 0x45EA6000#32

/-- What R157 derives from R153, in the real arithmetic of 00_scope.md R12 (log entry 9): with `vEnd = v0`, in the triangular branch, the limits of the
peak do not act: the peak is `sqrt(a·N + v0²)`, and it lies between `v0` and `vTarget`. -/
def Obligations.RealTrianglePeakWithinBounds : Prop :=
  ∀ (v0 vT a : ℝ) (n : U32), 0 < v0 → 0 < vT → 0 < a → 0 < n.toNat →
    let d := rndSat realNumerics (rampDistance realNumerics vT v0 (2 * a))
    n.toNat < d + d →
    let p := plan realNumerics v0 vT v0 a n
    p.peakSpeedSps = Real.sqrt (a * n.toNat + v0 * v0) ∧ v0 ≤ p.peakSpeedSps ∧ p.peakSpeedSps ≤ vT

/-- R160 (a), which the spec derives from R153, in the real arithmetic (log entry 9): a target at or below the start speed gives a move that is all cruise at the
target. -/
def Obligations.RealPlanBelowStartSpeed : Prop :=
  ∀ (v0 vT a : ℝ) (n : U32), 0 < vT → vT ≤ v0 → 0 < a →
    plan realNumerics v0 vT v0 a n =
      { totalSteps := n, stepsDone := 0#32, accelSteps := 0#32, cruiseSteps := n, decelSteps := 0#32,
        peakSpeedSps := vT }

/-! ## The telemetry unit: 43_telemetry.md -/

/-- R282: a raw sample's conversion, left to right in binary32, truncated toward zero and saturated; with the rule's
examples. -/
def Obligations.SampleConversion : Prop :=
  (∀ (c : Config) (r : Nat) (k : Int),
    let volts := Binary32.div (Binary32.mul (Binary32.ofInt r) c.adcVrefV) c.adcRes
    let amps := Binary32.div (Binary32.sub volts c.sensZeroV) c.sensVPerA
    Binary32.trunc (Binary32.mul amps (Binary32.ofInt 1000)) = .int k →
    sampleMilliamps binary32 c r = max (-2147483648) (min 2147483647 k)) ∧
  (∀ c : Config, c.adcVrefV = 0x40A00000#32 → c.adcRes = 0x44800000#32 → c.sensZeroV = 0x40200000#32 →
    c.sensVPerA = 0x3DCCCCCD#32 →
    sampleMilliamps binary32 c 512 = 0 ∧ sampleMilliamps binary32 c 532 = 976 ∧
    sampleMilliamps binary32 c 500 = -585)

/-- R281, R287: one `TELEM_TICK`. The ms count advances, wrapping; the three channels are sampled, each from its
own port (held within `ADC_MAX`, log entry 10), exactly when two ms have passed since the last sample, and then averaged exactly when a hundred have
passed since the last average, differences taken modulo 2^32; no other state changes. -/
def Obligations.TelemetryTick : Prop :=
  ∀ (s : State) (rest : List Event), s.agenda = .telemTick :: rest →
    let now := s.tbase.nowMs + 1#32
    let sampled : Bool := decide (2 ≤ (now - s.tbase.lastSampleMs).toNat)
    let averaged : Bool := decide (100 ≤ (now - s.tbase.lastAvgMs).toNat)
    let sample (a : AxisId) : I32 :=
      BitVec.ofInt 32 (sampleMilliamps binary32 s.cfg (Nat.min (s.adc.get a) s.cfg.adcMax))
    ∃ t, step s = .next t ∧
      t.tbase.nowMs = now ∧
      t.tbase.lastSampleMs = (if sampled then now else s.tbase.lastSampleMs) ∧
      t.tbase.lastAvgMs = (if averaged then now else s.tbase.lastAvgMs) ∧
      (∀ a, t.ch.get a =
        let afterSample := if sampled then pushSample (s.ch.get a) (sample a) else s.ch.get a
        if averaged then { afterSample with avg := afterSample.mean } else afterSample) ∧
      t.cfg = s.cfg ∧ t.axis = s.axis ∧ t.parser = s.parser ∧ t.txq = s.txq ∧ t.dropLog = s.dropLog ∧
      t.timer = s.timer ∧ t.adc = s.adc ∧ t.rpmIn = s.rpmIn ∧ t.agenda = rest ∧ t.t = s.t ∧
      t.arrivals = s.arrivals ∧ t.telemDue = s.telemDue

/-- R283: a sample is stored at the cursor, every other entry is unchanged, the cursor advances modulo 50, and the
ring is full once the cursor has wrapped, and stays so. From any channel, fifty samples fill the ring and bring the
cursor back to the oldest of them, and one more sample takes that one's place and leaves the other forty-nine. -/
def Obligations.RingWrite : Prop :=
  (∀ (c : Channel) (v : I32),
    let d := pushSample c v
    (∀ k : Fin 50, d.ring[k] = if k = c.wr then v else c.ring[k]) ∧
    d.wr.val = (c.wr.val + 1) % 50 ∧
    d.full = (c.full || decide (c.wr.val = 49)) ∧
    d.avg = c.avg) ∧
  (∀ (c : Channel) (l : List I32) (v : I32), l.length = 50 →
    let d := l.foldl pushSample c
    let e := pushSample d v
    let after (k : Nat) : Fin 50 := ⟨(d.wr.val + k) % 50, Nat.mod_lt _ (by decide)⟩
    d.full = true ∧ d.wr = c.wr ∧
    (∀ k : Nat, k < 50 → l[k]? = some d.ring[after k]) ∧
    e.full = true ∧ e.ring[after 0] = v ∧
    (∀ k : Nat, 1 ≤ k → k < 50 → l[k]? = some e.ring[after k]))

/-- R284: the average of a channel is 0 with no samples, else the exact sum of the valid entries (all 50 when full,
else those below the cursor) divided by their number and truncated toward zero; the quotient is never cut by the
32 bits that hold it. -/
def Obligations.AverageIsTruncatedMean : Prop :=
  ∀ c : Channel,
    let n := if c.full = true then 50 else c.wr.val
    let sum : Int := ∑ k : Fin 50, if k.val < n then c.ring[k].toInt else 0
    (n = 0 → c.mean = 0#32) ∧ (0 < n → c.mean.toInt = Int.tdiv sum n)

/-- 43_telemetry.md R283, R284 over a run of samples (the source's property SX-6): after reset, feeding fifty
samples leaves them as the window, and the average is their exact mean truncated; a fifty-first overwrites the
oldest. -/
def Obligations.FiftySamplesAverage : Prop :=
  ∀ (l : List I32) (v : I32), l.length = 50 →
    let c := l.foldl pushSample Channel.reset
    c.full = true ∧ c.ring.toList = l ∧
    c.mean.toInt = Int.tdiv (l.map BitVec.toInt).sum 50 ∧
    (pushSample c v).mean.toInt = Int.tdiv ((l.tail ++ [v]).map BitVec.toInt).sum 50

/-- R285, 60_exceptions.md R319: telemetry and stepping do not touch each other. A step that is no telemetry tick
leaves the channels and the time base as they are; a telemetry tick leaves the axes and their timers. -/
def Obligations.TelemetryAndMotionAreApart : Prop :=
  ∀ (s t : State) (e : Event), takeEvent e s = .next t →
    (e ≠ .telemTick → t.ch = s.ch ∧ t.tbase = s.tbase) ∧
    (e = .telemTick → t.axis = s.axis ∧ t.timer = s.timer ∧ t.txq = s.txq)

/-! ## The input ports: 00_scope.md R7 (e), 10_state.md R50 -/

/-- 00_scope.md R7 (e) and 10_state.md R50, the ports held in the state as log entry 10 says: the environment's event
sets one port of one axis and nothing else, an analog port then reads as the value held within `ADC_MAX`, and no
other event writes a port. -/
def Obligations.EnvironmentSetsPorts : Prop :=
  (∀ (s : State) (a : AxisId) (raw : Nat) (rest : List Event), s.agenda = .host (.setAdc a raw) :: rest →
    ∃ t, step s = .next t ∧ t = { s with agenda := rest, adc := t.adc } ∧
      t.adc.get a = raw ∧ t.adcIn a = min raw s.cfg.adcMax ∧ ∀ b, b ≠ a → t.adc.get b = s.adc.get b) ∧
  (∀ (s : State) (a : AxisId) (v : I32) (rest : List Event), s.agenda = .host (.setRpm a v) :: rest →
    ∃ t, step s = .next t ∧ t = { s with agenda := rest, rpmIn := t.rpmIn } ∧
      t.rpmIn.get a = v ∧ ∀ b, b ≠ a → t.rpmIn.get b = s.rpmIn.get b) ∧
  (∀ (s t : State) (e : Event), takeEvent e s = .next t →
    ((∀ a raw, e ≠ .host (.setAdc a raw)) → t.adc = s.adc) ∧
    ((∀ a v, e ≠ .host (.setRpm a v)) → t.rpmIn = s.rpmIn))

/-! ## The timed refinement: 60_exceptions.md R313, R320 -/

/-- R313, R320 (e), with the ports' changes ordered as bytes are (the model's choice, log entries 14, 15): with
nothing in the agenda, the events due at one time are taken in the fixed order: the ticks
of axes 0, 1, 2, then `TELEM_TICK`, then what the host sends, then what it takes. -/
def Obligations.TimedPriority : Prop :=
  ∀ s : State, s.agenda = [] →
    let due := fun a => (s.axis.get a).stepIntervalUs.toNat ≤ (s.timer.get a).toNat
    (due .axis0 → step s = takeEvent (.schedTick .axis0) s) ∧
    (¬due .axis0 → due .axis1 → step s = takeEvent (.schedTick .axis1) s) ∧
    (¬due .axis0 → ¬due .axis1 → due .axis2 → step s = takeEvent (.schedTick .axis2) s) ∧
    (¬due .axis0 → ¬due .axis1 → ¬due .axis2 → s.telemDue = true →
      step s = takeEvent .telemTick { s with telemDue := false }) ∧
    (¬due .axis0 → ¬due .axis1 → ¬due .axis2 → s.telemDue = false →
      (∀ pre x post, s.arrivals = pre ++ x :: post → x.time ≤ s.t → x.ev ≠ .txPop →
        (∀ y ∈ pre, s.t < y.time ∨ y.ev = .txPop) →
        step s = takeEvent (.host x.ev) { s with arrivals := pre ++ post }) ∧
      (∀ pre x post, s.arrivals = pre ++ x :: post → x.time ≤ s.t → x.ev = .txPop →
        (∀ y ∈ pre ++ post, y.time ≤ s.t → y.ev = .txPop) → (∀ y ∈ pre, s.t < y.time) →
        step s = takeEvent (.host .txPop) { s with arrivals := pre ++ post }))

/-- R320 (a), (c), at one µs a step (the model's choice, log entries 14, 16): time moves, by one µs, exactly when nothing is due; then every timer counts one and
`TELEM_TICK` falls due at the multiples of 1000; and a tick is taken exactly when its timer's count has reached the
period, never later. -/
def Obligations.TimeMovesWhenNothingIsDue : Prop :=
  ∀ s t : State, s.Inv → s.agenda = [] → step s = .next t →
    ((t.t = s.t + 1 ↔
      (∀ a, (s.timer.get a).toNat < (s.axis.get a).stepIntervalUs.toNat) ∧ s.telemDue = false ∧
      ∀ x ∈ s.arrivals, s.t < x.time)) ∧
    (t.t ≠ s.t + 1 → t.t = s.t) ∧
    (t.t = s.t + 1 → t.axis = s.axis ∧ t.ch = s.ch ∧ t.parser = s.parser ∧
      (∀ a, (t.timer.get a).toNat = (s.timer.get a).toNat + 1) ∧
      (t.telemDue = true ↔ t.t % 1000 = 0)) ∧
    (∀ a, s.tickDue a = true → s.timer.get a = (s.axis.get a).stepIntervalUs)

/-! ## `NUMERIC = REAL`: 00_scope.md R12 -/

/-- Derived from 00_scope.md section 6 (R12): under `REAL` every operation of R11 is the exact real one, the root the
real square root, `tof32` the identity, and the integer conversions the exact floor, truncation and `floor(x + 1/2)` (a
quotient by 0 and the root of a negative number are no real numbers: free, log entry 27); and each command is one
meaning over the two arithmetics. The last two clauses are the model's choice and no rule of the spec: that `NUMERIC`
is the parameter of `machineOf`, each value's machine running the step built from that value's operations and commands
(log entry 9, DESIGN CHOICE), and that the parameters `REAL` is reset with are the numbers that the binary32 ones are
(log entry 28, DEDUCED). -/
def Obligations.RealOperationsAreExact : Prop :=
  (∀ (x y : ℝ) (n : Int),
    let N := realNumerics
    N.add x y = x + y ∧ N.sub x y = x - y ∧ N.mul x y = x * y ∧ (y ≠ 0 → N.div x y = x / y) ∧
    (0 ≤ x → N.sqrt x = Real.sqrt x) ∧ N.abs x = |x| ∧ N.min x y = min x y ∧ N.max x y = max x y ∧ N.ofInt n = (n : ℝ) ∧
    (N.lt x y = true ↔ x < y) ∧ (N.le x y = true ↔ x ≤ y) ∧
    N.floor x = .int ⌊x⌋ ∧ N.rnd x = .int ⌊x + 1 / 2⌋ ∧
    (0 ≤ x → N.trunc x = .int ⌊x⌋) ∧ (x < 0 → N.trunc x = .int ⌈x⌉)) ∧
  (∀ (i : Instr) (s : State) (r : State ℝ),
    let meaning (R : Type) (N : Numerics R) (q : State R) : State R :=
      match i with
      | .start a n => q.start N a n
      | .stop a _ => q.stop N a
      | .fwd a _ => q.setDirection a .forward
      | .rev a _ => q.setDirection a .reverse
      | .speed a rpm => q.speed N a rpm
      | .ena a _ => q.setExcitation a 0#1
      | .dis a _ => q.setExcitation a 1#1
      | .trap a v => q.trap N a v
      | .qcur a _ => q.queryCurrent a
      | .qrot a _ => q.queryRotation a
    exec i s = .next (meaning F32 binary32 s) ∧ execReal i r = .next (meaning ℝ realNumerics r)) ∧
  machineOf .binary32 =
    { State := State, Fault := Fault, Refusal := Refusal,
      step := Build.nextStep { numerics := binary32, exec := exec },
      reset := State.resetOf binary32 Config.current } ∧
  machineOf .real =
    { State := State ℝ, Fault := Fault, Refusal := Refusal,
      step := Build.nextStep { numerics := realNumerics, exec := execReal },
      reset := State.resetOf realNumerics (realParams Config.current) }

/-- 42_protocol.md R223 under `REAL`: the step that takes the eleventh byte runs the instruction the eleven bytes
decode to, which gives a next state; where they decode to a drop, the state gains the drop and nothing else. -/
def Obligations.RealStepRunsDecodedInstruction : Prop :=
  ∀ (s : State ℝ) (b : Byte) (rest : List Event), s.agenda = .host (.rx b) :: rest →
    s.parser.pstate = .accum → s.parser.idx.val = 10 →
    let buf := s.parser.buf.set 10 b
    let s' := { s with agenda := rest, parser := { pstate := .idle, buf := buf, idx := 0 } }
    (∀ i, decode s.cfg.hasX buf = .cmd i →
      ∃ t, realStep s = .next t ∧ execReal i s' = .next t ∧ t.parser = s'.parser) ∧
    (∀ cause, decode s.cfg.hasX buf = .drop cause →
      realStep s = .next { s' with dropLog := s.dropLog ++ [{ cause := cause, frame := buf }] })

/-- The commands (42_protocol.md R231 to R245, R250), the half-period (41_scheduler.md R181) and the tick (R182 to R191)
in the exact arithmetic of R12, with every field and every part of the state they leave alone. The selector of a reply
is the instruction's axis's (log entry 20). -/
def Obligations.RealCommandsAndTicks : Prop :=
  (∀ (c : ConfigOf ℝ) (v : ℝ) (old : U32), 1 ≤ c.timerMaxUs.toNat →
    (v ≤ 0 → halfPeriod realNumerics c v old = old) ∧
    (0 < v → ((halfPeriod realNumerics c v old).toNat : Int) =
      min (c.timerMaxUs.toNat : Int) (max 1 ⌊500000 / v⌋))) ∧
  -- START
  (∀ (a : AxisId) (n : Nat) (s : State ℝ), n ≤ 999999 →
    let c := s.cfg
    let ax := s.axis.get a
    let lineAtStart := if ax.direction = .forward then c.dirFwdLevel else 1#1 - c.dirFwdLevel
    let line := match c.dirUpdate with | .atStart => lineAtStart | .immediate => ax.dirOut
    let acc : ℝ := (ax.targetSpeedSps - c.vMinSps) * 5
    ∃ t, execReal (.start a n) s = .next t ∧
      SameElsewhere s t ∧ t.txq = s.txq ∧ t.dropLog = s.dropLog ∧
      t.timer = s.timer.set a 0#32 ∧ (∀ b, b ≠ a → t.axis.get b = s.axis.get b) ∧
      (ax.trapezoidEnabled = true → t.axis.get a =
        { ax with
          enabled := true, remainingSteps := BitVec.ofNat 32 n, dirOut := line,
          currentSpeedSps := c.vMinSps, accelerationSps2 := acc,
          plan := if n = 0 then none
            else some (plan realNumerics c.vMinSps ax.targetSpeedSps c.vMinSps (max |acc| c.aMinSps2)
              (BitVec.ofNat 32 n)),
          stepIntervalUs := halfPeriod realNumerics c c.vMinSps ax.stepIntervalUs,
          pendingIntervalUs := none }) ∧
      (ax.trapezoidEnabled = false → t.axis.get a =
        { ax with
          enabled := true, remainingSteps := BitVec.ofNat 32 n, dirOut := line, plan := none,
          stepIntervalUs := ax.pendingIntervalUs.getD ax.stepIntervalUs, pendingIntervalUs := none })) ∧
  -- SPEED
  (∀ (a : AxisId) (rpm : Nat) (s : State ℝ),
    let ax := s.axis.get a
    let v : ℝ := (rpm : ℝ) * (s.cfg.stepsPerRev : ℝ) / 60
    (rpm = 0 → execReal (.speed a rpm) s =
      .next { s with dropLog := s.dropLog ++ [{ cause := .badValue, frame := s.parser.buf }] }) ∧
    (0 < rpm → ∃ t, execReal (.speed a rpm) s = .next t ∧ OnlyAxis a s t ∧
      (ax.trapezoidEnabled = true → t.axis.get a =
        { ax with
          targetSpeedSps := v, accelerationSps2 := (v - ax.currentSpeedSps) * 5,
          plan := if s.cfg.vClearsPlan = true then none else ax.plan }) ∧
      (ax.trapezoidEnabled = false → t.axis.get a =
        { ax with
          targetSpeedSps := v, currentSpeedSps := v,
          pendingIntervalUs := some (halfPeriod realNumerics s.cfg v ax.stepIntervalUs) }))) ∧
  -- STOP, FWD, REV, ENA, DIS, TRAP, QCUR, QROT
  (∀ (a : AxisId) (v : Nat) (s : State ℝ),
    let c := s.cfg
    let ax := s.axis.get a
    let changes (i : Instr) (x : AxisOf ℝ) := ∃ t, execReal i s = .next t ∧ OnlyAxis a s t ∧ t.axis.get a = x
    let line (level : Bit) := match c.dirUpdate with | .atStart => ax.dirOut | .immediate => level
    let requested : Bool := match c.aMode with | .flip => !ax.trapezoidEnabled | .byValue => decide (v ≠ 0)
    let reply (w : Int) := s.txq ++ replyFrame (BitVec.ofNat 8 (0x31 + a.index)) w
    changes (.stop a v)
      { ax with enabled := false, remainingSteps := 0#32, currentSpeedSps := 0, plan := none } ∧
    changes (.fwd a v) { ax with direction := .forward, dirOut := line c.dirFwdLevel } ∧
    changes (.rev a v) { ax with direction := .reverse, dirOut := line (1#1 - c.dirFwdLevel) } ∧
    changes (.ena a v) { ax with enaOutN := 0#1 } ∧
    changes (.dis a v) { ax with enaOutN := 1#1 } ∧
    (ax.trapezoidEnabled = requested → execReal (.trap a v) s = .next s) ∧
    (ax.trapezoidEnabled = true → requested = false → changes (.trap a v)
      { ax with
        trapezoidEnabled := false, currentSpeedSps := ax.targetSpeedSps, plan := none,
        pendingIntervalUs := some (halfPeriod realNumerics c ax.targetSpeedSps ax.stepIntervalUs) }) ∧
    (ax.trapezoidEnabled = false → requested = true →
      changes (.trap a v) { ax with trapezoidEnabled := true }) ∧
    execReal (.qcur a v) s = .next { s with txq := reply (s.ch.get a).avg.toInt } ∧
    (c.hasX = true → execReal (.qrot a v) s = .next { s with txq := reply (s.rpmIn.get a).toInt }) ∧
    (c.hasX = false → execReal (.qrot a v) s =
      .next { s with dropLog := s.dropLog ++ [{ cause := .badAction, frame := s.parser.buf }] })) ∧
  -- the tick: the counts and the mailbox, then the speed and the interval
  (∀ (c : ConfigOf ℝ) (x : AxisOf ℝ), (c.dtDivisor = 1 ∨ c.dtDivisor = 2) → 0 < c.aMinSps2 →
    let y := schedTick realNumerics c x
    let rising : Bool := decide (x.stepLevel = 0#1)
    let counts : Bool := rising && decide (x.remainingSteps ≠ 0#32)
    let last : Bool := rising && decide (x.remainingSteps = 1#32)
    let interval := if rising then x.pendingIntervalUs.getD x.stepIntervalUs else x.stepIntervalUs
    let rem := if counts then x.remainingSteps - 1#32 else x.remainingSteps
    let cur := x.currentSpeedSps
    let goal := x.targetSpeedSps
    let mag : ℝ := max |x.accelerationSps2| c.aMinSps2
    let d : ℝ := mag * ((interval.toNat : ℝ) / (c.dtDivisor : ℝ)) / 1000000
    let new := y.currentSpeedSps
    let toTarget := (cur < goal → new = min goal (cur + d)) ∧ (goal < cur → new = max goal (cur - d)) ∧
      (cur = goal → new = cur)
    let slower := (c.vMinSps < cur → new = max c.vMinSps (cur - d)) ∧ (cur ≤ c.vMinSps → new = cur)
    (x.enabled = false → y = x) ∧
    (x.enabled = true → y =
      { x with
        enabled := !last, stepLevel := ~~~x.stepLevel, remainingSteps := rem,
        pendingIntervalUs := if rising then none else x.pendingIntervalUs,
        plan := if last then none
          else if counts then x.plan.map fun p => { p with stepsDone := p.stepsDone + 1#32 } else x.plan,
        currentSpeedSps := new, stepIntervalUs := y.stepIntervalUs }) ∧
    (x.enabled = true → (x.trapezoidEnabled = false ∨ last = true) →
      new = cur ∧ y.stepIntervalUs = interval) ∧
    (x.enabled = true → x.trapezoidEnabled = true → last = false →
      y.stepIntervalUs = halfPeriod realNumerics c new interval ∧
      (rem = 0#32 → toTarget) ∧
      (rem ≠ 0#32 → ∀ p, x.plan = some p →
        let done := (if counts then p.stepsDone + 1#32 else p.stepsDone).toNat
        let peak := p.peakSpeedSps
        (done < p.accelSteps.toNat → (cur < peak → new = min peak (cur + d)) ∧ (peak ≤ cur → new = cur)) ∧
        (p.accelSteps.toNat ≤ done → done < p.accelSteps.toNat + p.cruiseSteps.toNat → new = peak) ∧
        (p.accelSteps.toNat + p.cruiseSteps.toNat ≤ done → slower)) ∧
      (rem ≠ 0#32 → x.plan = none →
        ((rem.toNat : ℝ) ≤ cur * cur / (2 * mag) → slower) ∧
        (cur * cur / (2 * mag) < (rem.toNat : ℝ) → toTarget))))

/-- Under `REAL` too every step gives a next state and keeps the invariant, from every state that meets it: the fields
that are no speeds as under `BINARY32`, and speeds that are not negative, targets and peaks that are positive. -/
def Obligations.RealStepKeepsInvariant : Prop :=
  ∀ s : State ℝ, s.RealInv → ∃ t, realStep s = .next t ∧ t.RealInv

/-- The invariant under `REAL` holds after reset, for the numbers that are any binary32 parameters meeting R8's
constraints (log entry 28), and for those the machine is reset with. -/
def Obligations.RealResetMeetsInvariant : Prop :=
  realReset.RealInv ∧
  ∀ c : Config, c.wf = true → (State.resetOf realNumerics (realParams c)).RealInv
end

