-- ==== Sys2Proof/Laws/Binary32.lean ====
section
/-! SUPPORT. The laws of the binary32 rounding: exact on representable values, monotone, at most half a unit
of the last place away; the larger and the smaller of two numbers; and the sign and magnitude of a packed pattern. -/

namespace Sys2Proof.Machine.Binary32

/-- `maxf` of two numbers is as large as the larger of them. -/
theorem units_max {x y : F32} (hx : x.isNaN = false) (hy : y.isNaN = false) :
    units (max x y) = Max.max (units x) (units y) := by
  simp only [max, lt, hx, hy]
  simp only [Bool.not_false, Bool.true_and, Bool.or_false, decide_eq_true_eq, if_neg Bool.false_ne_true]
  split <;> omega

/-- `minf` of two numbers is as small as the smaller of them. -/
theorem units_min {x y : F32} (hx : x.isNaN = false) (hy : y.isNaN = false) :
    units (min x y) = Min.min (units x) (units y) := by
  simp only [min, lt, hx, hy]
  simp only [Bool.not_false, Bool.true_and, Bool.or_false, decide_eq_true_eq, if_neg Bool.false_ne_true]
  split <;> omega

theorem nearestEven_bounds (num den : Nat) :
    num / den ≤ nearestEven num den ∧ nearestEven num den ≤ num / den + 1 := by
  unfold nearestEven
  simp only
  split <;> omega

theorem nearestEven_mul (q den : Nat) (h : 0 < den) : nearestEven (q * den) den = q := by
  simp [nearestEven, Nat.mul_div_cancel _ h]
  omega

theorem nearestEven_mono {m n den : Nat} (h : m ≤ n) : nearestEven m den ≤ nearestEven n den := by
  have hq : m / den ≤ n / den := Nat.div_le_div_right h
  rcases Nat.lt_or_ge (m / den) (n / den) with hlt | hge
  · have := (nearestEven_bounds m den).2
    have := (nearestEven_bounds n den).1
    omega
  · have heq : m / den = n / den := le_antisymm hq hge
    have hm := Nat.div_add_mod m den
    have hn := Nat.div_add_mod n den
    have hr : m % den ≤ n % den := by rw [heq] at hm; omega
    unfold nearestEven
    simp only [heq]
    split <;> split <;> omega

/-- The rounded integer is at most half away, and of two nearest ones the even one is taken. -/
theorem nearestEven_half (num den : Nat) (h : 0 < den) :
    2 * (nearestEven num den * den) ≤ 2 * num + den ∧ 2 * num ≤ 2 * (nearestEven num den * den) + den := by
  have hn := Nat.div_add_mod num den
  have hr := Nat.mod_lt num h
  unfold nearestEven
  simp only
  generalize num / den = q at *
  generalize num % den = r at *
  have hc : den * q = q * den := Nat.mul_comm _ _
  split
  · rw [Nat.add_mul]; omega
  · omega

theorem lt_pow_dropBits (q : Nat) : q < 2 ^ 24 * 2 ^ (Nat.log2 q - 23) := by
  have h : q < 2 ^ (Nat.log2 q + 1) := Nat.lt_log2_self
  refine lt_of_lt_of_le h ?_
  rw [← pow_add]
  exact Nat.pow_le_pow_right (by norm_num) (by omega)

theorem pow_dropBits_le (q : Nat) (h : 0 < Nat.log2 q - 23) : 2 ^ 23 * 2 ^ (Nat.log2 q - 23) ≤ q := by
  have hq : q ≠ 0 := by rintro rfl; simp at h
  refine le_trans ?_ (Nat.log2_self_le hq)
  rw [← pow_add]
  exact Nat.pow_le_pow_right (by norm_num) (by omega)

/-- The pattern before it is limited to infinity. -/
theorem rounded_mono {m n den : Nat} (h : m ≤ n) :
    dropBits m den * 2 ^ 23 + nearestEven m (den * 2 ^ dropBits m den) ≤
      dropBits n den * 2 ^ 23 + nearestEven n (den * 2 ^ dropBits n den) := by
  have hq : m / den ≤ n / den := Nat.div_le_div_right h
  have hs : dropBits m den ≤ dropBits n den := by
    unfold dropBits
    rw [Nat.log2_eq_log_two, Nat.log2_eq_log_two]
    have := Nat.log_mono_right (b := 2) hq
    omega
  rcases Nat.lt_or_ge (dropBits m den) (dropBits n den) with hlt | hge
  · have h1 := (nearestEven_bounds m (den * 2 ^ dropBits m den)).2
    have h2 := (nearestEven_bounds n (den * 2 ^ dropBits n den)).1
    rw [← Nat.div_div_eq_div_mul] at h1 h2
    have h3 : m / den / 2 ^ dropBits m den < 2 ^ 24 := by
      rw [Nat.div_lt_iff_lt_mul (by positivity)]
      exact lt_pow_dropBits _
    have h4 : 2 ^ 23 ≤ n / den / 2 ^ dropBits n den := by
      rw [Nat.le_div_iff_mul_le (by positivity)]
      exact pow_dropBits_le _ (by unfold dropBits at hlt; omega)
    omega
  · have heq : dropBits m den = dropBits n den := le_antisymm hs hge
    rw [heq]
    have := nearestEven_mono (den := den * 2 ^ dropBits n den) h
    omega

theorem roundMag_mono {m n den : Nat} (h : m ≤ n) : roundMag m den ≤ roundMag n den := by
  have := rounded_mono (den := den) h
  unfold roundMag
  simp only
  omega

theorem roundMag_le_inf (num den : Nat) : roundMag num den ≤ F32.infBits := by
  unfold roundMag
  simp only
  omega

/-- Rounding is exact on the value of every finite pattern. -/
theorem roundMag_magUnits {b : Nat} (h : b < F32.infBits) : roundMag (magUnits b) 1 = b := by
  unfold F32.infBits at h
  have key : dropBits (magUnits b) 1 * 2 ^ 23 +
      nearestEven (magUnits b) (1 * 2 ^ dropBits (magUnits b) 1) = b := by
    by_cases he : b / 2 ^ 23 = 0
    · have hm : magUnits b = b := by rw [magUnits, if_pos he]
      have hb : b < 2 ^ 23 := by omega
      have hlog : Nat.log2 b ≤ 23 := by
        by_cases h0 : b = 0
        · subst h0; simp
        · have := (Nat.log2_lt h0 (k := 23)).2 hb
          omega
      have hd : dropBits b 1 = 0 := by simp only [dropBits, Nat.div_one]; omega
      rw [hm, hd]
      have := nearestEven_mul b 1 (by norm_num)
      simpa using this
    · have hm : magUnits b = (2 ^ 23 + b % 2 ^ 23) * 2 ^ (b / 2 ^ 23 - 1) := by rw [magUnits, if_neg he]
      have hlo : 2 ^ 23 ≤ 2 ^ 23 + b % 2 ^ 23 := by omega
      have hhi : 2 ^ 23 + b % 2 ^ 23 < 2 ^ 24 := by omega
      have hlog : Nat.log2 (magUnits b) = 23 + (b / 2 ^ 23 - 1) := by
        rw [hm, Nat.log2_eq_iff (by positivity)]
        constructor
        · rw [pow_add]; exact Nat.mul_le_mul_right _ hlo
        · rw [show 23 + (b / 2 ^ 23 - 1) + 1 = 24 + (b / 2 ^ 23 - 1) by omega, pow_add]
          exact Nat.mul_lt_mul_of_pos_right hhi (by positivity)
      have hd : dropBits (magUnits b) 1 = b / 2 ^ 23 - 1 := by
        simp only [dropBits, Nat.div_one]; omega
      rw [hd, hm, Nat.one_mul, nearestEven_mul _ _ (by positivity)]
      omega
  unfold roundMag F32.infBits
  simp only [key]
  omega

theorem magUnits_mono {b c : Nat} (h : b ≤ c) : magUnits b ≤ magUnits c := by
  unfold magUnits
  by_cases hb : b / 2 ^ 23 = 0
  · by_cases hc : c / 2 ^ 23 = 0
    · simp only [hb, hc, if_true]; exact h
    · simp only [hb, hc, if_true, if_false]
      have h1 : 1 ≤ 2 ^ (c / 2 ^ 23 - 1) := Nat.one_le_two_pow
      calc b ≤ (2 ^ 23 + c % 2 ^ 23) * 1 := by omega
        _ ≤ _ := Nat.mul_le_mul_left _ h1
  · have hc : c / 2 ^ 23 ≠ 0 := by omega
    simp only [hb, hc, if_false]
    rcases Nat.lt_or_ge (b / 2 ^ 23) (c / 2 ^ 23) with hlt | hge
    · calc (2 ^ 23 + b % 2 ^ 23) * 2 ^ (b / 2 ^ 23 - 1) ≤ 2 ^ 24 * 2 ^ (b / 2 ^ 23 - 1) :=
            Nat.mul_le_mul_right _ (by omega)
        _ = 2 ^ 23 * 2 ^ (b / 2 ^ 23 - 1 + 1) := by rw [pow_succ]; ring
        _ ≤ 2 ^ 23 * 2 ^ (c / 2 ^ 23 - 1) :=
            Nat.mul_le_mul_left _ (Nat.pow_le_pow_right (by norm_num) (by omega))
        _ ≤ _ := Nat.mul_le_mul_right _ (by omega)
    · have : b / 2 ^ 23 = c / 2 ^ 23 := by omega
      rw [this]
      exact Nat.mul_le_mul_right _ (by omega)

/-! Packed patterns. -/

theorem pack_toNat {m : Nat} (neg : Bool) (h : m < 2 ^ 31) :
    (pack neg m).toNat = (if neg then 2 ^ 31 else 0) + m := by
  unfold pack
  rw [BitVec.toNat_ofNat, Nat.mod_eq_of_lt]
  split <;> omega

theorem pack_magBits {m : Nat} (neg : Bool) (h : m < 2 ^ 31) : F32.magBits (pack neg m) = m := by
  unfold F32.magBits
  rw [pack_toNat neg h]
  split <;> omega

theorem pack_sign {m : Nat} (neg : Bool) (h : m < 2 ^ 31) : F32.sign (pack neg m) = neg := by
  unfold F32.sign
  rw [pack_toNat neg h]
  cases neg <;> simp
  omega

theorem units_pack {m : Nat} (neg : Bool) (h : m < 2 ^ 31) :
    units (pack neg m) = if neg then -(magUnits m : Int) else (magUnits m : Int) := by
  unfold units
  rw [pack_sign neg h, pack_magBits neg h]

theorem roundMag_lt_sign (num den : Nat) : roundMag num den < 2 ^ 31 :=
  lt_of_le_of_lt (roundMag_le_inf num den) (by decide)

/-- The units of a rounded integer: those of its rounded magnitude, with its sign. -/
theorem units_ofUnits (z : Int) :
    units (ofUnits z) =
      if z < 0 then -(magUnits (roundMag z.natAbs 1) : Int) else (magUnits (roundMag z.natAbs 1) : Int) := by
  unfold ofUnits
  rw [units_pack _ (roundMag_lt_sign _ _)]
  simp

/-- Rounding keeps the order. -/
theorem units_ofUnits_mono {z w : Int} (h : z ≤ w) : units (ofUnits z) ≤ units (ofUnits w) := by
  rw [units_ofUnits, units_ofUnits]
  have up : ∀ m n : Nat, m ≤ n →
      (magUnits (roundMag m 1) : Int) ≤ magUnits (roundMag n 1) := fun m n hmn => by
    exact_mod_cast magUnits_mono (roundMag_mono hmn)
  split <;> split
  · have := up w.natAbs z.natAbs (by omega); omega
  · omega
  · omega
  · exact up _ _ (by omega)

/-- Rounding leaves the value of a finite pattern as it is. -/
theorem units_ofUnits_units {x : F32} (h : F32.isFinite x = true) : units (ofUnits (units x)) = units x := by
  have hm : F32.magBits x < F32.infBits := by simpa [F32.isFinite] using h
  have key : magUnits (roundMag (units x).natAbs 1) = magUnits (F32.magBits x) := by
    have : (units x).natAbs = magUnits (F32.magBits x) := by
      unfold units; split <;> simp
    rw [this, roundMag_magUnits hm]
  rw [units_ofUnits, key]
  unfold units
  split <;> split <;> omega

/-- A sum that is at most a finite value rounds to at most that value. -/
theorem units_ofUnits_le {z : Int} {x : F32} (hx : F32.isFinite x = true) (h : z ≤ units x) :
    units (ofUnits z) ≤ units x :=
  (units_ofUnits_mono h).trans_eq (units_ofUnits_units hx)

/-- A sum that is at least a finite value rounds to at least that value. -/
theorem le_units_ofUnits {z : Int} {x : F32} (hx : F32.isFinite x = true) (h : units x ≤ z) :
    units x ≤ units (ofUnits z) :=
  (units_ofUnits_units hx).symm.trans_le (units_ofUnits_mono h)

end Sys2Proof.Machine.Binary32
end

