-- ==== Sys2Proof/Laws/State.lean ====
section
/-! SUPPORT. The simp set of the state: reading a field after each update of the state, and the
three-axis record. Every lemma is true by definition. -/

namespace Sys2Proof.Machine

section PerAxisLaws
variable {A : Type} (p : PerAxis A) (v w : A)

@[simp] theorem PerAxis.get_set_self (a : AxisId) : (p.set a v).get a = v := by cases a <;> rfl

@[simp] theorem PerAxis.get_set_ne {a b : AxisId} (h : b ≠ a) : (p.set a v).get b = p.get b := by
  cases a <;> cases b <;> first | rfl | exact absurd rfl h

@[simp] theorem PerAxis.set_get (a : AxisId) : p.set a (p.get a) = p := by cases a <;> rfl

@[simp] theorem PerAxis.set_set (a : AxisId) : (p.set a v).set a w = p.set a w := by cases a <;> rfl

@[simp] theorem PerAxis.get_all (a : AxisId) : (PerAxis.all v).get a = v := by cases a <;> rfl

theorem PerAxis.get_set (a b : AxisId) : (p.set a v).get b = if b = a then v else p.get b := by
  by_cases h : b = a
  · subst h; simp
  · simp [h]

/-- Two records agree as soon as they agree on every axis. -/
theorem PerAxis.ext_get {p q : PerAxis A} (h : ∀ a, p.get a = q.get a) : p = q := by
  cases p; cases q
  have h0 := h .axis0; have h1 := h .axis1; have h2 := h .axis2
  simp only [PerAxis.get] at h0 h1 h2
  simp [h0, h1, h2]

end PerAxisLaws

section StateLaws
variable {R : Type} (N : Numerics R) (s : State R)

@[simp] theorem State.updAxis_cfg (a : AxisId) (f : AxisOf R → AxisOf R) : (s.updAxis a f).cfg = s.cfg := rfl
@[simp] theorem State.updAxis_axis (a : AxisId) (f : AxisOf R → AxisOf R) : (s.updAxis a f).axis = s.axis.set a (f (s.axis.get a)) := rfl
@[simp] theorem State.updAxis_ch (a : AxisId) (f : AxisOf R → AxisOf R) : (s.updAxis a f).ch = s.ch := rfl
@[simp] theorem State.updAxis_tbase (a : AxisId) (f : AxisOf R → AxisOf R) : (s.updAxis a f).tbase = s.tbase := rfl
@[simp] theorem State.updAxis_parser (a : AxisId) (f : AxisOf R → AxisOf R) : (s.updAxis a f).parser = s.parser := rfl
@[simp] theorem State.updAxis_txq (a : AxisId) (f : AxisOf R → AxisOf R) : (s.updAxis a f).txq = s.txq := rfl
@[simp] theorem State.updAxis_dropLog (a : AxisId) (f : AxisOf R → AxisOf R) : (s.updAxis a f).dropLog = s.dropLog := rfl
@[simp] theorem State.updAxis_timer (a : AxisId) (f : AxisOf R → AxisOf R) : (s.updAxis a f).timer = s.timer := rfl
@[simp] theorem State.updAxis_adc (a : AxisId) (f : AxisOf R → AxisOf R) : (s.updAxis a f).adc = s.adc := rfl
@[simp] theorem State.updAxis_rpmIn (a : AxisId) (f : AxisOf R → AxisOf R) : (s.updAxis a f).rpmIn = s.rpmIn := rfl
@[simp] theorem State.updAxis_agenda (a : AxisId) (f : AxisOf R → AxisOf R) : (s.updAxis a f).agenda = s.agenda := rfl
@[simp] theorem State.updAxis_t (a : AxisId) (f : AxisOf R → AxisOf R) : (s.updAxis a f).t = s.t := rfl
@[simp] theorem State.updAxis_arrivals (a : AxisId) (f : AxisOf R → AxisOf R) : (s.updAxis a f).arrivals = s.arrivals := rfl
@[simp] theorem State.updAxis_telemDue (a : AxisId) (f : AxisOf R → AxisOf R) : (s.updAxis a f).telemDue = s.telemDue := rfl

@[simp] theorem State.restartTimer_cfg (a : AxisId) : (s.restartTimer a).cfg = s.cfg := rfl
@[simp] theorem State.restartTimer_axis (a : AxisId) : (s.restartTimer a).axis = s.axis := rfl
@[simp] theorem State.restartTimer_ch (a : AxisId) : (s.restartTimer a).ch = s.ch := rfl
@[simp] theorem State.restartTimer_tbase (a : AxisId) : (s.restartTimer a).tbase = s.tbase := rfl
@[simp] theorem State.restartTimer_parser (a : AxisId) : (s.restartTimer a).parser = s.parser := rfl
@[simp] theorem State.restartTimer_txq (a : AxisId) : (s.restartTimer a).txq = s.txq := rfl
@[simp] theorem State.restartTimer_dropLog (a : AxisId) : (s.restartTimer a).dropLog = s.dropLog := rfl
@[simp] theorem State.restartTimer_timer (a : AxisId) : (s.restartTimer a).timer = s.timer.set a 0#32 := rfl
@[simp] theorem State.restartTimer_adc (a : AxisId) : (s.restartTimer a).adc = s.adc := rfl
@[simp] theorem State.restartTimer_rpmIn (a : AxisId) : (s.restartTimer a).rpmIn = s.rpmIn := rfl
@[simp] theorem State.restartTimer_agenda (a : AxisId) : (s.restartTimer a).agenda = s.agenda := rfl
@[simp] theorem State.restartTimer_t (a : AxisId) : (s.restartTimer a).t = s.t := rfl
@[simp] theorem State.restartTimer_arrivals (a : AxisId) : (s.restartTimer a).arrivals = s.arrivals := rfl
@[simp] theorem State.restartTimer_telemDue (a : AxisId) : (s.restartTimer a).telemDue = s.telemDue := rfl

@[simp] theorem State.raiseDrop_cfg (c : DropCause) : (s.raiseDrop c).cfg = s.cfg := rfl
@[simp] theorem State.raiseDrop_axis (c : DropCause) : (s.raiseDrop c).axis = s.axis := rfl
@[simp] theorem State.raiseDrop_ch (c : DropCause) : (s.raiseDrop c).ch = s.ch := rfl
@[simp] theorem State.raiseDrop_tbase (c : DropCause) : (s.raiseDrop c).tbase = s.tbase := rfl
@[simp] theorem State.raiseDrop_parser (c : DropCause) : (s.raiseDrop c).parser = s.parser := rfl
@[simp] theorem State.raiseDrop_txq (c : DropCause) : (s.raiseDrop c).txq = s.txq := rfl
@[simp] theorem State.raiseDrop_dropLog (c : DropCause) : (s.raiseDrop c).dropLog = s.dropLog ++ [{ cause := c, frame := s.parser.buf }] := rfl
@[simp] theorem State.raiseDrop_timer (c : DropCause) : (s.raiseDrop c).timer = s.timer := rfl
@[simp] theorem State.raiseDrop_adc (c : DropCause) : (s.raiseDrop c).adc = s.adc := rfl
@[simp] theorem State.raiseDrop_rpmIn (c : DropCause) : (s.raiseDrop c).rpmIn = s.rpmIn := rfl
@[simp] theorem State.raiseDrop_agenda (c : DropCause) : (s.raiseDrop c).agenda = s.agenda := rfl
@[simp] theorem State.raiseDrop_t (c : DropCause) : (s.raiseDrop c).t = s.t := rfl
@[simp] theorem State.raiseDrop_arrivals (c : DropCause) : (s.raiseDrop c).arrivals = s.arrivals := rfl
@[simp] theorem State.raiseDrop_telemDue (c : DropCause) : (s.raiseDrop c).telemDue = s.telemDue := rfl

@[simp] theorem State.reply_cfg (b : Byte) (v : Int) : (s.reply b v).cfg = s.cfg := rfl
@[simp] theorem State.reply_axis (b : Byte) (v : Int) : (s.reply b v).axis = s.axis := rfl
@[simp] theorem State.reply_ch (b : Byte) (v : Int) : (s.reply b v).ch = s.ch := rfl
@[simp] theorem State.reply_tbase (b : Byte) (v : Int) : (s.reply b v).tbase = s.tbase := rfl
@[simp] theorem State.reply_parser (b : Byte) (v : Int) : (s.reply b v).parser = s.parser := rfl
@[simp] theorem State.reply_txq (b : Byte) (v : Int) : (s.reply b v).txq = s.txq ++ replyFrame b v := rfl
@[simp] theorem State.reply_dropLog (b : Byte) (v : Int) : (s.reply b v).dropLog = s.dropLog := rfl
@[simp] theorem State.reply_timer (b : Byte) (v : Int) : (s.reply b v).timer = s.timer := rfl
@[simp] theorem State.reply_adc (b : Byte) (v : Int) : (s.reply b v).adc = s.adc := rfl
@[simp] theorem State.reply_rpmIn (b : Byte) (v : Int) : (s.reply b v).rpmIn = s.rpmIn := rfl
@[simp] theorem State.reply_agenda (b : Byte) (v : Int) : (s.reply b v).agenda = s.agenda := rfl
@[simp] theorem State.reply_t (b : Byte) (v : Int) : (s.reply b v).t = s.t := rfl
@[simp] theorem State.reply_arrivals (b : Byte) (v : Int) : (s.reply b v).arrivals = s.arrivals := rfl
@[simp] theorem State.reply_telemDue (b : Byte) (v : Int) : (s.reply b v).telemDue = s.telemDue := rfl

@[simp] theorem State.advanceMs_cfg : (s.advanceMs).cfg = s.cfg := rfl
@[simp] theorem State.advanceMs_axis : (s.advanceMs).axis = s.axis := rfl
@[simp] theorem State.advanceMs_ch : (s.advanceMs).ch = s.ch := rfl
@[simp] theorem State.advanceMs_tbase : (s.advanceMs).tbase = { s.tbase with nowMs := s.tbase.nowMs + 1#32 } := rfl
@[simp] theorem State.advanceMs_parser : (s.advanceMs).parser = s.parser := rfl
@[simp] theorem State.advanceMs_txq : (s.advanceMs).txq = s.txq := rfl
@[simp] theorem State.advanceMs_dropLog : (s.advanceMs).dropLog = s.dropLog := rfl
@[simp] theorem State.advanceMs_timer : (s.advanceMs).timer = s.timer := rfl
@[simp] theorem State.advanceMs_adc : (s.advanceMs).adc = s.adc := rfl
@[simp] theorem State.advanceMs_rpmIn : (s.advanceMs).rpmIn = s.rpmIn := rfl
@[simp] theorem State.advanceMs_agenda : (s.advanceMs).agenda = s.agenda := rfl
@[simp] theorem State.advanceMs_t : (s.advanceMs).t = s.t := rfl
@[simp] theorem State.advanceMs_arrivals : (s.advanceMs).arrivals = s.arrivals := rfl
@[simp] theorem State.advanceMs_telemDue : (s.advanceMs).telemDue = s.telemDue := rfl

@[simp] theorem State.sampleAll_cfg : (s.sampleAll N).cfg = s.cfg := rfl
@[simp] theorem State.sampleAll_axis : (s.sampleAll N).axis = s.axis := rfl
@[simp] theorem State.sampleAll_ch : (s.sampleAll N).ch = { ax0 := s.sampled N .axis0, ax1 := s.sampled N .axis1, ax2 := s.sampled N .axis2 } := rfl
@[simp] theorem State.sampleAll_tbase : (s.sampleAll N).tbase = { s.tbase with lastSampleMs := s.tbase.nowMs } := rfl
@[simp] theorem State.sampleAll_parser : (s.sampleAll N).parser = s.parser := rfl
@[simp] theorem State.sampleAll_txq : (s.sampleAll N).txq = s.txq := rfl
@[simp] theorem State.sampleAll_dropLog : (s.sampleAll N).dropLog = s.dropLog := rfl
@[simp] theorem State.sampleAll_timer : (s.sampleAll N).timer = s.timer := rfl
@[simp] theorem State.sampleAll_adc : (s.sampleAll N).adc = s.adc := rfl
@[simp] theorem State.sampleAll_rpmIn : (s.sampleAll N).rpmIn = s.rpmIn := rfl
@[simp] theorem State.sampleAll_agenda : (s.sampleAll N).agenda = s.agenda := rfl
@[simp] theorem State.sampleAll_t : (s.sampleAll N).t = s.t := rfl
@[simp] theorem State.sampleAll_arrivals : (s.sampleAll N).arrivals = s.arrivals := rfl
@[simp] theorem State.sampleAll_telemDue : (s.sampleAll N).telemDue = s.telemDue := rfl

@[simp] theorem State.averageAll_cfg : (s.averageAll).cfg = s.cfg := rfl
@[simp] theorem State.averageAll_axis : (s.averageAll).axis = s.axis := rfl
@[simp] theorem State.averageAll_ch : (s.averageAll).ch = { ax0 := s.ch.ax0.averaged, ax1 := s.ch.ax1.averaged, ax2 := s.ch.ax2.averaged } := rfl
@[simp] theorem State.averageAll_tbase : (s.averageAll).tbase = { s.tbase with lastAvgMs := s.tbase.nowMs } := rfl
@[simp] theorem State.averageAll_parser : (s.averageAll).parser = s.parser := rfl
@[simp] theorem State.averageAll_txq : (s.averageAll).txq = s.txq := rfl
@[simp] theorem State.averageAll_dropLog : (s.averageAll).dropLog = s.dropLog := rfl
@[simp] theorem State.averageAll_timer : (s.averageAll).timer = s.timer := rfl
@[simp] theorem State.averageAll_adc : (s.averageAll).adc = s.adc := rfl
@[simp] theorem State.averageAll_rpmIn : (s.averageAll).rpmIn = s.rpmIn := rfl
@[simp] theorem State.averageAll_agenda : (s.averageAll).agenda = s.agenda := rfl
@[simp] theorem State.averageAll_t : (s.averageAll).t = s.t := rfl
@[simp] theorem State.averageAll_arrivals : (s.averageAll).arrivals = s.arrivals := rfl
@[simp] theorem State.averageAll_telemDue : (s.averageAll).telemDue = s.telemDue := rfl

@[simp] theorem State.advanceUs_cfg : (s.advanceUs).cfg = s.cfg := rfl
@[simp] theorem State.advanceUs_axis : (s.advanceUs).axis = s.axis := rfl
@[simp] theorem State.advanceUs_ch : (s.advanceUs).ch = s.ch := rfl
@[simp] theorem State.advanceUs_tbase : (s.advanceUs).tbase = s.tbase := rfl
@[simp] theorem State.advanceUs_parser : (s.advanceUs).parser = s.parser := rfl
@[simp] theorem State.advanceUs_txq : (s.advanceUs).txq = s.txq := rfl
@[simp] theorem State.advanceUs_dropLog : (s.advanceUs).dropLog = s.dropLog := rfl
@[simp] theorem State.advanceUs_timer : (s.advanceUs).timer = { ax0 := s.timer.ax0 + 1#32, ax1 := s.timer.ax1 + 1#32, ax2 := s.timer.ax2 + 1#32 } := rfl
@[simp] theorem State.advanceUs_adc : (s.advanceUs).adc = s.adc := rfl
@[simp] theorem State.advanceUs_rpmIn : (s.advanceUs).rpmIn = s.rpmIn := rfl
@[simp] theorem State.advanceUs_agenda : (s.advanceUs).agenda = s.agenda := rfl
@[simp] theorem State.advanceUs_t : (s.advanceUs).t = s.t + 1 := rfl
@[simp] theorem State.advanceUs_arrivals : (s.advanceUs).arrivals = s.arrivals := rfl
@[simp] theorem State.advanceUs_telemDue : (s.advanceUs).telemDue = decide ((s.t + 1) % Config.telemPeriodUs = 0) := rfl

end StateLaws

end Sys2Proof.Machine
end

