-- ==== Sys2Proof/Laws/Ops.lean ====
section
/-! SUPPORT. One lemma per shared operation that says what it can do, for the proofs to cite. -/

namespace Sys2Proof.Machine

/-! Conversions. -/

/-- A saturated conversion stays within its bounds, whatever is converted. -/
theorem satRounded_mem {lo hi : Int} (h : lo ≤ hi) (r : Rounded) :
    lo ≤ satRounded lo hi r ∧ satRounded lo hi r ≤ hi := by
  cases r <;> simp [satRounded, sat] <;> omega

/-- `H` of any speed is a legal half-period where the old one is. -/
theorem halfPeriod_ok {R : Type} (N : Numerics R) {c : ConfigOf R} {old : U32} (v : R)
    (h1 : 1 ≤ c.timerMaxUs.toNat) (ho : IntervalOk c old) : IntervalOk c (halfPeriod N c v old) := by
  unfold halfPeriod
  split
  · exact ho
  · obtain ⟨a, b⟩ := satRounded_mem (lo := Config.hMinUs) (hi := c.timerMaxUs.toNat)
      (by simp [Config.hMinUs]; omega) (N.floor (N.div (N.ofInt 500000) v))
    generalize satRounded _ _ _ = k at *
    have hlt := c.timerMaxUs.isLt
    have hk : (BitVec.ofInt 32 k).toNat = k.toNat := by
      rw [BitVec.toNat_ofInt]; simp [Config.hMinUs] at a; omega
    simp only [IntervalOk, hk]
    simp [Config.hMinUs] at *; omega

theorem stepCount_toNat {n : Nat} (h : n ≤ 999999) : (stepCount n).toNat = n := by
  simp [stepCount]; omega

/-- The digit characters read back (30_encoding.md R114). -/
theorem asciiDigit_toNat (n w : Nat) : (asciiDigit n w).toNat = 0x30 + n / w % 10 := by
  unfold asciiDigit; rw [BitVec.toNat_ofNat]; omega

@[simp] theorem isDigit_asciiDigit (n w : Nat) : isDigit (asciiDigit n w) = true := by
  unfold isDigit; rw [asciiDigit_toNat]; simp; omega

@[simp] theorem digitValue_asciiDigit (n w : Nat) : digitValue (asciiDigit n w) = n / w % 10 := by
  unfold digitValue; rw [asciiDigit_toNat]; omega

theorem replyFrame_length (sel : Byte) (v : Int) : (replyFrame sel v).length = 10 := rfl

/-! The ring space. -/

@[simp] theorem memRead_memWrite_self (r : Vector I32 50) (k : Fin 50) (v : I32) :
    memRead (memWrite r k v) k = v := by simp [memRead, memWrite]

theorem memRead_memWrite_ne (r : Vector I32 50) {j k : Fin 50} (v : I32) (h : j ≠ k) :
    memRead (memWrite r k v) j = memRead r j := by
  have : k.val ≠ j.val := fun e => h (Fin.ext e.symm)
  simp [memRead, memWrite, Vector.getElem_set_ne _ _ this]

/-! The scheduler's parts. -/

section
variable {R : Type} (ax : AxisOf R)

/-- What applying the mailbox leaves: the queued interval in force, the mailbox empty. -/
theorem applyPending_eq : applyPending ax =
    { ax with stepIntervalUs := ax.pendingIntervalUs.getD ax.stepIntervalUs, pendingIntervalUs := none } := by
  unfold applyPending
  cases h : ax.pendingIntervalUs with
  | none => cases ax; simp_all
  | some v => rfl

/-- The last step of a bounded move. -/
theorem countStep_last (h : ax.remainingSteps = 1#32) : countStep ax =
    { ax with remainingSteps := 0#32, enabled := false, plan := none } := by
  simp [countStep, h]

/-- A step of a bounded move that is not its last. -/
theorem countStep_more (h : 1 < ax.remainingSteps.toNat) :
    countStep ax =
      { ax with
        remainingSteps := ax.remainingSteps - 1#32
        plan := ax.plan.map fun p => { p with stepsDone := p.stepsDone + 1#32 } } ∧
    (ax.remainingSteps - 1#32).toNat = ax.remainingSteps.toNat - 1 := by
  have hs : (ax.remainingSteps - 1#32).toNat = ax.remainingSteps.toNat - 1 := by
    have := ax.remainingSteps.isLt
    simp [BitVec.toNat_sub]; omega
  have hne : ax.remainingSteps - 1#32 ≠ 0#32 := by
    intro hh; rw [hh] at hs; simp at hs; omega
  exact ⟨by simp only [countStep, if_neg hne], hs⟩

end

/-- The step line is low or high. -/
theorem bit_cases (l : Bit) : l = 0#1 ∨ l = 1#1 := by revert l; decide

section
variable {R : Type} {ax : AxisOf R}

/-- A falling edge flips the line and nothing else. -/
theorem flipStep_falling (h : ax.stepLevel = 1#1) : flipStep ax = { ax with stepLevel := 0#1 } := by
  simp [flipStep, h]

/-- A rising edge of unbounded motion counts nothing and applies the mailbox. -/
theorem flipStep_unbounded (h : ax.stepLevel = 0#1) (hr : ax.remainingSteps = 0#32) : flipStep ax =
    { ax with
      stepLevel := 1#1, stepIntervalUs := ax.pendingIntervalUs.getD ax.stepIntervalUs,
      pendingIntervalUs := none } := by
  simp [flipStep, h, risingEdge, hr, applyPending_eq]

/-- The rising edge of the last step of a bounded move. -/
theorem flipStep_last (h : ax.stepLevel = 0#1) (hr : ax.remainingSteps = 1#32) : flipStep ax =
    { ax with
      stepLevel := 1#1, remainingSteps := 0#32, enabled := false, plan := none,
      stepIntervalUs := ax.pendingIntervalUs.getD ax.stepIntervalUs, pendingIntervalUs := none } := by
  simp [flipStep, h, risingEdge, hr, applyPending_eq, countStep]

/-- The rising edge of any other step of a bounded move. -/
theorem flipStep_more (h : ax.stepLevel = 0#1) (hr : 1 < ax.remainingSteps.toNat) : flipStep ax =
    { ax with
      stepLevel := 1#1, remainingSteps := ax.remainingSteps - 1#32
      plan := ax.plan.map fun p => { p with stepsDone := p.stepsDone + 1#32 }
      stepIntervalUs := ax.pendingIntervalUs.getD ax.stepIntervalUs, pendingIntervalUs := none } := by
  have h0 : ax.remainingSteps ≠ 0#32 := by rintro h; rw [h] at hr; simp at hr
  have hc := (countStep_more { ax with stepLevel := 1#1 } hr).1
  simp [flipStep, h, risingEdge, h0, applyPending_eq, hc]

/-- An enabled axis's tick: the flip with its counts, then the speed where trapezoid mode is on and the axis is
still enabled. -/
theorem schedTick_enabled (N : Numerics R) (c : ConfigOf R) (h : ax.enabled = true) :
    schedTick N c ax =
      if (flipStep ax).trapezoidEnabled && (flipStep ax).enabled then speedUpdate N c (flipStep ax)
      else flipStep ax := by
  simp [schedTick, h]

end

/-- A disabled axis's tick is a no-op (line 1 of 41_scheduler.md R186). -/
@[simp] theorem schedTick_disabled {R : Type} (N : Numerics R) (c : ConfigOf R) {ax : AxisOf R}
    (h : ax.enabled = false) : schedTick N c ax = ax := by simp [schedTick, h]

/-! The telemetry tick writes the channels and the time base only. -/

section
variable {R : Type} (N : Numerics R) (s : State R)

/-- What a telemetry tick leaves: the state but for its channels and time base. -/
theorem telemTick_eq : s.telemTick N = { s with ch := (s.telemTick N).ch, tbase := (s.telemTick N).tbase } := by
  unfold State.telemTick State.averageIfDue State.sampleIfDue
  split <;> split <;> rfl

@[simp] theorem telemTick_axis : (s.telemTick N).axis = s.axis := by rw [telemTick_eq]
@[simp] theorem telemTick_timer : (s.telemTick N).timer = s.timer := by rw [telemTick_eq]
@[simp] theorem telemTick_parser : (s.telemTick N).parser = s.parser := by rw [telemTick_eq]
@[simp] theorem telemTick_txq : (s.telemTick N).txq = s.txq := by rw [telemTick_eq]
@[simp] theorem telemTick_dropLog : (s.telemTick N).dropLog = s.dropLog := by rw [telemTick_eq]
@[simp] theorem telemTick_cfg : (s.telemTick N).cfg = s.cfg := by rw [telemTick_eq]
@[simp] theorem telemTick_adc : (s.telemTick N).adc = s.adc := by rw [telemTick_eq]
@[simp] theorem telemTick_rpmIn : (s.telemTick N).rpmIn = s.rpmIn := by rw [telemTick_eq]

end

/-! The commands, over either arithmetic: none writes the parser. -/

section
variable {R : Type} (N : Numerics R) (a : AxisId) (s : State R)

@[simp] theorem start_parser (n : Nat) : (s.start N a n).parser = s.parser := rfl
@[simp] theorem stop_parser : (s.stop N a).parser = s.parser := rfl
@[simp] theorem setDirection_parser (d : Direction) : (s.setDirection a d).parser = s.parser := rfl
@[simp] theorem setExcitation_parser (b : Bit) : (s.setExcitation a b).parser = s.parser := rfl
@[simp] theorem trap_parser (v : Nat) : (s.trap N a v).parser = s.parser := rfl
@[simp] theorem queryCurrent_parser : (s.queryCurrent a).parser = s.parser := rfl

@[simp] theorem speed_parser (v : Nat) : (s.speed N a v).parser = s.parser := by
  unfold State.speed; split <;> rfl

@[simp] theorem queryRotation_parser : (s.queryRotation a).parser = s.parser := by
  unfold State.queryRotation; split <;> rfl

end

/-- A command leaves the parser as it is: the frame it ran from is still in the buffer after it. -/
theorem exec_parser {i : Instr} {s t : State} (h : exec i s = .next t) : t.parser = s.parser := by
  cases i <;>
    simp only [exec, execStart, execStop, execFwd, execRev, execSpeed, execEna, execDis, execTrap, execQcur,
      execQrot, Host.Outcome.next.injEq] at h <;> subst h <;> simp

/-- The same under `REAL`, where too every command gives a next state. -/
theorem execReal_parser (i : Instr) (s : State ℝ) : ∃ t, execReal i s = .next t ∧ t.parser = s.parser := by
  cases i <;> exact ⟨_, rfl, by simp⟩

/-! The step. -/

section
variable {R : Type} {B : Build R} {s t : State R}

/-- Everything a step of a build can do: one agent's event, taken on the state with the model's own scheduling fields
moved on, or one µs where nothing is due. -/
theorem nextStep_cases (h : B.nextStep s = .next t) :
    (∃ e ag ar td, (td = true → s.telemDue = true) ∧
      B.takeEvent e { s with agenda := ag, arrivals := ar, telemDue := td } = .next t) ∨
    (t = s.advanceUs ∧ s.agenda = [] ∧ (∀ a, s.tickDue a = false) ∧ s.telemDue = false ∧
      dueArrival s.t s.arrivals = none) := by
  unfold Build.nextStep at h
  split at h
  · exact .inl ⟨_, _, s.arrivals, s.telemDue, id, h⟩
  · rename_i hag
    unfold Build.timedStep at h
    split at h
    · exact .inl ⟨.schedTick .axis0, s.agenda, s.arrivals, s.telemDue, id, h⟩
    split at h
    · exact .inl ⟨.schedTick .axis1, s.agenda, s.arrivals, s.telemDue, id, h⟩
    split at h
    · exact .inl ⟨.schedTick .axis2, s.agenda, s.arrivals, s.telemDue, id, h⟩
    split at h
    · exact .inl ⟨.telemTick, s.agenda, s.arrivals, false, by simp, h⟩
    split at h
    · exact .inl ⟨_, s.agenda, _, s.telemDue, id, h⟩
    · rename_i h0 h1 h2 h3 _ hd
      refine .inr ⟨by simpa using h.symm, hag, ?_, by simpa using h3, hd⟩
      intro a
      cases a <;> simp_all

end

/-- Everything a step under `BINARY32` can do. -/
theorem step_cases {s t : State} (h : step s = .next t) :
    (∃ e ag ar td, (td = true → s.telemDue = true) ∧
      takeEvent e { s with agenda := ag, arrivals := ar, telemDue := td } = .next t) ∨
    (t = s.advanceUs ∧ s.agenda = [] ∧ (∀ a, s.tickDue a = false) ∧ s.telemDue = false ∧
      dueArrival s.t s.arrivals = none) := nextStep_cases h

section

/-- An element is extracted where it is the first that is accepted. -/
theorem extractFirst_append {A : Type} {p : A → Bool} {pre post : List A} {x : A}
    (hpre : ∀ y ∈ pre, p y = false) (hx : p x = true) :
    extractFirst p (pre ++ x :: post) = some (x, pre ++ post) := by
  induction pre with
  | nil => simp [extractFirst, hx]
  | cons y ys ih =>
    have hy := hpre y (by simp)
    simp [extractFirst, hy, ih fun z hz => hpre z (by simp [hz])]

theorem extractFirst_none {A : Type} {p : A → Bool} {l : List A} :
    extractFirst p l = none ↔ ∀ y ∈ l, p y = false := by
  induction l with
  | nil => simp [extractFirst]
  | cons y ys ih =>
    simp only [extractFirst]
    split
    · simp_all
    · cases h : extractFirst p ys <;> simp_all

end

end Sys2Proof.Machine

namespace Sys2Proof.Machine.Binary32

theorem isqrtFrom_spec (k n r : Nat) (h1 : r * r ≤ n) (h2 : n < (r + 2 ^ k) * (r + 2 ^ k)) :
    isqrtFrom k n r * isqrtFrom k n r ≤ n ∧
      n < (isqrtFrom k n r + 1) * (isqrtFrom k n r + 1) := by
  induction k generalizing r with
  | zero => simpa [isqrtFrom] using ⟨h1, h2⟩
  | succ k ih =>
    simp only [isqrtFrom]
    split
    · rename_i h
      refine ih _ h ?_
      have : r + 2 ^ k + 2 ^ k = r + 2 ^ (k + 1) := by rw [pow_succ]; omega
      rwa [this]
    · exact ih _ h1 (by omega)

/-- The digit-by-digit root is the integer square root of every number in its range. -/
theorem isqrt_eq_sqrt {n : Nat} (h : n < 2 ^ 430) : isqrt n = Nat.sqrt n := by
  have h2 : n < (0 + 2 ^ 215) * (0 + 2 ^ 215) := by
    rw [Nat.zero_add, ← pow_add]; exact h
  rw [Nat.eq_sqrt]
  exact isqrtFrom_spec 215 n 0 (by simp) h2

end Sys2Proof.Machine.Binary32
end

