-- ==== Sys2Proof/Laws/PerInstr.lean ====
section
/-! SUPPORT. Facts about every instruction as syntax, one lemma per constructor. -/

namespace Sys2Proof.Laws.FrameShape

/-- The frame of an instruction has the layout of 30_encoding.md R110: the markers at its ends, the selector of
its axis, its action code, six digits, and the checksum of R115. -/
def Statement (i : Instr) : Prop :=
  (encode i)[0] = stx ∧ (encode i)[1] = i.axis.selector ∧ (encode i)[2] = i.code ∧
  allDigits (encode i) = true ∧ (encode i)[9] = cks (encode i) ∧ (encode i)[10] = etx

theorem of_encode (i : Instr) : Statement i :=
  ⟨rfl, rfl, rfl, by simp [allDigits, encode, assemble, Instr.body],
    by simp [encode, assemble, cks, Instr.body], rfl⟩

theorem start (a : AxisId) (n : Nat) : Statement (.start a n) := of_encode _
theorem stop (a : AxisId) (v : Nat) : Statement (.stop a v) := of_encode _
theorem fwd (a : AxisId) (v : Nat) : Statement (.fwd a v) := of_encode _
theorem rev (a : AxisId) (v : Nat) : Statement (.rev a v) := of_encode _
theorem speed (a : AxisId) (rpm : Nat) : Statement (.speed a rpm) := of_encode _
theorem ena (a : AxisId) (v : Nat) : Statement (.ena a v) := of_encode _
theorem dis (a : AxisId) (v : Nat) : Statement (.dis a v) := of_encode _
theorem trap (a : AxisId) (v : Nat) : Statement (.trap a v) := of_encode _
theorem qcur (a : AxisId) (v : Nat) : Statement (.qcur a v) := of_encode _
theorem qrot (a : AxisId) (v : Nat) : Statement (.qrot a v) := of_encode _

end Sys2Proof.Laws.FrameShape
end

