-- ==== Sys2Proof/Machine/Flags.lean ====
section
/-! DEFINITION. The flags of 10_state.md R54. There are no condition codes: a flag is a Boolean field of the
state or the valid bit of an optional one, and an operation sets no flag but those its rule lists. -/

namespace Sys2Proof.Machine

/-- The flags of one axis (R54). -/
structure AxisFlags where
  enabled : Bool
  trapezoidEnabled : Bool
  stepLevel : Bit
  pendingValid : Bool
  planValid : Bool
  deriving DecidableEq, Repr

variable {R : Type}

/-- The flags of an Axis record. -/
def AxisOf.flags (ax : AxisOf R) : AxisFlags where
  enabled := ax.enabled
  trapezoidEnabled := ax.trapezoidEnabled
  stepLevel := ax.stepLevel
  pendingValid := ax.pendingIntervalUs.isSome
  planValid := ax.plan.isSome

end Sys2Proof.Machine
end

