-- ==== Sys2Proof/Tests/Slice0.lean ====
section
/-! SUPPORT. Tests with expected values from 95_test_vectors.md (the id of the vector in each docstring), and a
witness for the hypotheses of every statement that has some. -/

namespace Sys2Proof.Tests

open Sys2Proof.Machine

/-! Helpers. -/

/-- The machine after reset with the example parameters of 95_test_vectors.md. -/
def machine : State := State.resetWith Config.example95

/-- The machine with axis 0's record replaced. -/
def withAxis (ax : Axis) : State := { machine with axis := machine.axis.set .axis0 ax }

/-- The base state of the tick vectors (95_test_vectors.md 2.3). -/
def base : Axis where
  enabled := true
  direction := .forward
  remainingSteps := 0#32
  stepIntervalUs := 1000#32
  pendingIntervalUs := none
  trapezoidEnabled := true
  currentSpeedSps := 0x43FA0000#32    -- 500.0
  targetSpeedSps := 0x447A0000#32     -- 1000.0
  accelerationSps2 := 0x451C4000#32   -- 2500.0
  plan := none
  stepLevel := 0#1
  dirOut := 0#1
  enaOutN := 1#1

/-- The plan `total, done, accel, cruise, decel, peak` of the vectors. -/
def planOf (total done accel cruise decel : Nat) (peak : F32) : MotionPlan :=
  ⟨BitVec.ofNat 32 total, BitVec.ofNat 32 done, BitVec.ofNat 32 accel, BitVec.ofNat 32 cruise,
   BitVec.ofNat 32 decel, peak⟩

/-- The axis of a move in progress: three of ten steps left, decelerating (vector ST-5c). -/
def moving : Axis :=
  { base with
    plan := some (planOf 10 7 2 5 3 0x44480000#32), remainingSteps := 3#32,
    currentSpeedSps := 0x44480000#32, stepIntervalUs := 625#32 }

/-- The next state, where there is one. -/
def next? {F R : Type} : Host.Outcome State F R → Option State
  | .next s => some s
  | .fault _ => none
  | .refused _ => none

/-- Axis 0's record after an instruction. -/
def axisAfter (i : Instr) (ax : Axis) : Option Axis := (next? (exec i (withAxis ax))).map (·.axis.ax0)

/-- One tick of an axis with the example parameters. -/
def tick (ax : Axis) : Axis := schedTick binary32 Config.example95 ax

/-- The machine with one event to take. -/
def facing (e : Event) (s : State) : State := { s with agenda := [e] }

/-- What a frame does to the machine. -/
def complete (f : Frame) (s : State) : Option State :=
  next? (completeFrame { s with parser := Parser.idleWith f })

/-! WellFormed: a value of seven digits is refused for every command, and X without the option. -/

theorem test_wf_start : (Instr.start .axis0 1000000).wf true = false := by decide
theorem test_wf_stop : (Instr.stop .axis0 1000000).wf true = false := by decide
theorem test_wf_fwd : (Instr.fwd .axis0 1000000).wf true = false := by decide
theorem test_wf_rev : (Instr.rev .axis0 1000000).wf true = false := by decide
theorem test_wf_speed : (Instr.speed .axis0 1000000).wf true = false := by decide
theorem test_wf_ena : (Instr.ena .axis0 1000000).wf true = false := by decide
theorem test_wf_dis : (Instr.dis .axis0 1000000).wf true = false := by decide
theorem test_wf_trap : (Instr.trap .axis0 1000000).wf true = false := by decide
theorem test_wf_qcur : (Instr.qcur .axis0 1000000).wf true = false := by decide
theorem test_wf_qrot : (Instr.qrot .axis0 1000000).wf true = false := by decide
theorem test_wf_qrot_absent : (Instr.qrot .axis0 0).wf false = false := by decide
theorem test_wf_largest : (Instr.qrot .axis2 999999).wf true = true := by decide

/-! Decode: one word of each constructor, bytes as 95_test_vectors.md prints them. -/

/-- PR-1. -/
theorem test_decode_start :
    decode true #v[0x02, 0x31, 0x4D, 0x30, 0x30, 0x30, 0x31, 0x30, 0x30, 0x7D, 0x03] =
      .cmd (.start .axis0 100) := by decide
/-- CM-4. -/
theorem test_decode_stop :
    decode true #v[0x02, 0x31, 0x53, 0x30, 0x30, 0x30, 0x30, 0x30, 0x30, 0x62, 0x03] =
      .cmd (.stop .axis0 0) := by decide
/-- CM-16. -/
theorem test_decode_fwd :
    decode true #v[0x02, 0x31, 0x46, 0x30, 0x30, 0x30, 0x30, 0x30, 0x30, 0x77, 0x03] =
      .cmd (.fwd .axis0 0) := by decide
/-- P2. -/
theorem test_decode_rev :
    decode true #v[0x02, 0x32, 0x52, 0x30, 0x30, 0x30, 0x30, 0x30, 0x30, 0x60, 0x03] =
      .cmd (.rev .axis1 0) := by decide
/-- P1. -/
theorem test_decode_speed :
    decode true #v[0x02, 0x31, 0x56, 0x30, 0x30, 0x30, 0x31, 0x35, 0x30, 0x63, 0x03] =
      .cmd (.speed .axis0 150) := by decide
/-- CM-12. -/
theorem test_decode_ena :
    decode true #v[0x02, 0x31, 0x45, 0x30, 0x30, 0x30, 0x30, 0x30, 0x30, 0x74, 0x03] =
      .cmd (.ena .axis0 0) := by decide
/-- CM-13. -/
theorem test_decode_dis :
    decode true #v[0x02, 0x31, 0x44, 0x30, 0x30, 0x30, 0x30, 0x30, 0x30, 0x75, 0x03] =
      .cmd (.dis .axis0 0) := by decide
/-- CM-10. -/
theorem test_decode_trap :
    decode true #v[0x02, 0x31, 0x41, 0x30, 0x30, 0x30, 0x30, 0x30, 0x30, 0x70, 0x03] =
      .cmd (.trap .axis0 0) := by decide
/-- CM-17. -/
theorem test_decode_qcur :
    decode true #v[0x02, 0x33, 0x43, 0x30, 0x30, 0x30, 0x30, 0x30, 0x30, 0x70, 0x03] =
      .cmd (.qcur .axis2 0) := by decide
/-- CM-18, CM-20. -/
theorem test_decode_qrot :
    decode true #v[0x02, 0x32, 0x58, 0x30, 0x30, 0x30, 0x30, 0x30, 0x30, 0x6A, 0x03] =
      .cmd (.qrot .axis1 0) ∧
    decode false #v[0x02, 0x32, 0x58, 0x30, 0x30, 0x30, 0x30, 0x30, 0x30, 0x6A, 0x03] =
      .drop .badAction := by decide

/-! Decode: the drops. -/

/-- PR-2. -/
theorem test_drop_framing :
    decode true #v[0x02, 0x31, 0x45, 0x30, 0x30, 0x30, 0x30, 0x30, 0x30, 0x74, 0x04] =
      .drop .badFraming := by decide
/-- PR-3. -/
theorem test_drop_checksum :
    decode true #v[0x02, 0x31, 0x45, 0x30, 0x30, 0x30, 0x30, 0x30, 0x30, 0x75, 0x03] =
      .drop .badChecksum := by decide
/-- PR-4, PR-4b: the selectors on either side of the range. -/
theorem test_drop_axis :
    decode true #v[0x02, 0x34, 0x45, 0x30, 0x30, 0x30, 0x30, 0x30, 0x30, 0x71, 0x03] =
      .drop .badAxis ∧
    decode true #v[0x02, 0x30, 0x45, 0x30, 0x30, 0x30, 0x30, 0x30, 0x30, 0x75, 0x03] =
      .drop .badAxis := by decide
/-- PR-5, PR-5b: a letter with no command, and a lower-case letter. -/
theorem test_drop_action :
    decode true #v[0x02, 0x31, 0x51, 0x30, 0x30, 0x30, 0x30, 0x30, 0x30, 0x60, 0x03] =
      .drop .badAction ∧
    decode true #v[0x02, 0x31, 0x65, 0x30, 0x30, 0x30, 0x30, 0x30, 0x30, 0x54, 0x03] =
      .drop .badAction := by decide
/-- PR-6, PR-11. -/
theorem test_drop_digit :
    decode true #v[0x02, 0x31, 0x4D, 0x30, 0x30, 0x41, 0x31, 0x30, 0x30, 0x0C, 0x03] =
      .drop .badDigit ∧
    decode true #v[0x02, 0x31, 0x4D, 0x30, 0x30, 0x02, 0x31, 0x30, 0x30, 0x4F, 0x03] =
      .drop .badDigit := by decide
/-- PR-10: a double flip in one bit column is undetected. -/
theorem test_double_flip :
    decode true #v[0x02, 0x31, 0x4D, 0x30, 0x30, 0x30, 0x31, 0x31, 0x31, 0x7D, 0x03] =
      .cmd (.start .axis0 111) := by decide

/-- 30_encoding.md R125, with the frames of program P5. -/
theorem test_move : moveFrames .axis0 300 10 = [
    #v[0x02, 0x31, 0x56, 0x30, 0x30, 0x30, 0x33, 0x30, 0x30, 0x64, 0x03],
    #v[0x02, 0x31, 0x4D, 0x30, 0x30, 0x30, 0x30, 0x31, 0x30, 0x7D, 0x03]] := by decide

/-! The instructions. -/

/-- CM-1: a bounded move with trapezoid mode on. -/
theorem test_start_planned :
    axisAfter (.start .axis0 4)
      { Axis.reset Config.example95 with
        targetSpeedSps := 0x447A0000#32, accelerationSps2 := 0x459C4000#32 } =
    some { base with remainingSteps := 4#32, plan := some (planOf 4 0 2 0 2 0x43FEF373#32) } := by
  decide +kernel
/-- CM-3: with trapezoid mode off a pending interval is applied at the start. -/
theorem test_start_pending :
    axisAfter (.start .axis0 10)
      { base with enabled := false, trapezoidEnabled := false, pendingIntervalUs := some 700#32 } =
    some { base with trapezoidEnabled := false, remainingSteps := 10#32, stepIntervalUs := 700#32 } := by
  decide
/-- CM-4. -/
theorem test_stop :
    axisAfter (.stop .axis0 0) moving =
      some { moving with enabled := false, remainingSteps := 0#32, currentSpeedSps := 0#32, plan := none } := by
  decide
/-- CM-16. -/
theorem test_fwd :
    axisAfter (.fwd .axis0 0) { base with direction := .reverse, dirOut := 1#1 } =
      some { base with direction := .forward, dirOut := 1#1 } := by decide
/-- CM-14. -/
theorem test_rev : axisAfter (.rev .axis0 0) base = some { base with direction := .reverse } := by decide
/-- CM-15: the direction line follows at the start. -/
theorem test_rev_start :
    (axisAfter (.start .axis0 0) { base with direction := .reverse }).map (·.dirOut) = some 1#1 := by
  decide +kernel
/-- CM-7, CM-8: with trapezoid mode on and off. -/
theorem test_speed :
    axisAfter (.speed .axis0 300) { base with targetSpeedSps := 0x43FA0000#32, accelerationSps2 := 0#32 } =
      some base ∧
    axisAfter (.speed .axis0 300)
      { base with trapezoidEnabled := false, targetSpeedSps := 0x43FA0000#32, pendingIntervalUs := some 1000#32 } =
    some { base with
      trapezoidEnabled := false, currentSpeedSps := 0x447A0000#32, pendingIntervalUs := some 500#32 } := by
  decide +kernel
/-- CM-12. -/
theorem test_ena : axisAfter (.ena .axis0 0) base = some { base with enaOutN := 0#1 } := by decide
/-- CM-13. -/
theorem test_dis : axisAfter (.dis .axis0 0) { base with enaOutN := 0#1 } = some base := by decide
/-- CM-10. -/
theorem test_trap_off :
    axisAfter (.trap .axis0 0) moving =
      some { moving with
        trapezoidEnabled := false, currentSpeedSps := 0x447A0000#32, pendingIntervalUs := some 500#32,
        plan := none } := by decide +kernel
/-- CM-11. -/
theorem test_trap_on :
    axisAfter (.trap .axis0 0) { base with trapezoidEnabled := false } = some base := by decide
/-- CM-17. -/
theorem test_qcur :
    (next? (exec (.qcur .axis2 0)
      { machine with
        ch := machine.ch.set .axis2 { Channel.reset with avg := BitVec.ofInt 32 (-585) } })).map (·.txq) =
    some [0x02, 0x33, 0x2D, 0x30, 0x30, 0x35, 0x38, 0x35, 0x26, 0x03] := by decide
/-- CM-18. -/
theorem test_qrot :
    (next? (exec (.qrot .axis1 0) { machine with rpmIn := machine.rpmIn.set .axis1 1234#32 })).map (·.txq) =
    some [0x02, 0x32, 0x2B, 0x30, 0x31, 0x32, 0x33, 0x34, 0x2D, 0x03] := by decide
/-- RP-6, RP-7: replies saturate. -/
theorem test_reply_saturates :
    replyFrame 0x32 123456 = [0x02, 0x32, 0x2B, 0x39, 0x39, 0x39, 0x39, 0x39, 0x20, 0x03] ∧
    replyFrame 0x32 (-100000) = [0x02, 0x32, 0x2D, 0x39, 0x39, 0x39, 0x39, 0x39, 0x26, 0x03] := by decide
/-- CM-9: value 0 is a no-op with a drop. -/
theorem test_speed_zero :
    (next? (exec (.speed .axis0 0) machine)).map (fun s => (s.axis.ax0, s.dropLog.map (·.cause))) =
      some (Axis.reset Config.example95, [.badValue]) := by decide +kernel
/-- PR-2: a dropped frame changes nothing but the log. -/
theorem test_dropped_frame :
    (complete #v[0x02, 0x31, 0x45, 0x30, 0x30, 0x30, 0x30, 0x30, 0x30, 0x74, 0x04] machine).map
      (fun s => (s.axis, s.dropLog.map (·.cause), s.txq)) = some (machine.axis, [.badFraming], []) := by
  decide +kernel

/-! The tick. -/

/-- ST-1: unbounded ramp up. -/
theorem test_tick_up :
    tick base = { base with
      stepLevel := 1#1, currentSpeedSps := 0x43FB4000#32, stepIntervalUs := 995#32 } := by decide +kernel
/-- ST-2: ramp down with the magnitude of a negative acceleration. -/
theorem test_tick_down :
    let b := { base with
      currentSpeedSps := 0x447A0000#32, targetSpeedSps := 0x43FA0000#32,
      accelerationSps2 := 0xC51C4000#32, stepIntervalUs := 500#32 }
    tick b = { b with stepLevel := 1#1, currentSpeedSps := 0x4479B000#32 } := by decide +kernel
/-- ST-5c: the deceleration phase. -/
theorem test_tick_planned :
    tick moving = { moving with
      stepLevel := 1#1, remainingSteps := 2#32, plan := some (planOf 10 8 2 5 3 0x44480000#32),
      currentSpeedSps := 0x44479C00#32, stepIntervalUs := 626#32 } := by decide +kernel
/-- ST-7: the fallback path decelerates. -/
theorem test_tick_fallback :
    let b := { base with
      remainingSteps := 3#32, currentSpeedSps := 0x447A0000#32, targetSpeedSps := 0x44FA0000#32,
      stepIntervalUs := 500#32 }
    tick b = { b with stepLevel := 1#1, remainingSteps := 2#32, currentSpeedSps := 0x4479B000#32 } := by
  decide +kernel
/-- ST-10: the last step ends the move and skips the speed update. -/
theorem test_tick_last :
    let b := { moving with plan := some (planOf 10 9 2 5 3 0x44480000#32), remainingSteps := 1#32 }
    tick b = { b with stepLevel := 1#1, remainingSteps := 0#32, enabled := false, plan := none } := by
  decide +kernel
/-- ST-15: a pending interval is applied before the speed update. -/
theorem test_tick_pending :
    tick { base with pendingIntervalUs := some 700#32 } =
      { base with stepLevel := 1#1, stepIntervalUs := 996#32, currentSpeedSps := 0x43FAE000#32 } := by
  decide +kernel
/-- ST-11a: not on a falling edge. -/
theorem test_tick_falling :
    let b := { base with
      trapezoidEnabled := false, pendingIntervalUs := some 700#32, stepLevel := 1#1,
      currentSpeedSps := 0x44328000#32, targetSpeedSps := 0x44328000#32 }
    tick b = { b with stepLevel := 0#1 } := by decide
/-- DV-4: the divisor of the interval. -/
theorem test_dv_divisor :
    dv binary32 { Config.example95 with dtDivisor := 2 } base = 0x3FA00000#32 := by decide +kernel

/-! The planner. -/

/-- `maxf` and `minf` (00_scope.md R11) of 0.0 and 468.75, in either order. -/
theorem test_max_min :
    Binary32.max 0#32 0x43EA6000#32 = 0x43EA6000#32 ∧ Binary32.max 0x43EA6000#32 0#32 = 0x43EA6000#32 ∧
    Binary32.min 0#32 0x43EA6000#32 = 0#32 ∧ Binary32.min 0x43EA6000#32 0#32 = 0#32 := by decide
/-- PL-4 (40_planner.md R160 b) and PL-9: the triangular branch, one step and one step short of the plateau. -/
theorem test_plan_triangular :
    plan binary32 0x43FA0000#32 0x447A0000#32 0x43FA0000#32 0x451C4000#32 1#32 =
      planOf 1 0 1 0 0 0x43FB3F34#32 ∧
    plan binary32 0x43FA0000#32 0x44FA0000#32 0x43FA0000#32 0x457A0000#32 937#32 =
      planOf 937 0 468 0 469 0x44F9EFFF#32 := by decide +kernel
/-- PL-3, PL-5: the two sides of the branch. -/
theorem test_plan_boundary :
    plan binary32 0x43FA0000#32 0x447A0000#32 0x43FA0000#32 0x451C4000#32 300#32 =
      planOf 300 0 150 0 150 0x447A0000#32 ∧
    plan binary32 0x43FA0000#32 0x447A0000#32 0x43FA0000#32 0x451C4000#32 299#32 =
      planOf 299 0 150 0 149 0x4479AFF3#32 := by decide +kernel
/-- PL-6: a target below the start speed. -/
theorem test_plan_below :
    plan binary32 0x43FA0000#32 0x43C80000#32 0x43FA0000#32 0x43FA0000#32 10#32 =
      planOf 10 0 0 10 0 0x43C80000#32 := by decide +kernel

/-! Telemetry. -/

/-- TL-1. -/
theorem test_sample :
    [0, 511, 513, 532, 1023].map (sampleMilliamps binary32 Config.example95) =
      [-25000, -48, 48, 976, 24951] := by decide +kernel
/-- TL-6: a mean is truncated toward zero. -/
theorem test_mean_negative :
    (Channel.mean { Channel.reset with
      ring := Vector.ofFn fun k : Fin 50 => if k.val < 26 then BitVec.ofInt 32 (-48) else 0#32
      full := true }).toInt = -24 := by decide +kernel
/-- TL-8: the millisecond count wraps and the sample falls due. -/
theorem test_telemetry_wrap :
    (State.telemTick binary32 { machine with
      tbase := { nowMs := 0xFFFFFFFF#32, lastSampleMs := 0xFFFFFFFE#32, lastAvgMs := 0xFFFFFFCE#32 } }).tbase =
    { nowMs := 0#32, lastSampleMs := 0#32, lastAvgMs := 0xFFFFFFCE#32 } := by decide +kernel

/-! The machine. -/

/-- A word placed for the next step runs, from the reset state of the block. -/
theorem test_fetch_word :
    (next? (step (State.reset.withFetchWord 88 0x0231453030303030307403))).map (·.axis.ax0.enaOutN) =
      some 0#1 := by decide +kernel
/-- 60_exceptions.md R320: from reset with nothing placed, one µs passes. -/
theorem test_reset_step : (next? (step machine)).map (·.t) = some 1 := by decide +kernel

/-! Witnesses: a concrete state and operands that meet the hypotheses of each statement that has some, and of each
of its clauses, at the ends of the ranges. -/

/-- The block in a move on axis 0, with a pending byte of a frame and a reply on its way. -/
def running : State := { withAxis moving with
  parser := { pstate := .accum, buf := (Parser.reset.buf.set 0 0x02).set 1 0x31, idx := 2 }
  txq := [0x02, 0x31], timer := machine.timer.set .axis0 625#32, t := 1000, telemDue := true }

/-- The frame `1E000000` and one for every other clause of `decode`. -/
def goodFrame : Frame := #v[0x02, 0x31, 0x45, 0x30, 0x30, 0x30, 0x30, 0x30, 0x30, 0x74, 0x03]

/-- DecodeOfEncode. -/
theorem witness_DecodeOfEncode :
    (Instr.qrot .axis2 999999).wf true = true ∧ (Instr.start .axis1 0).wf false = true := by decide +kernel

/-- EncodeOfDecode. -/
theorem witness_EncodeOfDecode :
    decode false goodFrame = .cmd (.ena .axis0 0) ∧
    decode true (goodFrame.set 2 0x58 |>.set 9 0x69) = .cmd (.qrot .axis0 0) := by decide +kernel

/-- DecodeChecksInOrder, clause by clause: bad framing, bad checksum, a selector one past the end, `X` without the
option, a byte one past the digits, and a command. -/
theorem witness_DecodeChecksInOrder :
    let framed (f : Frame) : Prop := f[0] = 0x02#8 ∧ f[10] = 0x03#8
    let summed (f : Frame) : Prop :=
      f[9] = f[1] ^^^ f[2] ^^^ f[3] ^^^ f[4] ^^^ f[5] ^^^ f[6] ^^^ f[7] ^^^ f[8]
    let selects (f : Frame) : Prop := f[1] = 0x31#8 ∨ f[1] = 0x32#8 ∨ f[1] = 0x33#8
    let digits (f : Frame) : Prop :=
      ∀ k : Fin 11, 3 ≤ k.val → k.val ≤ 8 → 0x30 ≤ f[k].toNat ∧ f[k].toNat ≤ 0x39
    (¬framed (goodFrame.set 10 0x02)) ∧
    (framed (goodFrame.set 9 0x75) ∧ ¬summed (goodFrame.set 9 0x75)) ∧
    (let f := goodFrame.set 1 0x34 |>.set 9 0x71; framed f ∧ summed f ∧ ¬selects f) ∧
    (let f := goodFrame.set 2 0x58 |>.set 9 0x69; framed f ∧ summed f ∧ selects f ∧ f[2] = 0x58#8) ∧
    (let f := goodFrame.set 8 0x3A |>.set 9 0x7E; framed f ∧ summed f ∧ selects f ∧ f[2] = 0x45#8 ∧ ¬digits f) ∧
    (framed goodFrame ∧ summed goodFrame ∧ selects goodFrame ∧ goodFrame[2] = 0x45#8 ∧ digits goodFrame) := by
  decide +kernel

/-- SingleBitChangeDropped: a valid frame, the lowest and highest bit, the first and last offsets, and a state that
holds the changed frame. -/
theorem witness_SingleBitChangeDropped :
    goodFrame[0] = stx ∧ goodFrame[10] = etx ∧ goodFrame[9] = cks goodFrame ∧
    decode true (goodFrame.set 1 0x30) = .drop .badChecksum ∧
    decode true (goodFrame.set 9 0xF4) = .drop .badChecksum ∧
    { machine with parser := Parser.idleWith (goodFrame.set 1 0x30) }.parser.buf = goodFrame.set 1 0x30 ∧
    decode true ((goodFrame.set 1 0x33).set 8 0x32) = .cmd (.ena .axis2 2) := by decide +kernel

/-- ResetState: the parameters of the interval's clause. -/
theorem witness_ResetState :
    Config.example95.vMinSps = 0x43FA0000#32 ∧
    1000 ≤ { Config.example95 with timerMaxUs := 1000#32 }.timerMaxUs.toNat := by decide +kernel

/-- ResetMeetsInvariant: the example parameters, and the ends of the integer ranges. -/
theorem witness_ResetMeetsInvariant :
    Config.example95.wf = true ∧
    Config.wf { Config.example95 with
      stepsPerRev := 65535, timerMaxUs := 0xFFFFFFFF#32, dtDivisor := 2, adcMax := 1 } = true ∧
    Config.wf { Config.example95 with stepsPerRev := 1, timerMaxUs := 1#32 } = true := by decide +kernel

/-- The invariant holds of the machine after reset with the example parameters. -/
theorem machine_inv : machine.Inv where
  params := by decide +kernel
  axes := by
    intro a
    cases a <;>
      refine ⟨by decide +kernel, by decide +kernel, (fun h hh => nomatch hh), by decide +kernel, by decide +kernel⟩
  parser := by decide +kernel
  timeBase := by decide +kernel
  drops := by decide +kernel
  timers := by intro a; cases a <;> decide +kernel
  telemDue := by decide +kernel

/-- The invariant holds in the middle of a move and of a frame, with a tick and the telemetry due. -/
theorem running_inv : running.Inv where
  params := by decide +kernel
  axes := by
    intro a
    cases a <;>
      refine ⟨by decide +kernel, by decide +kernel, (fun h hh => nomatch hh), by decide +kernel, by decide +kernel⟩
  parser := by decide +kernel
  timeBase := by decide +kernel
  drops := by decide +kernel
  timers := by intro a; cases a <;> decide +kernel
  telemDue := by decide +kernel

/-- The speeds are legal in that state. -/
theorem running_speeds : ∀ a, SpeedsOk (running.axis.get a) := by
  intro a; cases a <;> decide +kernel

/-- StepKeepsInvariant: a state that meets the invariant and takes a step,
by a tick, by a received byte and by one µs. -/
theorem witness_StepKeepsInvariant :
    running.Inv ∧ (next? (step running)).isSome ∧
    machine.Inv ∧ (next? (step machine)).isSome ∧
    (next? (step (facing (.host (.rx 0x02)) machine))).isSome :=
  ⟨running_inv, by decide +kernel, machine_inv, by decide +kernel, by decide +kernel⟩

/-- StepNeverStops. -/
theorem witness_StepNeverStops : machine.Inv ∧ running.Inv := ⟨machine_inv, running_inv⟩

/-- StepKeepsSpeedsLegal. -/
theorem witness_StepKeepsSpeedsLegal :
    running.Inv ∧ (∀ a, SpeedsOk (running.axis.get a)) ∧ (next? (step running)).isSome :=
  ⟨running_inv, running_speeds, by decide +kernel⟩

/-- NothingButResetClears: a full flag and a drop before a step. -/
theorem witness_NothingButResetClears :
    let s := { machine with
      ch := machine.ch.set .axis0 { Channel.reset with full := true }
      dropLog := [{ cause := .badChecksum, frame := goodFrame }] }
    (s.ch.get .axis0).full = true ∧ (next? (step s)).isSome := by decide +kernel

/-- StartEffect: both ends of the step count, both modes. -/
theorem witness_StartEffect :
    0 ≤ 999999 ∧ 999999 ≤ 999999 ∧ ((withAxis base).axis.get .axis0).trapezoidEnabled = true ∧
    ((withAxis { base with trapezoidEnabled := false }).axis.get .axis0).trapezoidEnabled = false := by decide +kernel

/-- SpeedEffect: both modes, the least and the greatest value, and 0. -/
theorem witness_SpeedEffect :
    Config.example95.stepsPerRev = 200 ∧ (0 : Nat) = 0 ∧ 0 < 1 ∧ 0 < 999999 ∧ ((withAxis base).axis.get .axis0).trapezoidEnabled = true ∧
    ((withAxis { base with trapezoidEnabled := false }).axis.get .axis0).trapezoidEnabled = false := by decide +kernel

/-- TrapFlipEffect: both modes. -/
theorem witness_TrapFlipEffect :
    (withAxis base).cfg.aMode = .flip ∧ ((withAxis base).axis.get .axis0).trapezoidEnabled = true ∧
    ((withAxis { base with trapezoidEnabled := false }).axis.get .axis0).trapezoidEnabled = false := by decide +kernel

/-- TrapByValueEffect: both modes with a request for each. -/
theorem witness_TrapByValueEffect :
    let s := { withAxis base with cfg := { Config.example95 with aMode := .byValue } }
    s.cfg.aMode = .byValue ∧ (s.axis.get .axis0).trapezoidEnabled = true ∧ decide ((0 : Nat) ≠ 0) = false ∧
    decide ((1 : Nat) ≠ 0) = true ∧ (s.updAxis .axis0 fun x =>
      { x with trapezoidEnabled := false }).axis.ax0.trapezoidEnabled = false := by decide +kernel

/-- QueryRotationEffect: with and without the option. -/
theorem witness_QueryRotationEffect :
    machine.cfg.hasX = true ∧ { machine with cfg := { Config.example95 with hasX := false } }.cfg.hasX = false := by
  decide +kernel

/-- A block that holds the first ten bytes of a frame, with its eleventh the next event. -/
def atLastByte (f : Frame) (s : State) : State :=
  { s with agenda := [.host (.rx f[10])], parser := { pstate := .accum, buf := f.set 10 0x00, idx := 10 } }

/-- QueryFrameReplies: a `C` frame, an `X` frame, and an `X` frame to a block without the option. -/
theorem witness_QueryFrameReplies :
    let c := atLastByte (goodFrame.set 2 0x43 |>.set 9 0x72) machine
    let f := goodFrame.set 2 0x58 |>.set 9 0x69
    let x := atLastByte f machine
    let n := atLastByte f { machine with cfg := { Config.example95 with hasX := false } }
    c.agenda = .host (.rx 0x03) :: [] ∧ c.parser.pstate = .accum ∧ c.parser.idx.val = 10 ∧
    decode c.cfg.hasX (c.parser.buf.set 10 0x03) = .cmd (.qcur .axis0 0) ∧
    decode x.cfg.hasX (x.parser.buf.set 10 0x03) = .cmd (.qrot .axis0 0) ∧
    n.cfg.hasX = false ∧ n.parser.buf.set 10 0x03 = f ∧ f[0] = stx ∧ f[10] = etx ∧ f[9] = cks f ∧
    f[1] ∈ [0x31#8, 0x32#8, 0x33#8] ∧ f[2] = 0x58#8 := by decide +kernel

/-- RepliesOnlyFromQueries: the last byte of a query, the last byte of another command, a byte before the last. -/
theorem witness_RepliesOnlyFromQueries :
    let result (f : Frame) := (next? (step (atLastByte f machine))).map fun t =>
      (t.parser.pstate, decode machine.cfg.hasX t.parser.buf)
    let q := goodFrame.set 2 0x43 |>.set 9 0x72
    (atLastByte q machine).parser.pstate = .accum ∧ (atLastByte q machine).parser.idx.val = 10 ∧
    result q = some (.idle, .cmd (.qcur .axis0 0)) ∧ result goodFrame = some (.idle, .cmd (.ena .axis0 0)) ∧
    (let s := facing (.host (.rx 0x30)) { machine with parser := { pstate := .accum, buf := goodFrame, idx := 9 } }
     s.parser.idx.val ≠ 10 ∧ (next? (step s)).isSome) := by decide +kernel

/-- CommandsWriteOnlyTheirFields: a command that changes the fields it may change. -/
theorem witness_CommandsWriteOnlyTheirFields :
    axisAfter (.stop .axis0 0) moving ≠ some moving ∧ (axisAfter (.stop .axis0 0) moving).isSome := by
  decide +kernel

/-- CommandsAreAxisLocal: two states that agree on one axis and differ on another. -/
theorem witness_CommandsAreAxisLocal :
    let s := withAxis moving
    let s' := s.updAxis .axis1 fun x => { x with enaOutN := 0#1 }
    (next? (exec (.stop .axis0 0) s)).isSome ∧ (next? (exec (.stop .axis0 0) s')).isSome ∧ s'.cfg = s.cfg ∧
    s'.axis.get .axis0 = s.axis.get .axis0 ∧ s'.axis ≠ s.axis ∧ AxisId.axis1 ≠ .axis0 := by decide +kernel

/-- ParserTakesBytes: idle before STX and before another byte, and accumulating before the second and tenth. -/
theorem witness_ParserTakesBytes :
    (facing (.host (.rx 0x02)) machine).agenda = .host (.rx 0x02) :: [] ∧ machine.parser.pstate = .idle ∧
    (0x03 : Byte) ≠ 0x02#8 ∧
    (let s := facing (.host (.rx 0x02)) { machine with parser := { pstate := .accum, buf := goodFrame, idx := 9 } }
     s.agenda = .host (.rx 0x02) :: [] ∧ s.parser.pstate = .accum ∧ s.parser.idx = 9) := by decide +kernel

/-- StepRunsDecodedInstruction: an eleventh byte that completes a command, and one that spoils it. -/
theorem witness_StepRunsDecodedInstruction :
    let s (b : Byte) := facing (.host (.rx b)) { machine with parser := { pstate := .accum, buf := goodFrame, idx := 10 } }
    (s 0x03).agenda = .host (.rx 0x03) :: [] ∧ (s 0x03).parser.pstate = .accum ∧ (s 0x03).parser.idx.val = 10 ∧
    decode (s 0x03).cfg.hasX ((s 0x03).parser.buf.set 10 0x03) = .cmd (.ena .axis0 0) ∧
    decode (s 0x02).cfg.hasX ((s 0x02).parser.buf.set 10 0x02) = .drop .badFraming := by decide +kernel

/-- ElevenBytesRunTheInstruction. -/
theorem witness_ElevenBytesRunTheInstruction :
    (Instr.ena .axis0 0).wf machine.cfg.hasX = true ∧ machine.parser.pstate = .idle ∧
    { machine with agenda := (encode (.ena .axis0 0)).toList.map fun b => .host (.rx b) }.agenda =
      (encode (.ena .axis0 0)).toList.map (fun b => Event.host (.rx b)) ++ [] := by decide +kernel

/-- FetchedWordRunsNext: R124's word at the state after reset. -/
theorem witness_FetchedWordRunsNext :
    State.reset.cfg.hasX = Config.current.hasX ∧
    decodeTableWord 88 0x02314D3030303130307D03 = some (.start .axis0 100) := by decide +kernel

/-- TxPopTakesOldest: with a reply byte and with none. -/
theorem witness_TxPopTakesOldest :
    (facing (.host .txPop) running).agenda = .host .txPop :: [] ∧
    (facing (.host .txPop) running).txq = 0x02 :: [0x31] ∧ (facing (.host .txPop) machine).txq = [] := by decide +kernel

/-- TickIsAxisLocal: an enabled axis and a disabled one. -/
theorem witness_TickIsAxisLocal :
    (facing (.schedTick .axis1) machine).agenda = .schedTick .axis1 :: [] ∧
    (machine.axis.get .axis1).enabled = false ∧ ((withAxis moving).axis.get .axis0).enabled = true := by decide +kernel

/-- RisingEdgeAccounting: each edge and each count. -/
theorem witness_RisingEdgeAccounting :
    base.enabled = true ∧ base.stepLevel = 0#1 ∧ base.remainingSteps = 0#32 ∧
    { base with stepLevel := 1#1 }.stepLevel = 1#1 ∧
    { moving with remainingSteps := 1#32 }.remainingSteps = 1#32 ∧
    1 < { moving with remainingSteps := 2#32 }.remainingSteps.toNat := by decide +kernel

/-- IntervalAfterTick: trapezoid mode off and on. -/
theorem witness_IntervalAfterTick :
    base.enabled = true ∧ { base with trapezoidEnabled := false }.trapezoidEnabled = false ∧
    base.trapezoidEnabled = true ∧ (tick base).enabled = true := by decide +kernel

/-- BoundedMoveEndsOnTime: a move of one step and of the most a frame can carry, from each level of the line. -/
theorem witness_BoundedMoveEndsOnTime :
    { base with remainingSteps := 1#32 }.enabled = true ∧
    { base with remainingSteps := 1#32 }.remainingSteps.toNat = 1 ∧
    { base with remainingSteps := 999999#32, stepLevel := 1#1 }.remainingSteps.toNat = 999999 ∧ 0 < 1 := by decide +kernel

/-- SpeedAfterTick, clause by clause: unbounded motion, a counted plan at the last step of the first phase, the first
and last of the second and the first of the third, and no plan. -/
theorem witness_SpeedAfterTick :
    let on (x : Axis) := x.enabled = true ∧ x.trapezoidEnabled = true ∧ (tick x).enabled = true
    let x (done : Nat) : Axis :=
      { moving with plan := some (planOf 10 done 2 5 3 0x44480000#32), remainingSteps := BitVec.ofNat 32 (10 - done) }
    on base ∧ base.remainingSteps = 0#32 ∧
    on (x 0) ∧ on (x 1) ∧ on (x 5) ∧ on (x 6) ∧ (x 6).stepLevel = 0#1 ∧ (x 6).remainingSteps - 1#32 ≠ 0#32 ∧
    0 + 1 < 2 ∧ 2 ≤ 1 + 1 ∧ 5 + 1 < 2 + 5 ∧ 2 + 5 ≤ 6 + 1 ∧
    on { moving with plan := none } ∧ moving.remainingSteps - 1#32 ≠ 0#32 := by decide +kernel

/-- StopIsTheOnlyCancellation: STOP answered at an axis in a move, a step that takes STOP's last byte and one that
makes the last step of a move, and unbounded motion before STOP and before START. -/
theorem witness_StopIsTheOnlyCancellation :
    let stopFrame := encode (.stop .axis0 0)
    let ended (s : State) := (next? (step s)).map (·.axis.ax0.enabled)
    (next? (exec (.stop .axis0 0) (withAxis moving))).map (·.axis.ax0.enabled) = some false ∧
    (withAxis moving).axis.ax0.enabled = true ∧ base.enabled = true ∧ base.remainingSteps = 0#32 ∧
    ended (atLastByte stopFrame (withAxis base)) = some false ∧
    ended (facing (.schedTick .axis0) (withAxis { moving with remainingSteps := 1#32 })) = some false ∧
    (next? (step (atLastByte (encode (.start .axis0 1)) (withAxis base)))).map (·.axis.ax0.remainingSteps) =
      some 1#32 := by decide +kernel

/-- RampsDoNotOvershoot: speeds on either side of the goal and a step of 0 and of 2.5. -/
theorem witness_RampsDoNotOvershoot :
    F32.isFinite 0x43FA0000#32 = true ∧ F32.isFinite 0x447A0000#32 = true ∧
    F32.isFinite Config.example95.vMinSps = true ∧ F32.isNaN 0x40200000#32 = false ∧
    0 ≤ Binary32.units 0x40200000#32 ∧ 0 ≤ Binary32.units 0#32 ∧
    Binary32.units 0x43FA0000#32 ≤ Binary32.units 0x447A0000#32 ∧
    Binary32.units Config.example95.vMinSps ≤ Binary32.units 0x447A0000#32 := by decide +kernel

/-- PlannedPhases: the last step of the first phase, the first and last of the second, the first of the third. -/
theorem witness_PlannedPhases :
    let p (done : Nat) := planOf 10 done 2 5 3 0x44480000#32
    F32.isFinite (p 0).peakSpeedSps = true ∧ (p 1).stepsDone.toNat < (p 1).accelSteps.toNat ∧
    (p 2).accelSteps.toNat ≤ (p 2).stepsDone.toNat ∧
    (p 6).stepsDone.toNat < (p 6).accelSteps.toNat + (p 6).cruiseSteps.toNat ∧
    (p 7).accelSteps.toNat + (p 7).cruiseSteps.toNat ≤ (p 7).stepsDone.toNat ∧
    Binary32.units 0x43FA0000#32 ≤ Binary32.units (p 0).peakSpeedSps ∧ F32.isFinite 0x43FA0000#32 = true ∧
    F32.isFinite Config.example95.vMinSps = true ∧ F32.isNaN 0#32 = false ∧ 0 ≤ Binary32.units 0#32 := by
  decide +kernel

/-- HalfPeriodConversion: a speed of 0, one whose half-period has an integer floor, and timers at the ends of the
clauses. -/
theorem witness_HalfPeriodConversion :
    1 ≤ Config.example95.timerMaxUs.toNat ∧ Binary32.le 0#32 0#32 = true ∧
    Binary32.le 0x447A0000#32 0#32 = false ∧
    Binary32.floor (Binary32.div 0x48F42400#32 0x447A0000#32) = .int 500 ∧
    1501 ≤ { Config.example95 with timerMaxUs := 1501#32 }.timerMaxUs.toNat ∧
    Config.example95.timerMaxUs.toNat < 166666 := by decide +kernel

/-- RoundingIsNearestEven: a tie, 2^24 + 1 units over 1, between two neighbours. -/
theorem witness_RoundingIsNearestEven :
    let r := Binary32.roundMag (2 ^ 24 + 1) 1
    let b := r + 1
    0 < 1 ∧ r < F32.infBits ∧ b < F32.infBits ∧ b ≠ r ∧
    (((2 ^ 24 + 1 : Nat) : Int) - (Binary32.magUnits b * 1 : Nat)).natAbs =
      (((2 ^ 24 + 1 : Nat) : Int) - (Binary32.magUnits r * 1 : Nat)).natAbs := by decide +kernel

/-- OperationsRoundOnce: 3.0 and 2.0 meet every clause. -/
theorem witness_OperationsRoundOnce :
    F32.isFinite 0x40400000#32 = true ∧ F32.isFinite 0x40000000#32 = true ∧
    Binary32.units 0x40400000#32 + Binary32.units 0x40000000#32 ≠ 0 ∧
    Binary32.units 0x40400000#32 - Binary32.units 0x40000000#32 ≠ 0 ∧
    Binary32.magUnits (F32.magBits 0x40000000#32) ≠ 0 ∧ 0 < Binary32.units 0x40400000#32 := by decide +kernel

/-- PlanBranches: the two sides of the branch (PL-3, PL-5). -/
theorem witness_PlanBranches :
    let twoA := Binary32.mul (Binary32.ofInt 2) 0x451C4000#32
    let d := rndSat binary32 (rampDistance binary32 0x447A0000#32 0x43FA0000#32 twoA)
    d + d ≤ (300#32 : U32).toNat ∧ (299#32 : U32).toNat < d + d := by decide +kernel

/-- RealTrianglePeakWithinBounds: from 1 to 2 at 1 the ramps are two steps each, one more than the move. -/
theorem witness_RealTrianglePeakWithinBounds :
    (0 : ℝ) < 1 ∧ (0 : ℝ) < 2 ∧ 0 < (1#32 : U32).toNat ∧
    (let d := rndSat realNumerics (rampDistance realNumerics 2 1 (2 * (1 : ℝ)))
     (1#32 : U32).toNat < d + d) := by
  refine ⟨by norm_num, by norm_num, by decide +kernel, ?_⟩
  have h : rampDistance realNumerics (2 : ℝ) 1 (2 * 1) = 3 / 2 := by
    norm_num [rampDistance, realNumerics]
  have hf : ⌊(3 / 2 : ℝ) + 1 / 2⌋ = 2 := by norm_num [Int.floor_eq_iff]
  have hd : rndSat realNumerics (3 / 2 : ℝ) = 2 := by
    simp only [rndSat, realNumerics, hf]; decide +kernel
  rw [h, hd]; decide +kernel

/-- RealPlanBelowStartSpeed: below the start speed, and at it. -/
theorem witness_RealPlanBelowStartSpeed :
    (0 : ℝ) < 1 ∧ (1 : ℝ) ≤ 2 ∧ (2 : ℝ) ≤ 2 ∧ (0 : ℝ) < 1 := by norm_num

/-- SampleConversion: a conversion that gives an integer, and the examples' parameters. -/
theorem witness_SampleConversion :
    (let c := Config.example95
     let volts := Binary32.div (Binary32.mul (Binary32.ofInt 532) c.adcVrefV) c.adcRes
     Binary32.trunc (Binary32.mul (Binary32.div (Binary32.sub volts c.sensZeroV) c.sensVPerA)
       (Binary32.ofInt 1000)) = .int 976) ∧
    Config.example95.adcVrefV = 0x40A00000#32 ∧ Config.example95.adcRes = 0x44800000#32 ∧
    Config.example95.sensZeroV = 0x40200000#32 ∧ Config.example95.sensVPerA = 0x3DCCCCCD#32 := by decide +kernel

/-- TelemetryTick: the tick at which the sample falls due, and one at which the average does too. -/
theorem witness_TelemetryTick :
    (facing .telemTick machine).agenda = .telemTick :: [] ∧
    2 ≤ ((1#32 : U32) + 1#32 - 0#32).toNat ∧ 100 ≤ ((99#32 : U32) + 1#32 - 0#32).toNat := by decide

/-- RingWrite: fifty samples from a cursor at each end of the ring. -/
theorem witness_RingWrite :
    (List.replicate 50 (976#32 : I32)).length = 50 ∧ Channel.reset.wr = 0 ∧
    { Channel.reset with wr := 49 }.wr = 49 := by decide

/-- EnvironmentSetsPorts: each port's event, another event, and a raw sample above the largest. -/
theorem witness_EnvironmentSetsPorts :
    (facing (.host (.setAdc .axis1 1024)) machine).agenda = .host (.setAdc .axis1 1024) :: [] ∧
    (facing (.host (.setRpm .axis2 1#32)) machine).agenda = .host (.setRpm .axis2 1#32) :: [] ∧
    (next? (takeEvent .telemTick machine)).isSome ∧ machine.cfg.adcMax < 1024 := by decide +kernel

/-- AverageIsTruncatedMean: no sample, some, a full ring. -/
theorem witness_AverageIsTruncatedMean :
    Channel.reset.count = 0 ∧ 0 < { Channel.reset with wr := 49 }.count ∧
    { Channel.reset with full := true }.count = 50 := by decide +kernel

/-- FiftySamplesAverage. -/
theorem witness_FiftySamplesAverage : (List.replicate 50 (976#32 : I32)).length = 50 := by decide +kernel

/-- TelemetryAndMotionAreApart: an event of each kind is taken. -/
theorem witness_TelemetryAndMotionAreApart :
    (next? (takeEvent .telemTick machine)).isSome ∧ Event.schedTick .axis0 ≠ .telemTick ∧
    (next? (takeEvent (.schedTick .axis0) (withAxis base))).isSome := by decide +kernel

/-- TimedPriority, clause by clause: axis 0 due (at its period exactly), only axis 1, only axis 2, the telemetry, a
byte behind a pop, and a pop alone. -/
theorem witness_TimedPriority :
    let due := fun (s : State) a => (s.axis.get a).stepIntervalUs.toNat ≤ (s.timer.get a).toNat
    let none' := fun s : State => ¬due s .axis0 ∧ ¬due s .axis1 ∧ ¬due s .axis2
    let pop : Arrival := ⟨0, .txPop⟩
    let byte : Arrival := ⟨0, .rx 0x02⟩
    machine.agenda = [] ∧ due { machine with timer := machine.timer.set .axis0 1000#32 } .axis0 ∧
    (let s := { machine with timer := machine.timer.set .axis1 1000#32 }; ¬due s .axis0 ∧ due s .axis1) ∧
    (let s := { machine with timer := machine.timer.set .axis2 1000#32 }
     ¬due s .axis0 ∧ ¬due s .axis1 ∧ due s .axis2) ∧
    (none' { machine with telemDue := true }) ∧
    (let s := { machine with arrivals := [pop, byte] }
     none' s ∧ s.telemDue = false ∧ s.arrivals = [pop] ++ byte :: [] ∧ byte.time ≤ s.t ∧ byte.ev ≠ .txPop ∧
     (∀ y ∈ [pop], s.t < y.time ∨ y.ev = .txPop)) ∧
    (let s := { machine with arrivals := [pop] }
     none' s ∧ s.arrivals = [] ++ pop :: [] ∧ pop.time ≤ s.t) := by decide +kernel

/-- TimeMovesWhenNothingIsDue: a state where time moves, one where a tick is due. -/
theorem witness_TimeMovesWhenNothingIsDue :
    machine.Inv ∧ machine.agenda = [] ∧ (next? (step machine)).map (·.t) = some 1 ∧
    running.Inv ∧ running.agenda = [] ∧ running.tickDue .axis0 = true ∧
    (next? (step running)).map (·.t) = some 1000 :=
  ⟨machine_inv, rfl, by decide +kernel, running_inv, rfl, by decide +kernel, by decide +kernel⟩

/-! `NUMERIC = REAL`. -/

/-- The example parameters of 95_test_vectors.md as real numbers. -/
noncomputable def realExample : ConfigOf ℝ where
  vMinSps := 500
  aMinSps2 := 1
  stepsPerRev := 200
  timerMaxUs := 65535#32
  dtDivisor := 1
  vClearsPlan := true
  dirUpdate := .atStart
  dirFwdLevel := 0#1
  aMode := .flip
  hasX := true
  resetTrapezoid := true
  resetTargetSps := 500
  adcVrefV := 5
  adcRes := 1024
  adcMax := 1023
  sensZeroV := 5 / 2
  sensVPerA := 1 / 10

/-- The machine under `REAL` after reset with those parameters. -/
noncomputable def realMachine : State ℝ := State.resetOf realNumerics realExample

/-- 95_test_vectors.md 2.8, the vector RC-1: `sps(1)` is 10/3 under `REAL`. -/
theorem test_real_sps : sps realNumerics realExample 1 = 10 / 3 := by
  norm_num [sps, realNumerics, realExample]

/-- 95_test_vectors.md 2.8, the peak of the vector PL-2: the root of 260000 under `REAL`. -/
theorem test_real_peak : trianglePeak realNumerics 500 1000 500 2500 4#32 = Real.sqrt 260000 := by
  have h1 : (500 : ℝ) ≤ Real.sqrt 260000 := Real.le_sqrt_of_sq_le (by norm_num)
  have h2 : Real.sqrt 260000 ≤ 1000 := by
    rw [Real.sqrt_le_left (by norm_num)]; norm_num
  have h3 : (2500 * 4 + 500 * 500 : ℝ) = 260000 := by norm_num
  simp [trianglePeak, realNumerics]
  rw [h3, if_neg (by norm_num), min_eq_left h2, max_eq_right h1]

theorem realMachine_inv : realMachine.RealInv where
  axes := by
    intro a
    have h : IntervalOk realExample (halfPeriod realNumerics realExample realExample.vMinSps 1#32) :=
      halfPeriod_ok _ _ (by decide) (by decide)
    cases a <;>
      exact ⟨by decide, h, fun h hh => (nomatch hh), fun p hp => (nomatch hp), fun _ => rfl⟩
  parser := by decide
  timeBase := by decide
  drops := fun d hd => (nomatch hd)
  timers := by intro a; cases a <;> exact Nat.zero_le _
  telemDue := fun h => (nomatch h)
  params := by norm_num [realMachine, State.resetOf, realExample, RealParamsOk]
  speeds := by
    intro a
    cases a <;>
      exact ⟨by norm_num [realMachine, State.resetOf, PerAxis.all, PerAxis.get, AxisOf.reset, realNumerics],
        by norm_num [realMachine, State.resetOf, PerAxis.all, PerAxis.get, AxisOf.reset, realExample],
        fun p hp => (nomatch hp)⟩

/-- RealOperationsAreExact: a divisor that is not 0, numbers on either side of 0, and 0 (its clause on the commands has
no hypothesis). -/
theorem witness_RealOperationsAreExact : (2 : ℝ) ≠ 0 ∧ (0 : ℝ) ≤ 0 ∧ (-1 : ℝ) < 0 := by norm_num

/-- RealStepRunsDecodedInstruction: an eleventh byte that completes a command, and one that spoils it. -/
theorem witness_RealStepRunsDecodedInstruction :
    let s (b : Byte) : State ℝ :=
      { realMachine with
        agenda := [.host (.rx b)], parser := { pstate := .accum, buf := goodFrame, idx := 10 } }
    (s 0x03).agenda = .host (.rx 0x03) :: [] ∧ (s 0x03).parser.pstate = .accum ∧ (s 0x03).parser.idx.val = 10 ∧
    decode (s 0x03).cfg.hasX ((s 0x03).parser.buf.set 10 0x03) = .cmd (.ena .axis0 0) ∧
    decode (s 0x02).cfg.hasX ((s 0x02).parser.buf.set 10 0x02) = .drop .badFraming :=
  ⟨rfl, rfl, rfl, by decide, by decide⟩

/-- An axis of the machine under `REAL` in motion: its edge line, its steps left, its speed and its plan. -/
noncomputable def realAxis (level : Bit) (rem : U32) (cur : ℝ) (plan : Option (MotionPlanOf ℝ)) : AxisOf ℝ :=
  { AxisOf.reset realNumerics realExample with
    enabled := true, stepLevel := level, remainingSteps := rem, currentSpeedSps := cur, accelerationSps2 := 0,
    plan := plan }

/-- A plan of 2 accelerating, 5 cruising and 3 decelerating steps under `REAL`. -/
noncomputable def realPlan (done : U32) : MotionPlanOf ℝ := ⟨10#32, done, 2#32, 5#32, 3#32, 800⟩

/-- RealCommandsAndTicks, the commands: a speed on either side of 0, the ends of the step count and of the rpm, both
modes, requests of `A` that change the mode and that do not, with and without the option `X`. -/
theorem witness_RealCommandsAndTicks :
    let off := realMachine.updAxis .axis0 fun x => { x with trapezoidEnabled := false }
    let requested (s : State ℝ) (v : Nat) := trapRequest s.cfg v (s.axis.get .axis0).trapezoidEnabled
    let byValue (s : State ℝ) : State ℝ := { s with cfg := { s.cfg with aMode := .byValue } }
    1 ≤ realExample.timerMaxUs.toNat ∧ (0 : ℝ) ≤ 0 ∧ (0 : ℝ) < 500 ∧ 0 ≤ 999999 ∧ 999999 ≤ 999999 ∧ 0 < 1 ∧
    (realMachine.axis.get .axis0).trapezoidEnabled = true ∧ (off.axis.get .axis0).trapezoidEnabled = false ∧
    requested realMachine 0 = false ∧ requested off 0 = true ∧
    requested (byValue realMachine) 1 = true ∧ requested (byValue off) 0 = false ∧
    realMachine.cfg.hasX = true ∧
    { realMachine with cfg := { realExample with hasX := false } }.cfg.hasX = false :=
  ⟨by decide, le_refl _, by norm_num, by decide, le_refl _, by decide, rfl, rfl, rfl, rfl, rfl, rfl, rfl, rfl⟩

/-- RealCommandsAndTicks, the tick: a disabled axis; trapezoid mode off; the last step; unbounded motion below, above
and at its target; each phase of a plan at its ends, below and at the peak, above and at the least speed; and with no
plan the distance left at most, and more than, the distance to stop. -/
theorem witness_RealCommandsAndTicks_tick :
    realExample.dtDivisor = 1 ∧ { realExample with dtDivisor := 2 }.dtDivisor = 2 ∧ 0 < realExample.aMinSps2 ∧
    (AxisOf.reset realNumerics realExample).enabled = false ∧
    (realAxis 0#1 0#32 500 none).enabled = true ∧
    { realAxis 0#1 0#32 500 none with trapezoidEnabled := false }.trapezoidEnabled = false ∧
    ((realAxis 0#1 1#32 500 none).stepLevel = 0#1 ∧ (realAxis 0#1 1#32 500 none).remainingSteps = 1#32) ∧
    (∀ cur, (realAxis 0#1 0#32 cur none).remainingSteps = 0#32 ∧
      (realAxis 0#1 0#32 cur none).trapezoidEnabled = true ∧
      (realAxis 0#1 0#32 cur none).currentSpeedSps = cur ∧ (realAxis 0#1 0#32 cur none).targetSpeedSps = 500) ∧
    (∀ cur done, (realAxis 0#1 9#32 cur (some (realPlan done))).plan = some (realPlan done) ∧
      (realAxis 0#1 9#32 cur (some (realPlan done))).currentSpeedSps = cur ∧
      (realAxis 0#1 9#32 cur (some (realPlan done))).remainingSteps - 1#32 ≠ 0#32) ∧
    ((realPlan 0#32).stepsDone + 1#32).toNat < 2 ∧ 2 ≤ ((realPlan 1#32).stepsDone + 1#32).toNat ∧
    ((realPlan 5#32).stepsDone + 1#32).toNat < 2 + 5 ∧ 2 + 5 ≤ ((realPlan 6#32).stepsDone + 1#32).toNat ∧
    (500 : ℝ) < (realPlan 0#32).peakSpeedSps ∧ (realPlan 0#32).peakSpeedSps ≤ 800 ∧
    realExample.vMinSps < 800 ∧ (500 : ℝ) ≤ realExample.vMinSps ∧
    (let rest (cur : ℝ) := cur * cur / (2 * max |(realAxis 1#1 3#32 cur none).accelerationSps2| realExample.aMinSps2)
     (realAxis 1#1 3#32 500 none).plan = none ∧ (realAxis 1#1 3#32 500 none).remainingSteps ≠ 0#32 ∧
     (((realAxis 1#1 3#32 500 none).remainingSteps.toNat : Nat) : ℝ) ≤ rest 500 ∧
     rest 1 < (((realAxis 1#1 3#32 1 none).remainingSteps.toNat : Nat) : ℝ)) := by
  refine ⟨rfl, rfl, by norm_num [realExample], rfl, rfl, rfl, ⟨rfl, rfl⟩, fun _ => ⟨rfl, rfl, rfl, rfl⟩,
    fun _ _ => ⟨rfl, rfl, (by decide : (9#32 : U32) - 1#32 ≠ 0#32)⟩, by decide, by decide, by decide, by decide,
    by norm_num [realPlan], by norm_num [realPlan], by norm_num [realExample], by norm_num [realExample], rfl, by decide, ?_, ?_⟩ <;>
    norm_num [realAxis, realExample]

/-- RealStepKeepsInvariant. -/
theorem witness_RealStepKeepsInvariant : realMachine.RealInv := realMachine_inv

/-- RealResetMeetsInvariant. -/
theorem witness_RealResetMeetsInvariant : Config.example95.wf = true := by decide +kernel

end Sys2Proof.Tests
end

/-! The proofs about frames (30_encoding.md). First what each check of the decoder (R120) says of a byte, then
`decode` check by check, then the reply frame, and last the obligations. -/

namespace Sys2Proof

variable {hasX : Bool} {a : AxisId} {b : Byte} {v : Nat} {f : Frame} {i : Instr}

/-! The selector (R112). -/

theorem axisOf_eq_none (h : ¬(b = 0x31#8 ∨ b = 0x32#8 ∨ b = 0x33#8)) : axisOf b = none := by
  simp only [not_or] at h
  simp [axisOf, h]

/-- A selector names the axis it counts from `'1'`. -/
theorem exists_axisOf_eq_some (h : b = 0x31#8 ∨ b = 0x32#8 ∨ b = 0x33#8) :
    ∃ a, axisOf b = some a ∧ a.index = b.toNat - 0x31 := by
  obtain rfl | rfl | rfl := h
  · exact ⟨.axis0, rfl, rfl⟩
  · exact ⟨.axis1, rfl, rfl⟩
  · exact ⟨.axis2, rfl, rfl⟩

/-! The action code (R113, R119). -/

/-- The action codes every block has: those of the ten commands but `X`. -/
def baseCodes : List Byte := [0x4D#8, 0x53#8, 0x46#8, 0x52#8, 0x56#8, 0x45#8, 0x44#8, 0x41#8, 0x43#8]

theorem actionOf_eq_none (h : ¬(b ∈ baseCodes ∨ (b = 0x58#8 ∧ hasX = true))) : actionOf hasX b a v = none := by
  simp only [baseCodes, List.mem_cons, List.not_mem_nil, or_false, not_or] at h
  simp [actionOf, h]

/-- An action code gives the command it is the code of, with the axis and the value it is given. -/
theorem exists_actionOf_eq_some (h : b ∈ baseCodes ∨ (b = 0x58#8 ∧ hasX = true)) :
    ∃ i, actionOf hasX b a v = some i ∧ i.axis = a ∧ i.code = b ∧ i.value = v := by
  simp only [baseCodes, List.mem_cons, List.not_mem_nil, or_false] at h
  obtain (rfl | rfl | rfl | rfl | rfl | rfl | rfl | rfl | rfl) | ⟨rfl, rfl⟩ := h <;>
    exact ⟨_, rfl, rfl, rfl, rfl⟩

/-! The digits (R114). -/

theorem isDigit_iff : isDigit b = true ↔ 0x30 ≤ b.toNat ∧ b.toNat ≤ 0x39 := by simp [isDigit]

theorem allDigits_iff :
    allDigits f = true ↔ ∀ k : Fin 11, 3 ≤ k.val → k.val ≤ 8 → 0x30 ≤ f[k].toNat ∧ f[k].toNat ≤ 0x39 := by
  simp only [allDigits, Bool.and_eq_true, isDigit_iff]
  constructor
  · rintro ⟨⟨⟨⟨⟨h3, h4⟩, h5⟩, h6⟩, h7⟩, h8⟩ ⟨k, _⟩ hlo hhi
    simp only at hlo hhi
    interval_cases k
    exacts [h3, h4, h5, h6, h7, h8]
  · intro h
    exact ⟨⟨⟨⟨⟨h 3 (by decide) (by decide), h 4 (by decide) (by decide)⟩, h 5 (by decide) (by decide)⟩,
      h 6 (by decide) (by decide)⟩, h 7 (by decide) (by decide)⟩, h 8 (by decide) (by decide)⟩

/-! `decode`, check by check (R120). -/

theorem decode_badFraming (h : ¬(f[0] = stx ∧ f[10] = etx)) : decode hasX f = .drop .badFraming :=
  if_pos (not_and_or.mp h)

section
variable (hframed : f[0] = stx ∧ f[10] = etx)
include hframed

theorem decode_badChecksum (h : f[9] ≠ cks f) : decode hasX f = .drop .badChecksum := by
  simp [decode, hframed, h]

variable (hsummed : f[9] = cks f)
include hsummed

theorem decode_badAxis (h : axisOf f[1] = none) : decode hasX f = .drop .badAxis := by
  simp [decode, hframed, hsummed, h]

variable (haxis : axisOf f[1] = some a)
include haxis

theorem decode_badAction (h : actionOf hasX f[2] a (valueOf f) = none) : decode hasX f = .drop .badAction := by
  simp [decode, hframed, hsummed, haxis, h]

variable (haction : actionOf hasX f[2] a (valueOf f) = some i)
include haction

theorem decode_badDigit (h : ¬allDigits f = true) : decode hasX f = .drop .badDigit := by
  simp [decode, hframed, hsummed, haxis, haction, h]

theorem decode_cmd (h : allDigits f = true) : decode hasX f = .cmd i := by
  simp [decode, hframed, hsummed, haxis, haction, h]

end

end Sys2Proof

namespace Sys2Proof.Machine

/-- A completed frame that decodes to a drop is logged, and nothing else changes (R223, 60_exceptions.md R310). -/
theorem Build.completeFrame_drop {R : Type} (B : Build R) {s : State R} {cause : DropCause}
    (h : decode s.cfg.hasX s.parser.buf = .drop cause) : B.completeFrame s = .next (s.raiseDrop cause) := by
  simp [Build.completeFrame, h]

/-! The reply frame (R116 to R118). -/

theorem replyMagnitude_le (v : Int) : replyMagnitude v ≤ 99999 := Nat.min_le_right _ _

/-- Five decimal digits make a number below 100000. -/
theorem fiveDigits_sum {m : Nat} (h : m ≤ 99999) :
    m / 10000 % 10 * 10000 + m / 1000 % 10 * 1000 + m / 100 % 10 * 100 + m / 10 % 10 * 10 + m / 1 % 10 = m := by
  omega

/-- A reply frame byte by byte; the checksum's fold starts from zero. -/
theorem replyFrame_eq (sel : Byte) (v : Int) :
    replyFrame sel v =
      let m := replyMagnitude v
      [stx, sel, signByte v, asciiDigit m 10000, asciiDigit m 1000, asciiDigit m 100, asciiDigit m 10, asciiDigit m 1,
       sel ^^^ signByte v ^^^ asciiDigit m 10000 ^^^ asciiDigit m 1000 ^^^ asciiDigit m 100 ^^^ asciiDigit m 10 ^^^
         asciiDigit m 1, etx] := by
  simp [replyFrame, replyBody]

/-- Settles O6: the five digits are the quotients of the magnitude by the powers of ten, modulo ten. -/
theorem replyFrameBytes : Obligations.ReplyFrameBytes := by
  intro sel v
  have digit_le (w : Nat) : replyMagnitude v / w % 10 ≤ 9 := Nat.le_of_lt_succ (Nat.mod_lt _ (by decide))
  exact ⟨_, _, _, _, _, digit_le 10000, digit_le 1000, digit_le 100, digit_le 10, digit_le 1,
    fiveDigits_sum (replyMagnitude_le v), replyFrame_eq sel v, fun _ => rfl⟩

/-- Settles O3, one clause for each check of `decode`. -/
theorem decodeChecksInOrder : Obligations.DecodeChecksInOrder := by
  intro hasX f framed summed selects acts digits
  refine ⟨decode_badFraming, decode_badChecksum, fun hf hs hsel => ?axis, fun hf hs hsel hact => ?action,
    fun hf hs hsel hact hdig => ?digit, fun hf hs hsel hact hdig => ?command, ?drop⟩
  case axis => exact decode_badAxis hf hs (axisOf_eq_none hsel)
  case action =>
    obtain ⟨a, ha, -⟩ := exists_axisOf_eq_some hsel
    exact decode_badAction hf hs ha (actionOf_eq_none hact)
  case digit =>
    obtain ⟨a, ha, -⟩ := exists_axisOf_eq_some hsel
    obtain ⟨i, hi, -⟩ := exists_actionOf_eq_some (a := a) (v := valueOf f) hact
    exact decode_badDigit hf hs ha hi (mt allDigits_iff.mp hdig)
  case command =>
    obtain ⟨a, ha, hindex⟩ := exists_axisOf_eq_some hsel
    obtain ⟨i, hi, haxis, hcode, hvalue⟩ := exists_actionOf_eq_some (a := a) (v := valueOf f) hact
    exact ⟨i, decode_cmd hf hs ha hi (allDigits_iff.mpr hdig), haxis ▸ hindex, hcode, hvalue⟩
  case drop =>
    rintro s cause rfl rfl hdrop
    exact binary32Build.completeFrame_drop hdrop

end Sys2Proof.Machine

/-! The proofs about the planner (40_planner.md). First `plan` on each side of its branch test (R154, R155), over
either arithmetic, then the obligations. -/

namespace Sys2Proof.Machine

/-- A step count within the move's u32 total keeps its value as a u32. -/
theorem toNat_ofNat_of_le_toNat {k : Nat} {n : U32} (h : k ≤ n.toNat) : (BitVec.ofNat 32 k).toNat = k :=
  (BitVec.toNat_ofNat ..).trans (Nat.mod_eq_of_lt (Nat.lt_of_le_of_lt h n.isLt))

section
variable {R : Type} {N : Numerics R} {v0 vT vE a : R} {n : U32} {A D : Nat}
  (hA : rndSat N (rampDistance N vT v0 (N.mul (N.ofInt 2) a)) = A)
  (hD : rndSat N (rampDistance N vT vE (N.mul (N.ofInt 2) a)) = D)
include hA hD

/-- R154: the two rounded ramps fit in the move. -/
theorem plan_trapezoidal (h : A + D ≤ n.toNat) :
    plan N v0 vT vE a n =
      { totalSteps := n, stepsDone := 0#32, accelSteps := BitVec.ofNat 32 A,
        cruiseSteps := BitVec.ofNat 32 (n.toNat - A - D), decelSteps := BitVec.ofNat 32 D, peakSpeedSps := vT } := by
  subst hA hD
  exact if_pos h

/-- R155: the two rounded ramps do not fit in the move. -/
theorem plan_triangular (h : n.toNat < A + D) :
    let peak := trianglePeak N v0 vT vE a n
    let accel := min n.toNat (rndSat N (rampDistance N peak v0 (N.mul (N.ofInt 2) a)))
    plan N v0 vT vE a n =
      { totalSteps := n, stepsDone := 0#32, accelSteps := BitVec.ofNat 32 accel, cruiseSteps := 0#32,
        decelSteps := BitVec.ofNat 32 (n.toNat - accel), peakSpeedSps := peak } := by
  subst hA hD
  exact if_neg (Nat.not_le_of_lt h)

end

/-- Settles O41: one equation of `plan` for each side of the test; every count is at most N, so none is cut. -/
theorem planBranches : Obligations.PlanBranches := by
  intro v0 vT vE a n twoA distance A D root peak p
  constructor
  · intro hfits
    have hp : p = _ := plan_trapezoidal (A := A) (D := D) rfl rfl hfits
    have hA : A ≤ n.toNat := by omega
    have hD : D ≤ n.toNat := by omega
    have hcruise : n.toNat - A - D ≤ n.toNat := by omega
    rw [hp]
    exact ⟨rfl, toNat_ofNat_of_le_toNat hA, toNat_ofNat_of_le_toNat hD, toNat_ofNat_of_le_toNat hcruise⟩
  · intro hshort
    have hp : p = _ := plan_triangular (A := A) (D := D) rfl rfl hshort
    have haccel : p.accelSteps.toNat = min n.toNat (rndSat binary32 (distance peak v0)) := by
      rw [hp]
      exact toNat_ofNat_of_le_toNat (Nat.min_le_left _ _)
    refine ⟨hp ▸ rfl, hp ▸ rfl, haccel, ?_⟩
    rw [haccel, hp]
    exact toNat_ofNat_of_le_toNat (Nat.sub_le _ _)

/-- Settles O42: both ramps between 500 and 2000 are 468.75 steps, rounded to 469, and fit in the 10000. -/
theorem planWorkedExample : Obligations.PlanWorkedExample := by
  have hramp : rndSat binary32 (rampDistance binary32 0x44FA0000#32 0x43FA0000#32
      (binary32.mul (binary32.ofInt 2) 0x457A0000#32)) = 469 := by decide +kernel
  exact ⟨(plan_trapezoidal hramp hramp (by decide)).trans (by decide), by decide +kernel⟩

end Sys2Proof.Machine

/-! The proofs about the scheduler (41_scheduler.md). First the order that a binary32 sum keeps, then the half-period,
the flip of the step line in one equation and the phases of the speed update over either arithmetic, and last the
obligations. -/

namespace Sys2Proof.Machine.Binary32

/-! Sign change. -/

@[simp] theorem magBits_neg (x : F32) : F32.magBits (neg x) = F32.magBits x := by
  rw [F32.magBits, neg, BitVec.toNat_xor, Nat.xor_mod_two_pow]
  exact Nat.xor_zero _

@[simp] theorem sign_neg (x : F32) : F32.sign (neg x) = !F32.sign x := by
  have sign_eq_msb (y : F32) : F32.sign y = BitVec.msb y := (BitVec.msb_eq_decide y).symm
  rw [sign_eq_msb, sign_eq_msb, neg, BitVec.msb_xor]
  exact Bool.xor_true _

@[simp] theorem units_neg (x : F32) : units (neg x) = -units x := by
  cases h : F32.sign x <;> simp [units, h]

@[simp] theorem isNaN_neg (x : F32) : F32.isNaN (neg x) = F32.isNaN x := by simp [F32.isNaN]

@[simp] theorem isInf_neg (x : F32) : F32.isInf (neg x) = F32.isInf x := by simp [F32.isInf]

@[simp] theorem isFinite_neg (x : F32) : F32.isFinite (neg x) = F32.isFinite x := by simp [F32.isFinite]

/-! A sum with a finite operand. -/

/-- A magnitude pattern is a finite number's, infinity's or a NaN's. -/
theorem isInf_or_isFinite {x : F32} (h : F32.isNaN x = false) : F32.isInf x = true ∨ F32.isFinite x = true := by
  simp only [F32.isNaN, F32.isInf, F32.isFinite, decide_eq_false_iff_not, decide_eq_true_eq] at *
  omega

theorem not_isNaN_of_isFinite {x : F32} (h : F32.isFinite x = true) : F32.isNaN x = false := by
  simp only [F32.isNaN, F32.isFinite, decide_eq_false_iff_not, decide_eq_true_eq] at *
  omega

theorem not_isInf_of_isFinite {x : F32} (h : F32.isFinite x = true) : F32.isInf x = false := by
  simp only [F32.isInf, F32.isFinite, decide_eq_false_iff_not, decide_eq_true_eq] at *
  omega

theorem not_isNaN_pack_of_le_inf {m : Nat} (neg : Bool) (h : m ≤ F32.infBits) : F32.isNaN (pack neg m) = false := by
  have hm : m < 2 ^ 31 := lt_of_le_of_lt h (by decide)
  simpa [F32.isNaN, pack_magBits neg hm] using h

/-- An infinity absorbs a finite operand. -/
theorem add_inf {x y : F32} (hx : F32.isFinite x = true) (hy : F32.isInf y = true) (hn : F32.isNaN y = false) :
    add x y = y := by
  simp [add, not_isNaN_of_isFinite hx, not_isInf_of_isFinite hx, hy, hn]

/-- The exact sum of two finite operands is rounded once; a zero sum has a sign of its own. -/
theorem add_finite {x y : F32} (hx : F32.isFinite x = true) (hy : F32.isFinite y = true) :
    add x y = if units x + units y = 0 then pack (F32.sign x && F32.sign y) 0 else ofUnits (units x + units y) := by
  simp [add, not_isNaN_of_isFinite hx, not_isNaN_of_isFinite hy, not_isInf_of_isFinite hx, not_isInf_of_isFinite hy]

/-- Whatever the sign of a zero sum, its value is that of the rounded exact sum. -/
theorem units_add {x y : F32} (hx : F32.isFinite x = true) (hy : F32.isFinite y = true) :
    units (add x y) = units (ofUnits (units x + units y)) := by
  rw [add_finite hx hy]
  split
  case isTrue hzero =>
    rw [hzero, units_pack _ (by decide)]
    cases F32.sign x && F32.sign y <;> decide
  case isFalse => rfl

/-- A sum with a finite operand is a number. -/
theorem not_isNaN_add {x y : F32} (hx : F32.isFinite x = true) (hn : F32.isNaN y = false) :
    F32.isNaN (add x y) = false := by
  rcases isInf_or_isFinite hn with hy | hy
  · rwa [add_inf hx hy hn]
  · rw [add_finite hx hy]
    split
    · exact not_isNaN_pack_of_le_inf _ (Nat.zero_le _)
    · exact not_isNaN_pack_of_le_inf _ (roundMag_le_inf _ _)

/-- A finite value lies below an infinity that is not negative. -/
theorem units_le_inf {x y : F32} (hx : F32.isFinite x = true) (hy : F32.isInf y = true) (h : 0 ≤ units y) :
    units x ≤ units y := by
  simp only [F32.isFinite, F32.isInf, decide_eq_true_eq] at hx hy
  have hmag : (magUnits (F32.magBits x) : Int) ≤ magUnits (F32.magBits y) := by
    exact_mod_cast magUnits_mono (hx.trans_eq hy.symm).le
  unfold units at *
  split at h <;> split <;> omega

/-- Adding a step that is not negative does not lower a finite value. -/
theorem le_units_add {x d : F32} (hx : F32.isFinite x = true) (hn : F32.isNaN d = false) (h : 0 ≤ units d) :
    units x ≤ units (add x d) := by
  rcases isInf_or_isFinite hn with hd | hd
  · rw [add_inf hx hd hn]; exact units_le_inf hx hd h
  · rw [units_add hx hd]; exact le_units_ofUnits hx (by omega)

/-- Subtracting a step that is not negative does not raise a finite value. -/
theorem units_sub_le {x d : F32} (hx : F32.isFinite x = true) (hn : F32.isNaN d = false) (h : 0 ≤ units d) :
    units (sub x d) ≤ units x := by
  rw [sub]
  rcases isInf_or_isFinite hn with hd | hd
  · rw [add_inf hx (by simpa) (by simpa), units_neg]
    have hle : units (neg x) ≤ units d := units_le_inf (by simpa) hd h
    rw [units_neg] at hle
    omega
  · rw [units_add hx (by simpa)]
    exact units_ofUnits_le hx (by rw [units_neg]; omega)

theorem not_isNaN_sub {x d : F32} (hx : F32.isFinite x = true) (hn : F32.isNaN d = false) :
    F32.isNaN (sub x d) = false := not_isNaN_add hx (by simpa)

theorem lt_iff {x y : F32} (hx : F32.isFinite x = true) (hy : F32.isFinite y = true) :
    lt x y = true ↔ units x < units y := by
  simp [lt, not_isNaN_of_isFinite hx, not_isNaN_of_isFinite hy]

end Sys2Proof.Machine.Binary32

namespace Sys2Proof.Machine

/-! The ramps (R184, R185) in units. -/

section
variable {cur goal d : F32} (hcur : F32.isFinite cur = true) (hd : F32.isNaN d = false)
  (hd0 : 0 ≤ Binary32.units d)
include hcur hd hd0

/-- Below the goal a ramp step goes up, at most to the goal. -/
theorem towards_between_speed_and_goal (hgoal : F32.isFinite goal = true)
    (h : Binary32.units cur ≤ Binary32.units goal) :
    Binary32.units cur ≤ Binary32.units (towards binary32 cur goal d) ∧
      Binary32.units (towards binary32 cur goal d) ≤ Binary32.units goal := by
  have hadd := Binary32.le_units_add hcur hd hd0
  have hmin := Binary32.units_min (Binary32.not_isNaN_of_isFinite hgoal) (Binary32.not_isNaN_add hcur hd)
  simp only [towards, binary32, Binary32.lt_iff hcur hgoal, Binary32.lt_iff hgoal hcur]
  rw [if_neg (not_lt.mpr h)]
  split <;> omega

/-- Above the goal a ramp step goes down, at most to the goal. -/
theorem towards_between_goal_and_speed (hgoal : F32.isFinite goal = true)
    (h : Binary32.units goal ≤ Binary32.units cur) :
    Binary32.units goal ≤ Binary32.units (towards binary32 cur goal d) ∧
      Binary32.units (towards binary32 cur goal d) ≤ Binary32.units cur := by
  have hsub := Binary32.units_sub_le hcur hd hd0
  have hmax := Binary32.units_max (Binary32.not_isNaN_of_isFinite hgoal) (Binary32.not_isNaN_sub hcur hd)
  simp only [towards, binary32, Binary32.lt_iff hcur hgoal, Binary32.lt_iff hgoal hcur]
  rw [if_neg (not_lt.mpr h)]
  split <;> omega

end

section
variable {c : Config} {cur : F32} (hmin : F32.isFinite c.vMinSps = true) (hcur : F32.isFinite cur = true) (d : F32)
include hmin hcur

theorem down_of_le_vMin (h : Binary32.units cur ≤ Binary32.units c.vMinSps) : down binary32 c cur d = cur :=
  if_neg (mt (Binary32.lt_iff hmin hcur).mp (not_lt.mpr h))

/-- Decelerating from above `V_MIN_SPS` is the ramp toward it. -/
theorem down_eq_towards (h : Binary32.units c.vMinSps ≤ Binary32.units cur) :
    down binary32 c cur d = towards binary32 cur c.vMinSps d :=
  (if_neg (mt (Binary32.lt_iff hcur hmin).mp (not_lt.mpr h))).symm

end

/-! The half-period (R181), over either arithmetic. -/

section
variable {R : Type} {N : Numerics R} {c : ConfigOf R} {v : R}

/-- A speed that is not positive keeps the old interval. -/
theorem halfPeriod_of_le_zero (old : U32) (hv : N.le v (N.ofInt 0) = true) : halfPeriod N c v old = old := if_pos hv

/-- The old interval is used for a speed that is not positive only. -/
theorem halfPeriod_congr_old (old old' : U32) (hv : N.le v (N.ofInt 0) = false) :
    halfPeriod N c v old = halfPeriod N c v old' := by simp [halfPeriod, hv]

/-- A positive speed's half-period is the floor of the quotient, held within `H_MIN_US..TIMER_MAX_US`. -/
theorem halfPeriod_toNat (old : U32) {k : Int} (hT : 1 ≤ c.timerMaxUs.toNat) (hv : N.le v (N.ofInt 0) = false)
    (hk : N.floor (N.div (N.ofInt 500000) v) = .int k) :
    ((halfPeriod N c v old).toNat : Int) = min (c.timerMaxUs.toNat : Int) (max 1 k) := by
  have hlt := c.timerMaxUs.isLt
  simp only [halfPeriod, hv, hk, satRounded, sat, Config.hMinUs, if_neg Bool.false_ne_true]
  rw [BitVec.toNat_ofInt]
  omega

end

/-! The flip of the step line (lines 2 to 10 of R186), over either arithmetic. -/

section
variable {R : Type} (N : Numerics R) (c : ConfigOf R) (ax : AxisOf R)

/-- The flip in one equation: the line, the counts of a rising edge, and the mailbox. -/
theorem flipStep_eq :
    let rising : Bool := decide (ax.stepLevel = 0#1)
    let counts : Bool := rising && decide (ax.remainingSteps ≠ 0#32)
    let last : Bool := rising && decide (ax.remainingSteps = 1#32)
    flipStep ax =
      { ax with
        enabled := ax.enabled && !last
        stepLevel := ~~~ax.stepLevel
        remainingSteps := if counts then ax.remainingSteps - 1#32 else ax.remainingSteps
        plan := if last then none
          else if counts then ax.plan.map fun p => { p with stepsDone := p.stepsDone + 1#32 } else ax.plan
        stepIntervalUs := if rising then ax.pendingIntervalUs.getD ax.stepIntervalUs else ax.stepIntervalUs
        pendingIntervalUs := if rising then none else ax.pendingIntervalUs } := by
  rcases bit_cases ax.stepLevel with hlow | hhigh
  · by_cases h0 : ax.remainingSteps = 0#32
    · simp [flipStep_unbounded hlow h0, hlow, h0]
    · by_cases h1 : ax.remainingSteps = 1#32
      · simp [flipStep_last hlow h1, hlow, h1]
      · have hmore : 1 < ax.remainingSteps.toNat := by bv_omega
        simp [flipStep_more hlow hmore, hlow, h0, h1]
  · simp [flipStep_falling hhigh, hhigh]

variable {ax}

/-- A plan that the flip keeps has its step counted. -/
theorem flipStep_plan_some {p : MotionPlanOf R} (hp : ax.plan = some p) (h : (flipStep ax).remainingSteps ≠ 0#32) :
    let counts : Bool := decide (ax.stepLevel = 0#1) && decide (ax.remainingSteps ≠ 0#32)
    (flipStep ax).plan = some { p with stepsDone := if counts then p.stepsDone + 1#32 else p.stepsDone } := by
  have hnotLast : ¬(ax.stepLevel = 0#1 ∧ ax.remainingSteps = 1#32) := fun ⟨hlow, h1⟩ =>
    h (by rw [flipStep_last hlow h1])
  have hlast : (decide (ax.stepLevel = 0#1) && decide (ax.remainingSteps = 1#32)) = false := by simpa using hnotLast
  simp only [flipStep_eq, hlast, hp, if_neg Bool.false_ne_true]
  cases (decide (ax.stepLevel = 0#1) && decide (ax.remainingSteps ≠ 0#32) : Bool) <;> rfl

theorem flipStep_plan_none (hp : ax.plan = none) : (flipStep ax).plan = none := by
  rw [flipStep_eq]
  simp [hp]

/-- With trapezoid mode off an enabled axis's tick is the flip alone. -/
theorem schedTick_direct (h : ax.enabled = true) (ht : ax.trapezoidEnabled = false) :
    schedTick N c ax = flipStep ax := by
  have hmode : (flipStep ax).trapezoidEnabled = false := by rw [flipStep_eq]; exact ht
  simp [schedTick_enabled N c h, hmode]

/-- With trapezoid mode on, a tick that leaves the axis enabled is the flip and then the speed update. -/
theorem schedTick_trapezoid (h : ax.enabled = true) (ht : ax.trapezoidEnabled = true)
    (hon : (schedTick N c ax).enabled = true) : schedTick N c ax = speedUpdate N c (flipStep ax) := by
  have hmode : (flipStep ax).trapezoidEnabled = true := by rw [flipStep_eq]; exact ht
  rw [schedTick_enabled N c h, hmode, Bool.true_and] at hon ⊢
  cases hflip : (flipStep ax).enabled with
  | true => rfl
  | false => simp [hflip] at hon

end

/-! The phases of the speed update (lines 12 to 28 of R186), over either arithmetic. -/

section
variable {R : Type} (N : Numerics R) (c : ConfigOf R) {ax : AxisOf R} {p : MotionPlanOf R} (cur d : R)

theorem nextSpeed_unbounded (h : ax.remainingSteps = 0#32) :
    nextSpeed N c ax = towards N ax.currentSpeedSps ax.targetSpeedSps (dv N c ax) := if_pos h

theorem nextSpeed_planned (h : ax.remainingSteps ≠ 0#32) (hp : ax.plan = some p) :
    nextSpeed N c ax = plannedSpeed N c p ax.currentSpeedSps (dv N c ax) := by simp [nextSpeed, h, hp]

theorem nextSpeed_unplanned (h : ax.remainingSteps ≠ 0#32) (hp : ax.plan = none) :
    nextSpeed N c ax = fallbackSpeed N c ax (dv N c ax) := by simp [nextSpeed, h, hp]

theorem plannedSpeed_accelerating (h : p.stepsDone.toNat < p.accelSteps.toNat) :
    plannedSpeed N c p cur d =
      if N.lt cur p.peakSpeedSps then N.min p.peakSpeedSps (N.add cur d) else cur := if_pos h

theorem plannedSpeed_cruising (ha : p.accelSteps.toNat ≤ p.stepsDone.toNat)
    (h : p.stepsDone.toNat < p.accelSteps.toNat + p.cruiseSteps.toNat) :
    plannedSpeed N c p cur d = p.peakSpeedSps := by
  rw [plannedSpeed, if_neg (Nat.not_lt_of_le ha), if_pos h]

theorem plannedSpeed_decelerating (h : p.accelSteps.toNat + p.cruiseSteps.toNat ≤ p.stepsDone.toNat) :
    plannedSpeed N c p cur d = down N c cur d := by
  rw [plannedSpeed, if_neg (by omega), if_neg (Nat.not_lt_of_le h)]

end

/-- Settles O35: a finite sum rounds to no less than an operand that is finite, and a difference to no more. -/
theorem rampsDoNotOvershoot : Obligations.RampsDoNotOvershoot := by
  intro c cur goal d
  refine ⟨rfl, rfl, fun hcur hgoal hmin hd hd0 => ⟨towards_between_speed_and_goal hcur hd hd0 hgoal,
    towards_between_goal_and_speed hcur hd hd0 hgoal, ?lowers, ?floor, down_of_le_vMin hmin hcur d⟩⟩
  case lowers =>
    rcases le_total (Binary32.units cur) (Binary32.units c.vMinSps) with hle | hge
    · exact (congrArg _ (down_of_le_vMin hmin hcur d hle)).le
    · rw [down_eq_towards hmin hcur d hge]
      exact (towards_between_goal_and_speed hcur hd hd0 hmin hge).2
  case floor =>
    intro hge
    rw [down_eq_towards hmin hcur d hge]
    exact (towards_between_goal_and_speed hcur hd hd0 hmin hge).1

/-- Settles O37: a positive speed's half-period is one equation, from which each example follows. -/
theorem halfPeriodConversion : Obligations.HalfPeriodConversion := by
  intro c old hT H
  have hzero : binary32.ofInt 0 = 0#32 := by decide +kernel
  have hhalf : binary32.ofInt 500000 = 0x48F42400#32 := by decide +kernel
  have hquot (v : F32) (k : Int) (hv : Binary32.le v 0#32 = false)
      (hk : Binary32.floor (Binary32.div 0x48F42400#32 v) = .int k) :
      ((H v).toNat : Int) = min (c.timerMaxUs.toNat : Int) (max 1 k) :=
    halfPeriod_toNat (N := binary32) old hT (hzero ▸ hv) (hhalf ▸ hk)
  refine ⟨fun v hv => halfPeriod_of_le_zero old (hzero ▸ hv), hquot, fun v hv => ?legal, fun hlong => ?examples,
    fun hshort => ?cut⟩
  case legal =>
    have hold : H v = halfPeriod binary32 c v 1#32 := halfPeriod_congr_old old 1#32 (hzero ▸ hv)
    rw [hold]
    exact halfPeriod_ok binary32 v hT ⟨le_rfl, hT⟩
  case examples =>
    have hexample (v : F32) (k : Int) (h : U32)
        (hfacts : Binary32.le v 0#32 = false ∧ Binary32.floor (Binary32.div 0x48F42400#32 v) = .int k ∧
          max 1 k = h.toNat ∧ h.toNat ≤ 1501) : H v = h := by
      obtain ⟨hv, hk, hfloor, hceil⟩ := hfacts
      have := hquot v k hv hk
      exact BitVec.eq_of_toNat_eq (by omega)
    exact ⟨hexample _ 1000 _ (by decide +kernel), hexample _ 995 _ (by decide +kernel),
      hexample _ 500 _ (by decide +kernel), hexample _ 1501 _ (by decide +kernel), hexample _ 0 _ (by decide +kernel)⟩
  case cut =>
    have := hquot 0x40400000#32 166666 (by decide +kernel) (by decide +kernel)
    exact BitVec.eq_of_toNat_eq (by omega)

/-- Settles O32: the flip alone with trapezoid mode off, the flip and the speed update with it on. -/
theorem intervalAfterTick : Obligations.IntervalAfterTick := by
  intro c x hen y applied
  have happlied : (flipStep x).stepIntervalUs = applied := by rw [flipStep_eq]; simp [applied]
  refine ⟨fun hoff => ?direct, fun hon hstill => ?trapezoid⟩
  case direct =>
    have hy : y = flipStep x := schedTick_direct binary32 c hen hoff
    exact ⟨by rw [hy, flipStep_eq], by rw [hy, happlied]⟩
  case trapezoid =>
    have hy : y = speedUpdate binary32 c (flipStep x) := schedTick_trapezoid binary32 c hen hon hstill
    rw [hy, ← happlied]
    rfl

/-- Settles O54: the speed update of the flipped record, one phase for each clause. -/
theorem speedAfterTick : Obligations.SpeedAfterTick := by
  intro c x hen hon y hstill cur goal rising counts interval rem mag dtUs d toTarget slower stop
  have hspeed : y.currentSpeedSps = nextSpeed binary32 c (flipStep x) :=
    congrArg AxisOf.currentSpeedSps (schedTick_trapezoid binary32 c hen hon hstill)
  have hrem : (flipStep x).remainingSteps = rem := by rw [flipStep_eq]
  have hd : dv binary32 c (flipStep x) = d := by rw [flipStep_eq]; rfl
  have hcur : (flipStep x).currentSpeedSps = cur := by rw [flipStep_eq]
  have htarget : towards binary32 (flipStep x).currentSpeedSps (flipStep x).targetSpeedSps d = toTarget := by
    rw [flipStep_eq]; rfl
  have hslower : down binary32 c cur d = slower := rfl
  have hstop : stopDistance binary32 c (flipStep x) = stop := by rw [flipStep_eq]; rfl
  rw [hspeed]
  refine ⟨fun h => ?unbounded, fun h p hp => ?planned, fun h hp => ?unplanned⟩
  case unbounded =>
    rw [nextSpeed_unbounded _ _ (hrem.trans h), hd, htarget]
  case planned =>
    have hbounded : (flipStep x).remainingSteps ≠ 0#32 := hrem ▸ h
    rw [nextSpeed_planned _ _ hbounded (flipStep_plan_some hp hbounded), hd, hcur]
    exact ⟨fun haccel => plannedSpeed_accelerating _ _ _ _ haccel,
      fun hpast hcruise => plannedSpeed_cruising _ _ _ _ hpast hcruise,
      fun hpast => (plannedSpeed_decelerating _ _ _ _ hpast).trans hslower⟩
  case unplanned =>
    rw [nextSpeed_unplanned _ _ (hrem ▸ h) (flipStep_plan_none hp), hd, fallbackSpeed, htarget, hstop, hrem, hcur,
      hslower]
    rfl

end Sys2Proof.Machine

/-! The proofs about the protocol (42_protocol.md). First what `decode` says of an accepted frame, then the parser
byte by byte, then what each event and each completed frame does to the reply queue, then the commands on their own
axis, and last the obligations. -/

namespace Sys2Proof

/-! An accepted frame (R120). -/

section
variable {hasX : Bool} {a : AxisId} {b : Byte} {v : Nat} {f : Frame} {i : Instr}

/-- The axis a selector names has that selector. -/
theorem selector_of_axisOf (h : axisOf b = some a) : a.selector = b := by
  by_cases hsel : b = 0x31#8 ∨ b = 0x32#8 ∨ b = 0x33#8
  · obtain rfl | rfl | rfl := hsel <;> cases h <;> rfl
  · simp [axisOf_eq_none hsel] at h

/-- The command of an action code names the axis it is given, and the block has it. -/
theorem axis_and_presentIn_of_actionOf (h : actionOf hasX b a v = some i) :
    i.axis = a ∧ i.presentIn hasX = true := by
  by_cases hcode : b ∈ baseCodes ∨ (b = 0x58#8 ∧ hasX = true)
  · simp only [baseCodes, List.mem_cons, List.not_mem_nil, or_false] at hcode
    obtain (rfl | rfl | rfl | rfl | rfl | rfl | rfl | rfl | rfl) | ⟨rfl, rfl⟩ := hcode <;> cases h <;>
      exact ⟨rfl, rfl⟩
  · simp [actionOf_eq_none hcode] at h

/-- An accepted frame has passed the selector's check and the action code's, which give its instruction. -/
theorem axisOf_and_actionOf_of_decode_cmd (h : decode hasX f = .cmd i) :
    ∃ a, axisOf f[1] = some a ∧ actionOf hasX f[2] a (valueOf f) = some i := by
  unfold decode at h
  split at h
  · cases h
  split at h
  · cases h
  split at h
  · cases h
  next a ha =>
    split at h
    · cases h
    next j hj =>
      split at h
      · cases h
        exact ⟨a, ha, hj⟩
      · cases h

/-- An accepted frame carries the selector of the axis it decodes to (log entry 20). -/
theorem selector_of_decode_cmd (h : decode hasX f = .cmd i) : i.axis.selector = f[1] := by
  obtain ⟨a, ha, hi⟩ := axisOf_and_actionOf_of_decode_cmd h
  rw [(axis_and_presentIn_of_actionOf hi).1, selector_of_axisOf ha]

/-- `X` is accepted only by a block with the option (R113). -/
theorem hasX_of_decode_qrot (h : decode hasX f = .cmd (.qrot a v)) : hasX = true := by
  obtain ⟨_, _, hi⟩ := axisOf_and_actionOf_of_decode_cmd h
  exact (axis_and_presentIn_of_actionOf hi).2

end

end Sys2Proof

namespace Sys2Proof.Machine

/-! The parser, byte by byte (R220 to R223). -/

section
variable {R : Type} (B : Build R) {s : State R} {b : Byte} {e : Event} {rest : List Event}

/-- With an event on the agenda, the step takes it (R7). -/
theorem Build.nextStep_agenda (h : s.agenda = e :: rest) :
    B.nextStep s = B.takeEvent e { s with agenda := rest } := by
  simp [Build.nextStep, h]

theorem Build.rx_idle (h : s.parser.pstate = .idle) : B.rx b s = .next (rxIdle b s) := by simp [Build.rx, h]

theorem Build.rx_accum (h : s.parser.pstate = .accum) : B.rx b s = B.rxAccum b s := by simp [Build.rx, h]

/-- A byte before the eleventh is stored and counted. -/
theorem Build.rxAccum_more (h : s.parser.idx.val < 10) :
    B.rxAccum b s = .next { s with
      parser := {
        pstate := .accum, buf := s.parser.buf.set s.parser.idx.val b, idx := ⟨s.parser.idx.val + 1, by omega⟩ } } := by
  have h11 : s.parser.idx.val < 11 := by omega
  rw [Build.rxAccum, dif_pos h11, if_neg (by omega)]

/-- The eleventh byte completes the frame. -/
theorem Build.rxAccum_last (h : s.parser.idx.val = 10) :
    B.rxAccum b s = B.completeFrame { s with parser := Parser.idleWith (s.parser.buf.set 10 b) } := by
  simp [Build.rxAccum, h]

/-- A parser that is accumulating with eleven bytes held takes no byte (20_memory.md R82). -/
theorem Build.rxAccum_full (h : ¬s.parser.idx.val < 11) : B.rxAccum b s = .fault .frameOffset := dif_neg h

/-- The step that takes the eleventh byte completes the frame. -/
theorem Build.nextStep_lastByte (hag : s.agenda = .host (.rx b) :: rest) (hp : s.parser.pstate = .accum)
    (hi : s.parser.idx.val = 10) :
    B.nextStep s =
      B.completeFrame { s with agenda := rest, parser := Parser.idleWith (s.parser.buf.set 10 b) } := by
  let u : State R := { s with agenda := rest }
  calc
    B.nextStep s = B.rx b u := B.nextStep_agenda hag
    _ = B.rxAccum b u := B.rx_accum (s := u) hp
    _ = _ := B.rxAccum_last (s := u) hi

/-- A completed frame that decodes to an instruction runs it (R223). -/
theorem Build.completeFrame_cmd {i : Instr} (h : decode s.cfg.hasX s.parser.buf = .cmd i) :
    B.completeFrame s = B.exec i s := by
  simp [Build.completeFrame, h]

end

/-! The reply queue (R246): which events write it, and which frames. -/

section
variable {R : Type} {B : Build R} {s t : State R} {e : Event}

theorem rxIdle_txq (b : Byte) (s : State R) : (rxIdle b s).txq = s.txq := by
  unfold rxIdle; split <;> rfl

/-- A received byte completes the frame, or ends no frame and leaves the reply queue alone. -/
theorem Build.rx_cases {b : Byte} (h : B.rx b s = .next t) :
    (s.parser.pstate = .accum ∧ s.parser.idx.val = 10 ∧
      B.completeFrame { s with parser := Parser.idleWith (s.parser.buf.set 10 b) } = .next t) ∨
    ((t.parser.pstate = .idle → s.parser.pstate = .idle) ∧ t.txq = s.txq) := by
  cases hp : s.parser.pstate with
  | idle =>
    rw [B.rx_idle hp] at h
    cases h
    exact .inr ⟨fun _ => rfl, rxIdle_txq b s⟩
  | accum =>
    rw [B.rx_accum hp] at h
    obtain hlt | heq | hgt := Nat.lt_trichotomy s.parser.idx.val 10
    · rw [B.rxAccum_more hlt] at h
      cases h
      exact .inr ⟨nofun, rfl⟩
    · exact .inl ⟨rfl, heq, B.rxAccum_last heq ▸ h⟩
    · rw [B.rxAccum_full (by omega)] at h
      cases h

/-- An event completes a frame; or it ends no frame, and leaves the reply queue alone or is the host taking a byte. -/
theorem Build.takeEvent_cases (h : B.takeEvent e s = .next t) :
    (s.parser.pstate = .accum ∧ s.parser.idx.val = 10 ∧
      ∃ b, B.completeFrame { s with parser := Parser.idleWith (s.parser.buf.set 10 b) } = .next t) ∨
    ((t.parser.pstate = .idle → s.parser.pstate = .idle) ∧
      (t.txq = s.txq ∨ (t.txq = s.txq.tail ∧ t.parser = s.parser))) := by
  match e with
  | .host (.rx b) =>
    obtain ⟨hp, hi, hdone⟩ | ⟨hidle, htxq⟩ := B.rx_cases h
    · exact .inl ⟨hp, hi, b, hdone⟩
    · exact .inr ⟨hidle, .inl htxq⟩
  | .host .txPop => cases h; exact .inr ⟨id, .inr ⟨rfl, rfl⟩⟩
  | .host (.setAdc _ _) | .host (.setRpm _ _) | .schedTick _ => cases h; exact .inr ⟨id, .inl rfl⟩
  | .telemTick => cases h; exact .inr ⟨by simp, .inl (by simp)⟩

end

section
variable {i : Instr} {s t : State}

/-- A command that is no query leaves the reply queue alone. -/
theorem exec_txq (hq : ¬∃ a v, i = .qcur a v ∨ i = .qrot a v) (h : exec i s = .next t) : t.txq = s.txq := by
  cases i with
  | qcur a v => exact absurd ⟨a, v, .inl rfl⟩ hq
  | qrot a v => exact absurd ⟨a, v, .inr rfl⟩ hq
  | speed a rpm => cases h; unfold State.speed; split <;> rfl
  | start | stop | fwd | rev | ena | dis | trap => cases h; rfl

/-- A completed frame is dropped, or its instruction runs. -/
theorem completeFrame_cases (h : completeFrame s = .next t) :
    (∃ cause, decode s.cfg.hasX s.parser.buf = .drop cause ∧ t = s.raiseDrop cause) ∨
    ∃ i, decode s.cfg.hasX s.parser.buf = .cmd i ∧ exec i s = .next t := by
  cases hdec : decode s.cfg.hasX s.parser.buf with
  | drop cause =>
    cases (binary32Build.completeFrame_drop hdec).symm.trans h
    exact .inl ⟨cause, rfl, rfl⟩
  | cmd i => exact .inr ⟨i, rfl, (binary32Build.completeFrame_cmd hdec).symm.trans h⟩

/-- Neither the drop nor the instruction of a completed frame writes the parser. -/
theorem completeFrame_parser (h : completeFrame s = .next t) : t.parser = s.parser := by
  obtain ⟨_, -, rfl⟩ | ⟨_, -, hi⟩ := completeFrame_cases h
  · rfl
  · exact exec_parser hi

/-- A completed `C` frame replies with the cached average under its own selector byte (R244). -/
theorem completeFrame_qcur {a : AxisId} {v : Nat} (h : decode s.cfg.hasX s.parser.buf = .cmd (.qcur a v)) :
    completeFrame s = .next (s.reply s.parser.buf[1] (s.ch.get a).avg.toInt) := by
  rw [← selector_of_decode_cmd h]
  exact binary32Build.completeFrame_cmd h

/-- A completed `X` frame replies with the rotation value on the port under its own selector byte (R245). -/
theorem completeFrame_qrot {a : AxisId} {v : Nat} (h : decode s.cfg.hasX s.parser.buf = .cmd (.qrot a v)) :
    completeFrame s = .next (s.reply s.parser.buf[1] (s.rpmIn.get a).toInt) := by
  rw [← selector_of_decode_cmd h]
  exact (binary32Build.completeFrame_cmd h).trans (congrArg Host.Outcome.next (if_pos (hasX_of_decode_qrot h)))

theorem completeFrame_txq_of_query (h : completeFrame s = .next t)
    (hq : ∃ a v, decode s.cfg.hasX s.parser.buf = .cmd (.qcur a v) ∨
      decode s.cfg.hasX s.parser.buf = .cmd (.qrot a v)) :
    ∃ r : List Byte, r.length = 10 ∧ t.txq = s.txq ++ r := by
  obtain ⟨a, v, hq | hq⟩ := hq
  · cases (completeFrame_qcur hq).symm.trans h
    exact ⟨_, replyFrame_length _ _, rfl⟩
  · cases (completeFrame_qrot hq).symm.trans h
    exact ⟨_, replyFrame_length _ _, rfl⟩

theorem completeFrame_txq_of_not_query (h : completeFrame s = .next t)
    (hq : ¬∃ a v, decode s.cfg.hasX s.parser.buf = .cmd (.qcur a v) ∨
      decode s.cfg.hasX s.parser.buf = .cmd (.qrot a v)) : t.txq = s.txq := by
  obtain ⟨_, -, rfl⟩ | ⟨i, hdec, hi⟩ := completeFrame_cases h
  · rfl
  · exact exec_txq (by simpa [hdec] using hq) hi

/-- A step completes the frame of a state `u` with the same parameters and reply queue; or it ends no frame, and leaves
the reply queue alone or is the host taking a byte. -/
theorem step_txq_cases (h : step s = .next t) :
    (s.parser.pstate = .accum ∧ s.parser.idx.val = 10 ∧
      ∃ u : State, u.cfg = s.cfg ∧ u.txq = s.txq ∧ u.parser.pstate = .idle ∧ completeFrame u = .next t) ∨
    ((t.parser.pstate = .idle → s.parser.pstate = .idle) ∧
      (t.txq = s.txq ∨ (t.txq = s.txq.tail ∧ t.parser = s.parser))) := by
  obtain ⟨e, ag, ar, td, -, he⟩ | ⟨rfl, -⟩ := step_cases h
  · obtain ⟨hp, hi, b, hdone⟩ | hother := Build.takeEvent_cases he
    · let u : State := { s with
        agenda := ag, arrivals := ar, telemDue := td, parser := Parser.idleWith (s.parser.buf.set 10 b) }
      exact .inl ⟨hp, hi, u, rfl, rfl, rfl, hdone⟩
    · exact .inr hother
  · exact .inr ⟨id, .inl rfl⟩

end

/-! The commands on their own axis. -/

section
variable {R : Type} (s : State R) (a : AxisId) (f : AxisOf R → AxisOf R)

theorem onlyAxis_updAxis : OnlyAxis a s (s.updAxis a f) :=
  ⟨⟨rfl, rfl, rfl, rfl, rfl, rfl, rfl, rfl, rfl, rfl⟩, rfl, rfl, rfl, fun _ h => PerAxis.get_set_ne _ _ h⟩

theorem get_updAxis : (s.updAxis a f).axis.get a = f (s.axis.get a) := PerAxis.get_set_self ..

variable {s a f}

/-- An update that leaves the axis's record as it is leaves the state as it is. -/
theorem updAxis_eq_self (h : f (s.axis.get a) = s.axis.get a) : s.updAxis a f = s := by simp [State.updAxis, h]

end

/-! The operations of `binary32` by their own names. `sps_binary32` rewrites with them: checked as one `rfl`, it would
make the kernel compute the operands. -/

theorem binary32_mul : binary32.mul = Binary32.mul := rfl

theorem binary32_div : binary32.div = Binary32.div := rfl

theorem binary32_ofInt : binary32.ofInt = Binary32.ofInt := rfl

theorem binary32_ofInt_zero : binary32.ofInt 0 = 0#32 := by decide +kernel

/-- RPM to steps/s under `BINARY32` (R250). -/
theorem sps_binary32 (c : Config) (rpm : Nat) :
    sps binary32 c rpm =
      Binary32.div (Binary32.mul (Binary32.ofInt rpm) (Binary32.ofInt c.stepsPerRev)) (Binary32.ofInt 60) := by
  rw [sps, binary32_mul, binary32_div, binary32_ofInt]

section
variable {R : Type} (N : Numerics R) {c : ConfigOf R} {ax : AxisOf R} {n : U32} {v : Nat}

/-- The direction line as its two levels (10_state.md R42). -/
theorem dirLevel_decide (c : ConfigOf R) (p : Prop) [Decidable p] :
    dirLevel c (decide p) = if p then c.dirFwdLevel else 1#1 - c.dirFwdLevel := by simp [dirLevel]

theorem startAxis_trapezoid (h : ax.trapezoidEnabled = true) :
    startAxis N c n ax = startTrapezoid N c n (startCommon c n ax) := if_pos h

/-- `M` with trapezoid mode off drops the plan and applies a pending interval (R233). -/
theorem startAxis_direct (h : ax.trapezoidEnabled = false) :
    startAxis N c n ax =
      { startCommon c n ax with
        plan := none, stepIntervalUs := ax.pendingIntervalUs.getD ax.stepIntervalUs, pendingIntervalUs := none } := by
  have hoff : (startCommon c n ax).trapezoidEnabled = false := h
  simp only [startAxis, hoff, startDirect, applyPending_eq]
  rfl

theorem stepCount_eq_zero {n : Nat} (h : n ≤ 999999) : stepCount n = 0#32 ↔ n = 0 := by
  rw [← BitVec.toNat_inj, stepCount_toNat h]; rfl

theorem speedAxis_trapezoid (r : R) (h : ax.trapezoidEnabled = true) :
    speedAxis N c r ax =
      { ax with
        targetSpeedSps := r, accelerationSps2 := rampAccel N r ax.currentSpeedSps,
        plan := if c.vClearsPlan then none else ax.plan } := if_pos h

theorem speedAxis_direct (r : R) (h : ax.trapezoidEnabled = false) :
    speedAxis N c r ax =
      { ax with
        targetSpeedSps := r, currentSpeedSps := r,
        pendingIntervalUs := some (halfPeriod N c r ax.stepIntervalUs) } := by simp [speedAxis, h]

/-! TRAP by what is requested of the present mode (R242, R243). -/

theorem trapRequest_flip (h : c.aMode = .flip) (present : Bool) : trapRequest c v present = !present := by
  simp [trapRequest, h]

theorem trapRequest_byValue (h : c.aMode = .byValue) (present : Bool) :
    trapRequest c v present = decide (v ≠ 0) := by
  simp [trapRequest, h]

theorem trapAxis_off (h : ax.trapezoidEnabled = true) (hreq : trapRequest c v true = false) :
    trapAxis N c v ax = trapezoidOff N c ax := by
  simp [trapAxis, h, hreq]

theorem trapAxis_on (h : ax.trapezoidEnabled = false) (hreq : trapRequest c v false = true) :
    trapAxis N c v ax = { ax with trapezoidEnabled := true } := by
  simp [trapAxis, h, hreq]

/-- A request for the present mode changes nothing. -/
theorem trapAxis_same (hreq : trapRequest c v ax.trapezoidEnabled = ax.trapezoidEnabled) :
    trapAxis N c v ax = ax := by
  cases h : ax.trapezoidEnabled <;> rw [h] at hreq <;> simp [trapAxis, h, hreq]

end

/-- Settles O22: a completed frame replies exactly when it is a query, and no other event ends a frame. -/
theorem repliesOnlyFromQueries : Obligations.RepliesOnlyFromQueries := by
  intro s t h takesLastByte isQuery
  obtain ⟨hp, hi, u, hcfg, htxq, hidle, hdone⟩ | ⟨hidle, htxq⟩ := step_txq_cases h
  · have hparser : t.parser = u.parser := completeFrame_parser hdone
    have hlast : takesLastByte := ⟨hp, hi, hparser ▸ hidle⟩
    simp only [isQuery, hparser, ← hcfg, ← htxq]
    exact ⟨fun _ => completeFrame_txq_of_query hdone, fun _ => completeFrame_txq_of_not_query hdone,
      fun hn => absurd hlast hn⟩
  · have hn : ¬takesLastByte := fun ⟨hp, _, ht⟩ => by simp [hidle ht] at hp
    exact ⟨fun hl => absurd hl hn, fun hl => absurd hl hn, fun _ => htxq⟩

/-- Settles O25: one clause for each way the parser takes a byte. -/
theorem parserTakesBytes : Obligations.ParserTakesBytes := by
  intro s b rest hag
  let u : State := { s with agenda := rest }
  have hstep : step s = binary32Build.rx b u := binary32Build.nextStep_agenda hag
  rw [hstep]
  refine ⟨fun hp hb => ?stx, fun hp hb => ?discarded, ?stored⟩
  case stx => exact (binary32Build.rx_idle (s := u) hp).trans (congrArg Host.Outcome.next (if_pos hb))
  case discarded => exact (binary32Build.rx_idle (s := u) hp).trans (congrArg Host.Outcome.next (if_neg hb))
  case stored =>
    rintro k h hp rfl
    exact (binary32Build.rx_accum (s := u) hp).trans (binary32Build.rxAccum_more (s := u) h)

/-- Settles O26: the completed frame runs, or is dropped. -/
theorem stepRunsDecodedInstruction : Obligations.StepRunsDecodedInstruction := by
  intro s b rest hag hp hi buf s'
  have hstep : step s = completeFrame s' := binary32Build.nextStep_lastByte hag hp hi
  exact ⟨fun _ hdec => hstep.trans (binary32Build.completeFrame_cmd hdec),
    fun _ hdec => hstep.trans (binary32Build.completeFrame_drop hdec)⟩

/-- Settles O53: without the option, `X` is no action code. -/
theorem queryFrameReplies : Obligations.QueryFrameReplies := by
  intro s b rest hag hp hi buf s'
  have hstep : step s = completeFrame s' := binary32Build.nextStep_lastByte hag hp hi
  refine ⟨fun _ _ hdec => hstep.trans (completeFrame_qcur hdec),
    fun _ _ hdec => hstep.trans (completeFrame_qrot hdec), fun hx hstx hetx hsum hsel hact => ?absent⟩
  obtain ⟨a, ha, -⟩ := exists_axisOf_eq_some (by simpa using hsel)
  have hnone : actionOf s.cfg.hasX buf[2] a (valueOf buf) = none :=
    actionOf_eq_none (by rw [hact, hx]; decide)
  exact hstep.trans (binary32Build.completeFrame_drop (decode_badAction ⟨hstx, hetx⟩ hsum ha hnone))

/-- Settles O13: the direction line under either `DIR_UPDATE`, then the record under either mode. -/
theorem startEffect : Obligations.StartEffect := by
  intro a n s hn c ax lineAtStart line acc mag
  have hline : (startCommon c (stepCount n) ax).dirOut = line := by
    cases h : c.dirUpdate <;> simp only [startCommon, h, dirLevel_decide, line, lineAtStart]
  have hget : (s.start binary32 a n).axis.get a = startAxis binary32 c (stepCount n) ax := get_updAxis ..
  obtain ⟨hsame, htxq, hdrops, -, hothers⟩ := onlyAxis_updAxis s a (startAxis binary32 c (stepCount n))
  refine ⟨_, rfl, hsame, htxq, hdrops, rfl, hothers, fun hon => ?trapezoid, fun hoff => ?direct⟩
  case trapezoid =>
    rw [hget, startAxis_trapezoid _ hon, ← hline]
    simp only [startTrapezoid, stepCount_eq_zero hn]
    rfl
  case direct =>
    rw [hget, startAxis_direct _ hoff, ← hline]
    rfl

/-- Settles O14: a stopped record stops to itself. -/
theorem stopEffect : Obligations.StopEffect := by
  intro a v w s
  have hstop : stopAxis binary32 (s.axis.get a) =
      { s.axis.get a with enabled := false, remainingSteps := 0#32, currentSpeedSps := 0#32, plan := none } := by
    rw [stopAxis, binary32_ofInt_zero]
  refine ⟨_, rfl, onlyAxis_updAxis s a _, (get_updAxis ..).trans hstop, congrArg Host.Outcome.next ?again⟩
  exact updAxis_eq_self (by rw [State.stop, get_updAxis]; rfl)

/-- Settles O15: either direction's record under either `DIR_UPDATE`. -/
theorem directionEffect : Obligations.DirectionEffect := by
  intro a v s ax line
  have hset (d : Direction) : setDirection s.cfg d ax =
      { ax with direction := d, dirOut := line (dirLevel s.cfg (decide (d = .forward))) } := by
    cases h : s.cfg.dirUpdate <;> simp only [setDirection, h, line]
  exact ⟨⟨_, rfl, onlyAxis_updAxis s a _, (get_updAxis ..).trans (hset .forward)⟩,
    ⟨_, rfl, onlyAxis_updAxis s a _, (get_updAxis ..).trans (hset .reverse)⟩⟩

/-- Settles O16: the conversion's examples are computed; a value above 0 makes the update. -/
theorem speedEffect : Obligations.SpeedEffect := by
  intro a rpm s c ax v
  have hv : sps binary32 c rpm = v := sps_binary32 c rpm
  refine ⟨?at300, ?at150, fun h0 => congrArg Host.Outcome.next (if_pos h0), fun hpos => ?update⟩
  case at300 => rintro hrev rfl; simp only [v, hrev]; decide +kernel
  case at150 => rintro hrev rfl; simp only [v, hrev]; decide +kernel
  case update =>
    clear_value v
    have hspeed : exec (.speed a rpm) s = .next (s.updAxis a (speedAxis binary32 c v)) := by
      rw [← hv]; exact congrArg Host.Outcome.next (if_neg hpos.ne')
    refine ⟨_, hspeed, onlyAxis_updAxis s a _, fun hon => ?trapezoid, fun hoff => ?direct⟩
    case trapezoid => rw [get_updAxis, speedAxis_trapezoid binary32 v hon]; rfl
    case direct => rw [get_updAxis, speedAxis_direct binary32 v hoff]

/-- Settles O17: each is an update of its axis's record. -/
theorem excitationEffect : Obligations.ExcitationEffect := by
  intro a v s
  exact ⟨⟨_, rfl, onlyAxis_updAxis s a _, get_updAxis ..⟩, ⟨_, rfl, onlyAxis_updAxis s a _, get_updAxis ..⟩⟩

/-- Settles O18: the request is the inverse of the present mode. -/
theorem trapFlipEffect : Obligations.TrapFlipEffect := by
  intro a v s hmode ax
  exact ⟨_, rfl, onlyAxis_updAxis s a _,
    fun hon => (get_updAxis ..).trans (trapAxis_off binary32 hon (trapRequest_flip hmode true)),
    fun hoff => (get_updAxis ..).trans (trapAxis_on binary32 hoff (trapRequest_flip hmode false))⟩

/-- Settles O19: the request is the value's. -/
theorem trapByValueEffect : Obligations.TrapByValueEffect := by
  intro a v s hmode ax requested
  have hreq (present : Bool) : trapRequest s.cfg v present = requested := trapRequest_byValue hmode present
  exact ⟨_, rfl, onlyAxis_updAxis s a _,
    fun hsame => updAxis_eq_self (trapAxis_same binary32 ((hreq _).trans hsame.symm)),
    fun hon hoff => (get_updAxis ..).trans (trapAxis_off binary32 hon ((hreq _).trans hoff)),
    fun hoff hon => (get_updAxis ..).trans (trapAxis_on binary32 hoff ((hreq _).trans hon))⟩

end Sys2Proof.Machine

/-! The proofs about the telemetry unit (43_telemetry.md). First the ring of one channel under a run of samples, then
the sum and the mean of its valid entries, then the conversion of a raw sample, then the obligations, cheapest first. -/

namespace Sys2Proof.Machine

/-! A slot of the ring by its distance from a cursor. -/

/-- The slot `n` places after `w`, modulo `RING_CAP`. -/
def slotAfter (w : Fin 50) (n : Nat) : Fin 50 := ⟨(w.val + n) % 50, Nat.mod_lt _ (by decide)⟩

theorem nextCursor_eq_slotAfter (w : Fin 50) : nextCursor w = slotAfter w 1 := rfl

@[simp] theorem slotAfter_zero (w : Fin 50) : slotAfter w 0 = w := Fin.ext (Nat.mod_eq_of_lt w.isLt)

@[simp] theorem slotAfter_fifty (w : Fin 50) : slotAfter w 50 = w := by
  simp only [slotAfter, Fin.ext_iff]; omega

theorem slotAfter_slotAfter (w : Fin 50) (m n : Nat) : slotAfter (slotAfter w m) n = slotAfter w (m + n) := by
  simp only [slotAfter, Fin.ext_iff]; omega

/-- Fewer than fifty places apart, two slots differ. -/
theorem slotAfter_ne (w : Fin 50) {j k : Nat} (hjk : j < k) (hk : k < j + 50) : slotAfter w j ≠ slotAfter w k := by
  simp only [slotAfter, ne_eq, Fin.ext_iff]; omega

/-! One sample (R283). -/

section
variable (c : Channel) (v : I32)

theorem pushSample_ring (k : Fin 50) : (pushSample c v).ring[k] = if k = c.wr then v else c.ring[k] := by
  split
  · next h => subst h; exact memRead_memWrite_self c.ring c.wr v
  · next h => exact memRead_memWrite_ne c.ring v h

theorem pushSample_wr : (pushSample c v).wr = slotAfter c.wr 1 := rfl

theorem pushSample_full : (pushSample c v).full = (c.full || decide (c.wr.val = 49)) := by
  have hwrap : (nextCursor c.wr).val = 0 ↔ c.wr.val = 49 := by
    simp only [nextCursor_eq_slotAfter, slotAfter]; omega
  simp only [pushSample, hwrap]

end

/-! A run of samples (R283), over the list from its end: the last sample is one more write. -/

section
variable (c : Channel) (l : List I32)

theorem foldl_pushSample_wr : (l.foldl pushSample c).wr = slotAfter c.wr l.length := by
  induction l using List.reverseRecOn with
  | nil => simp
  | append_singleton l v ih => simp [pushSample_wr, ih, slotAfter_slotAfter]

theorem foldl_pushSample_full :
    (l.foldl pushSample c).full = (c.full || decide (50 ≤ c.wr.val + l.length)) := by
  induction l using List.reverseRecOn with
  | nil => simp
  | append_singleton l v ih =>
    have hwrap : (50 ≤ c.wr.val + l.length ∨ (slotAfter c.wr l.length).val = 49) ↔
        50 ≤ c.wr.val + (l.length + 1) := by
      simp only [slotAfter]; omega
    simp [pushSample_full, ih, foldl_pushSample_wr, Bool.or_assoc, ← Bool.decide_or, hwrap]

/-- No more than fifty samples lie in order from where the cursor was. -/
theorem foldl_pushSample_ring (hl : l.length ≤ 50) {k : Nat} (hk : k < l.length) :
    (l.foldl pushSample c).ring[slotAfter c.wr k] = l[k] := by
  induction l using List.reverseRecOn with
  | nil => simp at hk
  | append_singleton l v ih =>
    have hlen : (l ++ [v]).length = l.length + 1 := by simp
    rw [List.foldl_concat]
    obtain hlt | rfl : k < l.length ∨ k = l.length := by omega
    · have hne : slotAfter c.wr k ≠ (l.foldl pushSample c).wr := by
        rw [foldl_pushSample_wr]; exact slotAfter_ne c.wr hlt (by omega)
      rw [pushSample_ring, if_neg hne, ih (by omega) hlt, List.getElem_append_left hlt]
    · rw [pushSample_ring, if_pos (foldl_pushSample_wr c l).symm, List.getElem_concat_length rfl]

end

/-! The valid entries (R284). -/

section
variable (c : Channel)

theorem Channel.count_le : c.count ≤ 50 := by
  unfold Channel.count; split
  · exact Nat.le_refl 50
  · exact c.wr.isLt.le

theorem Channel.sum_eq_finset_sum : c.sum = ∑ k : Fin 50, if k.val < c.count then c.ring[k].toInt else 0 := by
  have hentries : c.ring.toList.map BitVec.toInt = List.ofFn fun k : Fin 50 => c.ring[k].toInt :=
    List.ext_getElem (by simp) fun _ _ _ => by simp only [List.getElem_map, List.getElem_ofFn]; rfl
  rw [Channel.sum, List.map_take, hentries, List.sum_take_ofFn, Finset.sum_filter]

/-- The exact sum lies between the least and the largest sum of as many 32-bit entries. -/
theorem Channel.sum_bounds : c.count * -2 ^ 31 ≤ c.sum ∧ c.sum ≤ c.count * (2 ^ 31 - 1) := by
  have hlen : ((c.ring.toList.take c.count).map BitVec.toInt).length = c.count := by simp [c.count_le]
  have hword : ∀ z ∈ (c.ring.toList.take c.count).map BitVec.toInt, -2 ^ 31 ≤ z ∧ z ≤ 2 ^ 31 - 1 := by
    intro z hz
    obtain ⟨x, -, rfl⟩ := List.mem_map.mp hz
    exact ⟨x.le_toInt, Int.le_sub_one_of_lt x.toInt_lt⟩
  have hlow := List.card_nsmul_le_sum _ _ fun z hz => (hword z hz).1
  have hhigh := List.sum_le_card_nsmul _ _ fun z hz => (hword z hz).2
  rw [hlen, nsmul_eq_mul] at hlow hhigh
  exact ⟨hlow, hhigh⟩

end

theorem Channel.mean_of_count_eq_zero {c : Channel} (h : c.count = 0) : c.mean = 0#32 := if_pos h

/-- The truncated quotient fits its 32 bits: truncation is monotone, and the bounds of the sum divide exactly. -/
theorem Channel.mean_toInt {c : Channel} (h : 0 < c.count) : c.mean.toInt = Int.tdiv c.sum c.count := by
  have hn : (0 : Int) < c.count := by omega
  obtain ⟨hlow, hhigh⟩ := c.sum_bounds
  have hge := Int.tdiv_le_tdiv hn hlow
  have hle := Int.tdiv_le_tdiv hn hhigh
  rw [Int.mul_tdiv_cancel_left _ hn.ne'] at hge hle
  rw [Channel.mean, if_neg h.ne', BitVec.toInt_ofInt_eq_self (by decide) hge (Int.lt_of_le_sub_one hle)]

/-! The conversion of a raw sample (R282). -/

theorem binary32_sub : binary32.sub = Binary32.sub := rfl

theorem binary32_trunc : binary32.trunc = Binary32.trunc := rfl

/-- `sample_mA(r)` under `BINARY32`. -/
theorem sampleMilliamps_binary32 (c : Config) (r : Nat) :
    sampleMilliamps binary32 c r = satRounded (-2 ^ 31) (2 ^ 31 - 1)
      (Binary32.trunc (Binary32.mul
        (Binary32.div
          (Binary32.sub (Binary32.div (Binary32.mul (Binary32.ofInt r) c.adcVrefV) c.adcRes) c.sensZeroV)
          c.sensVPerA)
        (Binary32.ofInt 1000))) := by
  simp only [sampleMilliamps, binary32_mul, binary32_div, binary32_sub, binary32_trunc, binary32_ofInt]

/-- Settles O45: the conversion's examples are computed. -/
theorem sampleConversion : Obligations.SampleConversion := by
  refine ⟨?integer, fun c hvref hres hzero hsens => ?examples⟩
  case integer =>
    intro c r k volts amps hk
    rw [sampleMilliamps_binary32, hk]
    simp only [satRounded, sat]
    omega
  case examples =>
    simp only [sampleMilliamps_binary32, hvref, hres, hzero, hsens]
    decide +kernel

/-- Settles O47: one sample, then fifty of them and the write of one more at the cursor. -/
theorem ringWrite : Obligations.RingWrite := by
  refine ⟨fun c v => ⟨pushSample_ring c v, rfl, pushSample_full c v, rfl⟩, ?run⟩
  case run =>
    intro c l v hl d e after
    have hwr : d.wr = c.wr := by simp [d, foldl_pushSample_wr, hl]
    have hfull : d.full = true := by simp [d, foldl_pushSample_full, hl]
    have hafter (k : Nat) : after k = slotAfter c.wr k := hwr ▸ rfl
    have hentry (k : Nat) (hk : k < 50) : l[k]? = some d.ring[after k] := by
      rw [List.getElem?_eq_getElem (hl ▸ hk), ← foldl_pushSample_ring c l hl.le]
      simp only [hafter, d]
    refine ⟨hfull, hwr, hentry, by simp [e, pushSample_full, hfull], ?newest, fun k h1 hk => ?kept⟩
    case newest =>
      have hcursor : after 0 = d.wr := by rw [hafter, hwr, slotAfter_zero]
      exact (pushSample_ring d v _).trans (if_pos hcursor)
    case kept =>
      have hne : after k ≠ d.wr := by
        simpa [hafter, hwr] using (slotAfter_ne c.wr h1 (by omega)).symm
      rw [hentry k hk, pushSample_ring, if_neg hne]

/-- Settles O48: the count, the sum and the mean of R284. -/
theorem averageIsTruncatedMean : Obligations.AverageIsTruncatedMean := by
  intro c n sum
  have hcount : c.count = n := rfl
  have hsum : c.sum = sum := c.sum_eq_finset_sum
  rw [← hsum, ← hcount]
  exact ⟨Channel.mean_of_count_eq_zero, Channel.mean_toInt⟩

end Sys2Proof.Machine

/-! The proof about cancellation (60_exceptions.md R323). First which updates of a record leave its motion alone, then
a tick's motion, then what a command and a step do to one axis's motion, and last the obligation. -/

namespace Sys2Proof.Machine

section
variable {R : Type}

/-- `y` moves as `x` does: enabled or not, with the same steps left. -/
def SameMotion (x y : AxisOf R) : Prop := y.enabled = x.enabled ∧ y.remainingSteps = x.remainingSteps

theorem SameMotion.refl (x : AxisOf R) : SameMotion x x := ⟨rfl, rfl⟩

theorem SameMotion.trans {x y z : AxisOf R} (hxy : SameMotion x y) (hyz : SameMotion y z) : SameMotion x z :=
  ⟨hyz.1.trans hxy.1, hyz.2.trans hxy.2⟩

/-! The commands other than START and STOP, on a record. -/

section
variable (N : Numerics R) (c : ConfigOf R) (x : AxisOf R)

theorem sameMotion_speedAxis (v : R) : SameMotion x (speedAxis N c v x) := by
  unfold speedAxis; split <;> exact ⟨rfl, rfl⟩

theorem sameMotion_trapAxis (v : Nat) : SameMotion x (trapAxis N c v x) := by
  unfold trapAxis; split <;> exact ⟨rfl, rfl⟩

theorem startAxis_isEnabled (n : U32) : (startAxis N c n x).enabled = true := by
  cases h : x.trapezoidEnabled with
  | true => rw [startAxis_trapezoid N h]; rfl
  | false => rw [startAxis_direct N h]; rfl

end

/-! An update of one axis's record, seen from any axis. -/

section
variable (s : State R) {a b : AxisId} {f : AxisOf R → AxisOf R}

theorem get_updAxis_ne (h : b ≠ a) : (s.updAxis a f).axis.get b = s.axis.get b := PerAxis.get_set_ne _ _ h

theorem sameMotion_updAxis (b : AxisId) (hf : ∀ x, SameMotion x (f x)) :
    SameMotion (s.axis.get b) ((s.updAxis a f).axis.get b) := by
  by_cases h : b = a
  · subst h
    rw [get_updAxis]
    exact hf _
  · rw [get_updAxis_ne s h]
    exact .refl _

end

/-! The tick of an enabled axis (R186 to R188). -/

section
variable (N : Numerics R) (c : ConfigOf R) {x : AxisOf R} (hen : x.enabled = true)
include hen

/-- The speed update moves neither the step line nor the motion: a tick's are the flip's. -/
theorem schedTick_motion :
    (schedTick N c x).stepLevel = (flipStep x).stepLevel ∧ SameMotion (flipStep x) (schedTick N c x) := by
  rw [schedTick_enabled N c hen]
  split <;> exact ⟨rfl, rfl, rfl⟩

/-- A tick that disables its axis makes the last step of a bounded move. -/
theorem last_step_of_schedTick_disables (hoff : (schedTick N c x).enabled = false) :
    x.remainingSteps = 1#32 ∧ (schedTick N c x).remainingSteps = 0#32 ∧
      x.stepLevel = 0#1 ∧ (schedTick N c x).stepLevel = 1#1 := by
  obtain ⟨hlevel, henabled, hrem⟩ := schedTick_motion N c hen
  have hlast : x.stepLevel = 0#1 ∧ x.remainingSteps = 1#32 := by
    rw [henabled, flipStep_eq] at hoff
    simpa [hen] using hoff
  obtain ⟨hlow, hone⟩ := hlast
  rw [hrem, hlevel, flipStep_last hlow hone]
  exact ⟨hone, rfl, hlow, rfl⟩

/-- A tick leaves unbounded motion as it is. -/
theorem schedTick_unbounded (h0 : x.remainingSteps = 0#32) : SameMotion x (schedTick N c x) := by
  obtain ⟨-, henabled, hrem⟩ := schedTick_motion N c hen
  rw [flipStep_eq] at henabled hrem
  exact ⟨by simp [henabled, h0], by simp [hrem, h0]⟩

theorem iterate_schedTick_unbounded (h0 : x.remainingSteps = 0#32) (k : Nat) :
    SameMotion x ((schedTick N c)^[k] x) := by
  induction k with
  | zero => exact .refl x
  | succ k ih =>
    rw [Function.iterate_succ_apply']
    exact ih.trans (schedTick_unbounded N c (ih.1.trans hen) (ih.2.trans h0))

end

end

/-- What a command does to the motion of axis `a`: STOP of `a` ends it, START of `a` begins it, any other command
leaves it as it is. -/
theorem exec_motion_cases {i : Instr} {s t : State} (a : AxisId) (h : exec i s = .next t) :
    (∃ v, i = .stop a v ∧ (t.axis.get a).remainingSteps = 0#32) ∨
    (∃ n, i = .start a n ∧ (t.axis.get a).enabled = true) ∨
    SameMotion (s.axis.get a) (t.axis.get a) := by
  cases i with
  | start b n =>
    cases h
    by_cases hab : a = b
    · subst hab
      have hget : (s.start binary32 a n).axis.get a = startAxis binary32 s.cfg (stepCount n) (s.axis.get a) :=
        get_updAxis ..
      exact .inr (.inl ⟨n, rfl, hget ▸ startAxis_isEnabled ..⟩)
    · have hget : (s.start binary32 b n).axis.get a = s.axis.get a := get_updAxis_ne s hab
      exact .inr (.inr (hget ▸ .refl _))
  | stop b v =>
    cases h
    by_cases hab : a = b
    · subst hab
      exact .inl ⟨v, rfl, congrArg AxisOf.remainingSteps (get_updAxis s a (stopAxis binary32))⟩
    · have hget : (s.stop binary32 b).axis.get a = s.axis.get a := get_updAxis_ne s hab
      exact .inr (.inr (hget ▸ .refl _))
  | fwd | rev | ena | dis =>
    cases h
    exact .inr (.inr (sameMotion_updAxis s a fun _ => ⟨rfl, rfl⟩))
  | speed b rpm =>
    cases h
    unfold State.speed
    split
    · exact .inr (.inr (.refl _))
    · exact .inr (.inr (sameMotion_updAxis s a fun x => sameMotion_speedAxis binary32 s.cfg x _))
  | trap b v =>
    cases h
    exact .inr (.inr (sameMotion_updAxis s a fun x => sameMotion_trapAxis binary32 s.cfg x v))
  | qcur =>
    cases h
    exact .inr (.inr (.refl _))
  | qrot =>
    cases h
    unfold State.queryRotation
    split <;> exact .inr (.inr (.refl _))

/-! What an event and a step do to the axis records. -/

section
variable {R : Type} {B : Build R} {s t : State R} {e : Event}

/-- A byte for an idle parser writes the parser only. -/
theorem rxIdle_eq (b : Byte) (s : State R) : rxIdle b s = { s with parser := (rxIdle b s).parser } := by
  unfold rxIdle; split <;> rfl

/-- A received byte completes the frame, or writes the parser only. -/
theorem Build.rx_completes_or_writes_parser {b : Byte} (h : B.rx b s = .next t) :
    (s.parser.pstate = .accum ∧ s.parser.idx.val = 10 ∧
      B.completeFrame { s with parser := Parser.idleWith (s.parser.buf.set 10 b) } = .next t) ∨
    t = { s with parser := t.parser } := by
  cases hp : s.parser.pstate with
  | idle =>
    rw [B.rx_idle hp] at h
    cases h
    exact .inr (rxIdle_eq b s)
  | accum =>
    rw [B.rx_accum hp] at h
    obtain hlt | heq | hgt := Nat.lt_trichotomy s.parser.idx.val 10
    · rw [B.rxAccum_more hlt] at h
      cases h
      exact .inr rfl
    · exact .inl ⟨rfl, heq, B.rxAccum_last heq ▸ h⟩
    · rw [B.rxAccum_full (by omega)] at h
      cases h

/-- An event completes a frame, ticks one axis, or writes no axis record. -/
theorem Build.takeEvent_axis_cases (h : B.takeEvent e s = .next t) :
    (s.parser.pstate = .accum ∧ s.parser.idx.val = 10 ∧
      ∃ b, B.completeFrame { s with parser := Parser.idleWith (s.parser.buf.set 10 b) } = .next t) ∨
    (∃ b, t.axis = (s.updAxis b (schedTick B.numerics s.cfg)).axis) ∨ t.axis = s.axis := by
  match e with
  | .host (.rx b) =>
    obtain ⟨hp, hi, hdone⟩ | hparser := B.rx_completes_or_writes_parser h
    · exact .inl ⟨hp, hi, b, hdone⟩
    · exact .inr (.inr (by rw [hparser]))
  | .host .txPop | .host (.setAdc _ _) | .host (.setRpm _ _) => cases h; exact .inr (.inr rfl)
  | .schedTick b => cases h; exact .inr (.inl ⟨b, rfl⟩)
  | .telemTick => cases h; exact .inr (.inr (telemTick_axis ..))

end

section
variable {s t : State}

/-- The step from `s` to `t` takes the last byte of a frame that decodes to `i`. -/
def TakesLastByteOf (i : Instr) (s t : State) : Prop :=
  s.parser.pstate = .accum ∧ s.parser.idx.val = 10 ∧ t.parser.pstate = .idle ∧
    decode s.cfg.hasX t.parser.buf = .cmd i

/-- A step runs the instruction whose last byte it takes, on the axis records as they were; or it ticks one axis; or it
writes no axis record. -/
theorem step_axis_cases (h : step s = .next t) :
    (∃ (i : Instr) (u : State), TakesLastByteOf i s t ∧ exec i u = .next t ∧ u.axis = s.axis) ∨
    (∃ b, t.axis = (s.updAxis b (schedTick binary32 s.cfg)).axis) ∨ t.axis = s.axis := by
  obtain ⟨e, ag, ar, td, -, he⟩ | ⟨rfl, -⟩ := step_cases h
  · obtain ⟨hp, hi, b, hdone⟩ | hother := Build.takeEvent_axis_cases he
    · have hparser := completeFrame_parser hdone
      obtain ⟨_, -, rfl⟩ | ⟨i, hdec, hexec⟩ := completeFrame_cases hdone
      · exact .inr (.inr rfl)
      · have htakes : TakesLastByteOf i s t := ⟨hp, hi, by rw [hparser]; rfl, by rw [hparser]; exact hdec⟩
        exact .inl ⟨i, _, htakes, hexec, rfl⟩
    · exact .inr hother
  · exact .inr (.inr rfl)

/-- What a step does to the motion of axis `a`: it takes the last byte of a STOP or of a START of `a`, it is the tick of
`a`, or it leaves the motion as it is. -/
theorem step_motion_cases (a : AxisId) (h : step s = .next t) :
    (∃ v, TakesLastByteOf (.stop a v) s t ∧ (t.axis.get a).remainingSteps = 0#32) ∨
    (∃ n, TakesLastByteOf (.start a n) s t ∧ (t.axis.get a).enabled = true) ∨
    t.axis.get a = schedTick binary32 s.cfg (s.axis.get a) ∨
    SameMotion (s.axis.get a) (t.axis.get a) := by
  obtain ⟨i, u, htakes, hexec, hu⟩ | ⟨b, htick⟩ | hsame := step_axis_cases h
  · obtain ⟨v, rfl, hnone⟩ | ⟨n, rfl, hon⟩ | hmotion := exec_motion_cases a hexec
    · exact .inl ⟨v, htakes, hnone⟩
    · exact .inr (.inl ⟨n, htakes, hon⟩)
    · exact .inr (.inr (.inr (hu ▸ hmotion)))
  · rw [htick]
    by_cases hab : a = b
    · subst hab
      exact .inr (.inr (.inl (get_updAxis ..)))
    · exact .inr (.inr (.inr (get_updAxis_ne s hab ▸ .refl _)))
  · exact .inr (.inr (.inr (hsame ▸ .refl _)))

/-- What a step does to an enabled axis: it takes STOP's last byte; or it leaves the axis enabled, and in unbounded
motion unless it takes START's last byte; or it makes the last step of a bounded move. -/
theorem step_motion_of_enabled {a : AxisId} (h : step s = .next t) (hen : (s.axis.get a).enabled = true) :
    (∃ v, TakesLastByteOf (.stop a v) s t ∧ (t.axis.get a).remainingSteps = 0#32) ∨
    ((t.axis.get a).enabled = true ∧ ((s.axis.get a).remainingSteps = 0#32 →
      (t.axis.get a).remainingSteps ≠ 0#32 → ∃ n, TakesLastByteOf (.start a n) s t)) ∨
    ((s.axis.get a).remainingSteps = 1#32 ∧ (t.axis.get a).remainingSteps = 0#32 ∧
      (s.axis.get a).stepLevel = 0#1 ∧ (t.axis.get a).stepLevel = 1#1) := by
  obtain hstop | ⟨n, hstart, hon⟩ | htick | ⟨henabled, hrem⟩ := step_motion_cases a h
  · exact .inl hstop
  · exact .inr (.inl ⟨hon, fun _ _ => ⟨n, hstart⟩⟩)
  · rw [htick]
    cases hon : (schedTick binary32 s.cfg (s.axis.get a)).enabled with
    | true =>
      exact .inr (.inl ⟨rfl, fun h0 hne => absurd ((schedTick_unbounded binary32 s.cfg hen h0).2.trans h0) hne⟩)
    | false => exact .inr (.inr (last_step_of_schedTick_disables binary32 s.cfg hen hon))
  · exact .inr (.inl ⟨henabled.trans hen, fun h0 hne => absurd (hrem.trans h0) hne⟩)

end

/-- Settles O34: of what a step can do to an axis's motion, only STOP's last byte and the last step of a bounded move
disable it. -/
theorem stopIsTheOnlyCancellation : Obligations.StopIsTheOnlyCancellation := by
  refine ⟨fun a v s t h => ?stopped, fun i a s t h hen hoff => ?command, fun s t a h hen => ?step,
    fun c x k hen h0 => ?unbounded⟩
  case stopped =>
    obtain ⟨_, hstop, -, hrecord, hagain⟩ := stopEffect a v v s
    cases hstop.symm.trans h
    exact ⟨hagain, Function.iterate_fixed (schedTick_disabled binary32 _ (by rw [hrecord]))⟩
  case command =>
    obtain ⟨v, hi, -⟩ | ⟨-, -, hon⟩ | ⟨hsame, -⟩ := exec_motion_cases a h
    · exact ⟨v, hi⟩
    · simp [hon] at hoff
    · simp [hsame, hen] at hoff
  case step =>
    intro x y runs
    obtain ⟨v, hstop, hnone⟩ | ⟨hon, hstart⟩ | ⟨hone, hlast⟩ := step_motion_of_enabled h hen
    · exact ⟨fun _ => .inl ⟨v, hstop⟩, fun _ _ => ⟨v, hstop⟩, fun _ hne => absurd hnone hne⟩
    · have hnotOff : y.enabled ≠ false := by simp [y, hon]
      exact ⟨fun hoff => absurd hoff hnotOff, fun _ hoff => absurd hoff hnotOff, hstart⟩
    · have hbounded : x.remainingSteps ≠ 0#32 := by simp [x, hone]
      exact ⟨fun _ => .inr ⟨hone, hlast⟩, fun h0 => absurd h0 hbounded, fun h0 => absurd h0 hbounded⟩
  case unbounded =>
    obtain ⟨henabled, hrem⟩ := iterate_schedTick_unbounded binary32 c hen h0 k
    exact ⟨henabled.trans hen, hrem.trans h0⟩

end Sys2Proof.Machine

/-! The proofs about reset (70_reset_and_hazards.md): the interval of the slowest speed, the units that are the same on
every axis, then the obligation. -/

namespace Sys2Proof.Machine

/-- 500.0 steps per second is a half-period of 1000 µs wherever the timer can hold it (R34, R181). -/
theorem halfPeriod_fiveHundred {c : Config} (old : U32) (hT : 1000 ≤ c.timerMaxUs.toNat) :
    halfPeriod binary32 c 0x43FA0000#32 old = 1000#32 := by
  obtain ⟨-, hquot, -⟩ := halfPeriodConversion c old (by omega)
  have hvalue : ((halfPeriod binary32 c 0x43FA0000#32 old).toNat : Int) =
      min (c.timerMaxUs.toNat : Int) (max 1 1000) :=
    hquot 0x43FA0000#32 1000 (by decide +kernel) (by decide +kernel)
  have hnat : (halfPeriod binary32 c 0x43FA0000#32 old).toNat = 1000 := by omega
  exact BitVec.eq_of_toNat_eq hnat

/-- The speed and the acceleration of a record after reset are `BINARY32`'s zero, written in bits. -/
theorem Axis.reset_eq (c : Config) :
    Axis.reset c =
      { enabled := false, direction := .forward, remainingSteps := 0#32,
        stepIntervalUs := halfPeriod binary32 c c.vMinSps 1#32, pendingIntervalUs := none,
        trapezoidEnabled := c.resetTrapezoid, currentSpeedSps := 0#32,
        targetSpeedSps := c.resetTargetSps, accelerationSps2 := 0#32, plan := none,
        stepLevel := 0#1, dirOut := c.dirFwdLevel, enaOutN := 1#1 } := by
  simp only [Axis.reset, AxisOf.reset, binary32_ofInt_zero]

section
variable (c : Config) (a : AxisId)

@[simp] theorem State.resetWith_axis : (State.resetWith c).axis.get a = Axis.reset c := PerAxis.get_all _ a

@[simp] theorem State.resetWith_ch : (State.resetWith c).ch.get a = Channel.reset := PerAxis.get_all _ a

@[simp] theorem State.resetWith_timer : (State.resetWith c).timer.get a = 0#32 := PerAxis.get_all _ a

end

/-- Settles O7: each per-axis unit by its reset value; the other units stand in `State.resetOf`. -/
theorem resetState : Obligations.ResetState := by
  refine ⟨rfl, fun c => ⟨rfl, fun a => ?axes, fun hmin hT => ?interval, State.resetWith_timer c, fun a => ?channels,
    rfl, rfl, rfl, rfl, rfl⟩⟩
  case axes => exact (State.resetWith_axis c a).trans (Axis.reset_eq c)
  case interval => rw [hmin, halfPeriod_fiveHundred 1#32 hT]
  case channels =>
    rw [State.resetWith_ch]
    exact ⟨rfl, rfl, rfl⟩

end Sys2Proof.Machine

/-! The proofs about the codec (30_encoding.md): the decoder's checks on an encoded frame, then what an accepted frame
determines, then a change of single bits, and last the obligations. -/

namespace Sys2Proof

section
variable {hasX : Bool} {a : AxisId} {b : Byte} {v : Nat} {f : Frame} {i : Instr}

/-! An encoded frame (R110 to R119). -/

@[simp] theorem axisOf_selector (a : AxisId) : axisOf a.selector = some a := by cases a <;> rfl

/-- The action code of a command that the block has selects it. -/
theorem actionOf_code (h : i.presentIn hasX = true) : actionOf hasX i.code i.axis i.value = some i := by
  cases i with
  | qrot a v => cases (h : hasX = true); rfl
  | start | stop | fwd | rev | speed | ena | dis | trap | qcur => rfl

/-- The six digits of a value below 1000000 read back as the value (R114). -/
theorem valueOf_encode (h : i.value ≤ 999999) : valueOf (encode i) = i.value := by
  have hdigits : valueOf (encode i) =
      i.value / 100000 % 10 * 100000 + i.value / 10000 % 10 * 10000 + i.value / 1000 % 10 * 1000 +
        i.value / 100 % 10 * 100 + i.value / 10 % 10 * 10 + i.value / 1 % 10 := by
    simp [valueOf, encode, assemble, Instr.body]
  omega

/-! What an accepted frame determines (R120). -/

theorem framed_of_decode_cmd (h : decode hasX f = .cmd i) : f[0] = stx ∧ f[10] = etx := by
  by_contra hn
  simp [decode_badFraming hn] at h

theorem summed_of_decode_cmd (h : decode hasX f = .cmd i) : f[9] = cks f := by
  by_contra hn
  simp [decode_badChecksum (framed_of_decode_cmd h) hn] at h

theorem allDigits_of_decode_cmd (h : decode hasX f = .cmd i) : allDigits f = true := by
  obtain ⟨a, ha, hi⟩ := axisOf_and_actionOf_of_decode_cmd h
  by_contra hn
  simp [decode_badDigit (framed_of_decode_cmd h) (summed_of_decode_cmd h) ha hi hn] at h

/-- The command of an action code has that code and the value it is given. -/
theorem code_and_value_of_actionOf (h : actionOf hasX b a v = some i) : i.code = b ∧ i.value = v := by
  by_cases hcode : b ∈ baseCodes ∨ (b = 0x58#8 ∧ hasX = true)
  · obtain ⟨j, hj, -, hjcode, hjvalue⟩ := exists_actionOf_eq_some (a := a) (v := v) hcode
    cases hj.symm.trans h
    exact ⟨hjcode, hjvalue⟩
  · simp [actionOf_eq_none hcode] at h

/-- Digit characters are the digits of the number they write. -/
theorem asciiDigit_valueOf (h : allDigits f = true) :
    asciiDigit (valueOf f) 100000 = f[3] ∧ asciiDigit (valueOf f) 10000 = f[4] ∧
    asciiDigit (valueOf f) 1000 = f[5] ∧ asciiDigit (valueOf f) 100 = f[6] ∧
    asciiDigit (valueOf f) 10 = f[7] ∧ asciiDigit (valueOf f) 1 = f[8] := by
  simp only [allDigits, Bool.and_eq_true, isDigit_iff] at h
  simp only [← BitVec.toNat_inj, Machine.asciiDigit_toNat, valueOf, digitValue]
  omega

/-- The value of six digits has six digits. -/
theorem valueOf_le (h : allDigits f = true) : valueOf f ≤ 999999 := by
  simp only [allDigits, Bool.and_eq_true, isDigit_iff] at h
  simp only [valueOf, digitValue]
  omega

/-- An accepted frame's instruction is well formed for the block. -/
theorem wf_of_decode_cmd (h : decode hasX f = .cmd i) : i.wf hasX = true := by
  obtain ⟨a, -, hi⟩ := axisOf_and_actionOf_of_decode_cmd h
  have hvalue : i.value ≤ 999999 := (code_and_value_of_actionOf hi).2 ▸ valueOf_le (allDigits_of_decode_cmd h)
  simp [Instr.wf, Instr.valueOk, hvalue, (axis_and_presentIn_of_actionOf hi).2]

/-- An accepted frame is the encoding of its instruction, byte by byte. -/
theorem encode_of_decode_cmd (h : decode hasX f = .cmd i) : encode i = f := by
  obtain ⟨hstx, hetx⟩ := framed_of_decode_cmd h
  have hsum := summed_of_decode_cmd h
  have hsel := selector_of_decode_cmd h
  obtain ⟨a, -, hi⟩ := axisOf_and_actionOf_of_decode_cmd h
  obtain ⟨hcode, hvalue⟩ := code_and_value_of_actionOf hi
  obtain ⟨h3, h4, h5, h6, h7, h8⟩ := asciiDigit_valueOf (allDigits_of_decode_cmd h)
  rw [← hvalue] at h3 h4 h5 h6 h7 h8
  ext1 k hk
  simp only [encode, assemble, Instr.body, Vector.getElem_mk, List.getElem_toArray]
  interval_cases k <;> simp [hstx, hetx, hsum, hsel, hcode, h3, h4, h5, h6, h7, h8, cks]

end

/-- Settles O1: the frame passes each check of `decode`, and the code gives the instruction back. -/
theorem decodeOfEncode : Obligations.DecodeOfEncode := by
  intro hasX i hwf
  obtain ⟨hvalue, hpresent⟩ : i.value ≤ 999999 ∧ i.presentIn hasX = true := by
    simpa [Instr.wf, Instr.valueOk] using hwf
  obtain ⟨hstx, hsel, hcode, hdigits, hsum, hetx⟩ := Laws.FrameShape.of_encode i
  refine decode_cmd ⟨hstx, hetx⟩ hsum (a := i.axis) ?axis ?action hdigits
  case axis => rw [hsel, axisOf_selector]
  case action => rw [hcode, valueOf_encode hvalue, actionOf_code hpresent]

/-- Settles O2: the bytes that `decode` checks are all the bytes of the frame. -/
theorem encodeOfDecode : Obligations.EncodeOfDecode :=
  fun _ _ _ h => ⟨wf_of_decode_cmd h, encode_of_decode_cmd h⟩

/-! A change of single bits (R126). -/

/-- `f` with byte `k` changed by the mask `m`. -/
def Frame.xorAt (f : Frame) (k : Fin 11) (m : Byte) : Frame := f.set k.val (f[k] ^^^ m)

theorem xor_swap_mask (x m y : Byte) : x ^^^ m ^^^ y = x ^^^ y ^^^ m := by ac_rfl

theorem xor_mask_ne {m : Byte} (hm : m ≠ 0#8) (x : Byte) : x ^^^ m ≠ x := by
  intro h
  have hzero : x ^^^ (x ^^^ m) = 0#8 := by rw [h, BitVec.xor_self]
  rw [← BitVec.xor_assoc, BitVec.xor_self, BitVec.zero_xor] at hzero
  exact hm hzero

section
variable (f : Frame) {k : Fin 11} (m : Byte)

theorem xorAt_getElem_ne (j : Fin 11) (h : k ≠ j) : (Frame.xorAt f k m)[j] = f[j] :=
  Vector.getElem_set_ne _ _ (Fin.val_ne_of_ne h)

/-- The checksum covers each of offsets 1 to 8 once. -/
theorem cks_xorAt (h1 : 1 ≤ k.val) (h8 : k.val ≤ 8) : cks (Frame.xorAt f k m) = cks f ^^^ m := by
  obtain ⟨k, hk⟩ := k
  simp only at h1 h8
  interval_cases k <;> simp [cks, Frame.xorAt, ← BitVec.xor_assoc, xor_swap_mask _ m]

/-- It does not cover its own offset. -/
theorem cks_xorAt_nine : cks (Frame.xorAt f 9 m) = cks f := by
  simp [cks, Frame.xorAt]

variable {f m} (hframed : f[0] = stx ∧ f[10] = etx) (hsum : f[9] = cks f)
include hframed hsum

/-- A change in one of offsets 1 to 9 of a frame with the right checksum is found by the checksum. -/
theorem decode_xorAt {hasX : Bool} (hm : m ≠ 0#8) (h1 : 1 ≤ k.val) (h9 : k.val ≤ 9) :
    decode hasX (Frame.xorAt f k m) = .drop .badChecksum := by
  have hk0 : k ≠ 0 := by rintro rfl; simp at h1
  have hk10 : k ≠ 10 := by rintro rfl; simp at h9
  refine decode_badChecksum
    ⟨(xorAt_getElem_ne f m 0 hk0).trans hframed.1, (xorAt_getElem_ne f m 10 hk10).trans hframed.2⟩ ?_
  by_cases hk : k = 9
  · subst hk
    have hnine : (Frame.xorAt f 9 m)[9] = f[9] ^^^ m := Vector.getElem_set_self _
    rw [hnine, cks_xorAt_nine, ← hsum]
    exact xor_mask_ne hm _
  · have hnine : (Frame.xorAt f k m)[9] = f[9] := xorAt_getElem_ne f m 9 hk
    rw [hnine, cks_xorAt f m h1 (by omega), hsum]
    exact (xor_mask_ne hm _).symm

end

theorem bitMask_ne_zero {j : Nat} (h : j < 8) : 1#8 <<< j ≠ 0#8 := by
  interval_cases j <;> decide

end Sys2Proof

namespace Sys2Proof.Machine

/-- Settles O4: one change moves the checksum by its mask, and a second change of the same bit moves it back. -/
theorem singleBitChangeDropped : Obligations.SingleBitChangeDropped := by
  intro f j hstx hetx hsum hj flip
  have hnine (g : Frame) (k : Fin 11) (h8 : k.val ≤ 8) : (flip g k)[9] = g[9] :=
    xorAt_getElem_ne g _ 9 (by rintro rfl; simp at h8)
  refine ⟨fun k h1 h8 => ⟨cks_xorAt f _ h1 h8, hnine f k h8⟩, ?dropped, ?cancel⟩
  case dropped =>
    rintro k h1 h9 s hbuf
    have hdrop : decode s.cfg.hasX s.parser.buf = .drop .badChecksum := by
      rw [hbuf]
      exact decode_xorAt ⟨hstx, hetx⟩ hsum (bitMask_ne_zero hj) h1 h9
    rw [← hbuf]
    exact binary32Build.completeFrame_drop hdrop
  case cancel =>
    intro k l hk1 hk8 hl1 hl8 _
    have hcks (g : Frame) (k : Fin 11) (h1 : 1 ≤ k.val) (h8 : k.val ≤ 8) : cks (flip g k) = cks g ^^^ 1#8 <<< j :=
      cks_xorAt g _ h1 h8
    rw [hnine _ l hl8, hnine _ k hk8, hcks _ l hl1 hl8, hcks _ k hk1 hk8, BitVec.xor_assoc, BitVec.xor_self,
      BitVec.xor_zero, hsum]

/-- Settles O5: `HAS_X` is a literal of `Config.current`, so each word is decoded by evaluation. -/
theorem sampleWordsDecode : Obligations.SampleWordsDecode := by
  unfold Obligations.SampleWordsDecode
  decide +kernel

end Sys2Proof.Machine

/-! The proofs about the commands as one meaning over either arithmetic (42_protocol.md R230, 00_scope.md R12). First
the meaning and what it does to the state but for the axis record, then its effect on the record, then a completed
frame in a build whose commands have that meaning, and last the obligations. -/

namespace Sys2Proof.Machine

section
variable {R : Type} (N : Numerics R)

/-- The meaning of a command over the arithmetic `N`: what `exec` and `execReal` share. -/
def runInstr (i : Instr) (s : State R) : State R :=
  match i with
  | .start a n => s.start N a n
  | .stop a _ => s.stop N a
  | .fwd a _ => s.setDirection a .forward
  | .rev a _ => s.setDirection a .reverse
  | .speed a rpm => s.speed N a rpm
  | .ena a _ => s.setExcitation a 0#1
  | .dis a _ => s.setExcitation a 1#1
  | .trap a v => s.trap N a v
  | .qcur a _ => s.queryCurrent a
  | .qrot a _ => s.queryRotation a

/-- What a command does to the record of its axis. -/
def axisEffect (c : ConfigOf R) (i : Instr) (ax : AxisOf R) : AxisOf R :=
  match i with
  | .start _ n => startAxis N c (stepCount n) ax
  | .stop _ _ => stopAxis N ax
  | .fwd _ _ => setDirection c .forward ax
  | .rev _ _ => setDirection c .reverse ax
  | .speed _ rpm => if rpm = 0 then ax else speedAxis N c (sps N c rpm) ax
  | .ena _ _ => { ax with enaOutN := 0#1 }
  | .dis _ _ => { ax with enaOutN := 1#1 }
  | .trap _ v => trapAxis N c v ax
  | .qcur _ _ | .qrot _ _ => ax

variable (i : Instr) (s : State R)

theorem runInstr_axis :
    (runInstr N i s).axis = s.axis.set i.axis (axisEffect N s.cfg i (s.axis.get i.axis)) := by
  cases i with
  | start | stop | fwd | rev | ena | dis | trap => rfl
  | speed a rpm =>
    simp only [runInstr, State.speed, axisEffect, Instr.axis]
    split <;> simp
  | qcur => exact (PerAxis.set_get ..).symm
  | qrot a v =>
    simp only [runInstr, State.queryRotation, axisEffect, Instr.axis]
    split <;> simp

theorem runInstr_get_axis : (runInstr N i s).axis.get i.axis = axisEffect N s.cfg i (s.axis.get i.axis) := by
  rw [runInstr_axis, PerAxis.get_set_self]

theorem runInstr_get_ne {b : AxisId} (h : b ≠ i.axis) : (runInstr N i s).axis.get b = s.axis.get b := by
  rw [runInstr_axis, PerAxis.get_set_ne _ _ h]

/-- Beside its axis's record and timer a command writes the reply queue and the drop log only. -/
theorem runInstr_elsewhere : SameElsewhere s (runInstr N i s) := by
  cases i with
  | start | stop | fwd | rev | ena | dis | trap | qcur => exact ⟨rfl, rfl, rfl, rfl, rfl, rfl, rfl, rfl, rfl, rfl⟩
  | speed a rpm =>
    simp only [runInstr, State.speed]
    split <;> exact ⟨rfl, rfl, rfl, rfl, rfl, rfl, rfl, rfl, rfl, rfl⟩
  | qrot a v =>
    simp only [runInstr, State.queryRotation]
    split <;> exact ⟨rfl, rfl, rfl, rfl, rfl, rfl, rfl, rfl, rfl, rfl⟩

@[simp] theorem runInstr_parser : (runInstr N i s).parser = s.parser := by
  obtain ⟨-, -, -, hparser, -⟩ := runInstr_elsewhere N i s
  exact hparser

/-- START restarts its axis's timer (41_scheduler.md R196); no other command changes a timer or an interval. -/
theorem runInstr_timer :
    (∃ a n, i = .start a n ∧ (runInstr N i s).timer = s.timer.set a 0#32) ∨
    ((runInstr N i s).timer = s.timer ∧
      ∀ c ax, (axisEffect N c i ax).stepIntervalUs = ax.stepIntervalUs) := by
  cases i with
  | start a n => exact .inl ⟨a, n, rfl, rfl⟩
  | stop | fwd | rev | ena | dis | qcur => exact .inr ⟨rfl, fun _ _ => rfl⟩
  | speed a rpm =>
    refine .inr ⟨?_, fun c ax => ?_⟩
    · simp only [runInstr, State.speed]; split <;> rfl
    · simp only [axisEffect, speedAxis]; split_ifs <;> rfl
  | trap a v =>
    refine .inr ⟨rfl, fun c ax => ?_⟩
    simp only [axisEffect, trapAxis]; split <;> rfl
  | qrot a v =>
    refine .inr ⟨?_, fun _ _ => rfl⟩
    simp only [runInstr, State.queryRotation]; split <;> rfl

theorem runInstr_get_timer_ne {b : AxisId} (h : b ≠ i.axis) : (runInstr N i s).timer.get b = s.timer.get b := by
  obtain ⟨a, n, rfl, ht⟩ | ⟨ht, -⟩ := runInstr_timer N i s
  · rw [ht]; exact PerAxis.get_set_ne _ _ h
  · rw [ht]

/-- The drops a command raises itself (R237, R245). -/
theorem runInstr_dropLog :
    (runInstr N i s).dropLog = s.dropLog ∨
    (∃ a, i = .speed a 0 ∧ (runInstr N i s).dropLog = s.dropLog ++ [⟨.badValue, s.parser.buf⟩]) ∨
    (∃ a v, i = .qrot a v ∧ s.cfg.hasX = false ∧
      (runInstr N i s).dropLog = s.dropLog ++ [⟨.badAction, s.parser.buf⟩]) := by
  cases i with
  | start | stop | fwd | rev | ena | dis | trap | qcur => exact .inl rfl
  | speed a rpm =>
    by_cases h : rpm = 0
    · subst h; exact .inr (.inl ⟨a, rfl, rfl⟩)
    · exact .inl (by simp [runInstr, State.speed, h])
  | qrot a v =>
    cases h : s.cfg.hasX with
    | false => exact .inr (.inr ⟨a, v, rfl, rfl, by simp [runInstr, State.queryRotation, h]⟩)
    | true => exact .inl (by simp [runInstr, State.queryRotation, h])

theorem dropLog_prefix_runInstr : s.dropLog <+: (runInstr N i s).dropLog := by
  obtain h | ⟨-, -, h⟩ | ⟨-, -, -, -, h⟩ := runInstr_dropLog N i s <;> rw [h]
  · exact List.prefix_append ..
  · exact List.prefix_append ..

theorem txq_prefix_runInstr : s.txq <+: (runInstr N i s).txq := by
  cases i with
  | start | stop | fwd | rev | ena | dis | trap => exact List.prefix_rfl
  | speed a rpm => simp only [runInstr, State.speed]; split <;> exact List.prefix_rfl
  | qcur => exact List.prefix_append ..
  | qrot a v =>
    simp only [runInstr, State.queryRotation]
    split
    · exact List.prefix_append ..
    · exact List.prefix_rfl

end

/-- Under `BINARY32` a command gives its meaning over `binary32`. -/
theorem exec_eq_runInstr (i : Instr) (s : State) : exec i s = .next (runInstr binary32 i s) := by cases i <;> rfl

/-- Under `REAL` a command gives its meaning over the reals. -/
theorem execReal_eq_runInstr (i : Instr) (s : State ℝ) : execReal i s = .next (runInstr realNumerics i s) := by
  cases i <;> rfl

/-- The selector as the byte of the axis's number (R112). -/
theorem selector_eq_ofNat (a : AxisId) : a.selector = BitVec.ofNat 8 (0x31 + a.index) := by cases a <;> rfl

/-! The fields that a command's record keeps. -/

section
variable {R : Type} (N : Numerics R) (c : ConfigOf R) (ax : AxisOf R)

/-- START empties the mailbox and keeps these fields. -/
theorem startAxis_keeps (n : U32) :
    let y := startAxis N c n ax
    y.pendingIntervalUs = none ∧ y.direction = ax.direction ∧ y.targetSpeedSps = ax.targetSpeedSps ∧
    y.trapezoidEnabled = ax.trapezoidEnabled ∧ y.enaOutN = ax.enaOutN ∧ y.stepLevel = ax.stepLevel := by
  cases h : ax.trapezoidEnabled with
  | true => rw [startAxis_trapezoid N h]; exact ⟨rfl, rfl, rfl, h, rfl, rfl⟩
  | false => rw [startAxis_direct N h]; exact ⟨rfl, rfl, rfl, h, rfl, rfl⟩

/-- SPEED writes the target, and by the mode the acceleration and perhaps the plan, or the speed and the mailbox. -/
theorem speedAxis_keeps (v : R) :
    let y := speedAxis N c v ax
    y.enabled = ax.enabled ∧ y.direction = ax.direction ∧ y.remainingSteps = ax.remainingSteps ∧
    y.stepIntervalUs = ax.stepIntervalUs ∧ y.trapezoidEnabled = ax.trapezoidEnabled ∧ y.dirOut = ax.dirOut ∧
    y.enaOutN = ax.enaOutN ∧ y.stepLevel = ax.stepLevel ∧ (y.plan ≠ ax.plan → y.plan = none) := by
  unfold speedAxis
  split
  · refine ⟨rfl, rfl, rfl, rfl, rfl, rfl, rfl, rfl, fun h => ?_⟩
    cases hc : c.vClearsPlan <;> simp_all
  · exact ⟨rfl, rfl, rfl, rfl, rfl, rfl, rfl, rfl, fun h => absurd rfl h⟩

/-- TRAP keeps these fields, and the plan unless it clears it. -/
theorem trapAxis_keeps (v : Nat) :
    let y := trapAxis N c v ax
    y.enabled = ax.enabled ∧ y.direction = ax.direction ∧ y.remainingSteps = ax.remainingSteps ∧
    y.stepIntervalUs = ax.stepIntervalUs ∧ y.targetSpeedSps = ax.targetSpeedSps ∧
    y.accelerationSps2 = ax.accelerationSps2 ∧ y.dirOut = ax.dirOut ∧ y.enaOutN = ax.enaOutN ∧
    y.stepLevel = ax.stepLevel ∧ (y.plan ≠ ax.plan → y.plan = none) := by
  unfold trapAxis
  split
  · exact ⟨rfl, rfl, rfl, rfl, rfl, rfl, rfl, rfl, rfl, fun _ => rfl⟩
  all_goals exact ⟨rfl, rfl, rfl, rfl, rfl, rfl, rfl, rfl, rfl, fun h => absurd rfl h⟩

end

/-- Settles O20: the reply is the selector's and the cached average's. -/
theorem queryCurrentEffect : Obligations.QueryCurrentEffect := by
  intro a v s
  rw [← selector_eq_ofNat]
  rfl

/-- Settles O21: the reply with the option, the drop without it. -/
theorem queryRotationEffect : Obligations.QueryRotationEffect := by
  intro a v s
  rw [← selector_eq_ofNat]
  exact ⟨fun h => congrArg Host.Outcome.next (if_pos h),
    fun h => congrArg Host.Outcome.next (if_neg (by simp [h]))⟩

/-- Settles O24: the record a command leaves is its effect on its axis's record under the parameters. -/
theorem commandsAreAxisLocal : Obligations.CommandsAreAxisLocal := by
  intro i s t h
  cases (exec_eq_runInstr i s).symm.trans h
  refine ⟨runInstr_elsewhere .., txq_prefix_runInstr .., dropLog_prefix_runInstr ..,
    fun b hb => ⟨runInstr_get_ne _ _ _ hb, runInstr_get_timer_ne _ _ _ hb⟩, ?reads⟩
  case reads =>
    intro s' t' h' hcfg hax
    cases (exec_eq_runInstr i s').symm.trans h'
    rw [runInstr_get_axis, runInstr_get_axis, hcfg, hax]

/-- Settles O23: on its own axis a command keeps the fields it is no writer of, on another all of them. -/
theorem commandsWriteOnlyTheirFields : Obligations.CommandsWriteOnlyTheirFields := by
  intro i s t b h x y
  cases (exec_eq_runInstr i s).symm.trans h
  by_cases hb : b = i.axis
  case neg =>
    have hy : y = x := runInstr_get_ne _ _ _ hb
    simp [hy]
  subst hb
  have hy : y = axisEffect binary32 s.cfg i x := runInstr_get_axis ..
  clear_value y
  subst hy
  cases i with
  | start a n =>
    obtain ⟨hpend, hdir, htarget, htrap, hena, hlevel⟩ := startAxis_keeps binary32 s.cfg x (stepCount n)
    simp [axisEffect, Instr.axis, hpend, hdir, htarget, htrap, hena, hlevel]
  | stop a v => simp [axisEffect, stopAxis, Instr.axis]
  | fwd a v | rev a v => simp [axisEffect, setDirection, Instr.axis]
  | speed a rpm =>
    by_cases h0 : rpm = 0
    · simp [axisEffect, h0]
    · obtain ⟨hen, hdir, hrem, hint, htrap, hline, hena, hlevel, hplan⟩ :=
        speedAxis_keeps binary32 s.cfg x (sps binary32 s.cfg rpm)
      simpa [axisEffect, Instr.axis, h0, hen, hdir, hrem, hint, htrap, hline, hena, hlevel] using hplan
  | ena a v | dis a v => simp [axisEffect, Instr.axis]
  | trap a v =>
    obtain ⟨hen, hdir, hrem, hint, htarget, hacc, hline, hena, hlevel, hplan⟩ := trapAxis_keeps binary32 s.cfg x v
    simpa [axisEffect, Instr.axis, hen, hdir, hrem, hint, htarget, hacc, hline, hena, hlevel] using hplan
  | qcur a v | qrot a v => simp [axisEffect]

end Sys2Proof.Machine

/-! The operations of `REAL` (00_scope.md R12), and the step that runs a decoded instruction over them. -/

namespace Sys2Proof.Machine

section
variable (x y : ℝ)

theorem realNumerics_div (h : y ≠ 0) : realNumerics.div x y = x / y := if_neg h

theorem realNumerics_sqrt (h : 0 ≤ x) : realNumerics.sqrt x = Real.sqrt x := if_neg (not_lt.mpr h)

theorem realNumerics_lt_iff : realNumerics.lt x y = true ↔ x < y := by simp [realNumerics]

theorem realNumerics_le_iff : realNumerics.le x y = true ↔ x ≤ y := by simp [realNumerics]

end

/-- Settles O56: the clauses are the definitions of the operations, the commands and the machines. -/
theorem realOperationsAreExact : Obligations.RealOperationsAreExact := by
  refine ⟨fun x y n => ⟨rfl, rfl, rfl, realNumerics_div x y, realNumerics_sqrt x, rfl, rfl, rfl, rfl,
    realNumerics_lt_iff x y, realNumerics_le_iff x y, rfl, rfl, fun h => ?floor, fun h => ?ceil⟩,
    fun i s r => ⟨exec_eq_runInstr i s, execReal_eq_runInstr i r⟩, rfl, rfl⟩
  case floor => exact congrArg Rounded.int (if_pos h)
  case ceil => exact congrArg Rounded.int (if_neg (not_le.mpr h))

/-- Settles O57: the completed frame runs, or is dropped; a command leaves the parser as it is. -/
theorem realStepRunsDecodedInstruction : Obligations.RealStepRunsDecodedInstruction := by
  intro s b rest hag hp hi buf s'
  have hstep : realStep s = realBuild.completeFrame s' := realBuild.nextStep_lastByte hag hp hi
  refine ⟨fun i hdec => ?runs, fun cause hdec => hstep.trans (realBuild.completeFrame_drop hdec)⟩
  case runs =>
    have hrun : realStep s = execReal i s' := hstep.trans (realBuild.completeFrame_cmd hdec)
    exact ⟨_, hrun.trans (execReal_eq_runInstr i s'), execReal_eq_runInstr i s', runInstr_parser ..⟩

end Sys2Proof.Machine

/-! The proofs about a frame sent or placed (42_protocol.md section 1) and about the host's taking a reply byte: the
last byte of a frame, then its ten last bytes by induction on how many are still to come, then the obligations. -/

namespace Sys2Proof.Machine

/-- A frame is in the buffer once its last byte is stored after the ten before it. -/
theorem set_last_eq {f buf : Frame} (h : ∀ (j : Nat) (hj : j < 10), buf[j] = f[j]) : buf.set 10 f[10] = f := by
  ext1 k hk
  by_cases hlast : k = 10
  · subst hlast; exact Vector.getElem_set_self _
  · rw [Vector.getElem_set_ne _ _ (Ne.symm hlast)]
    exact h k (by omega)

/-- Storing byte `k` of `f` after the `k` before it holds one byte more of `f`. -/
theorem set_next_agrees {f buf : Frame} {k : Nat} (hk : k < 11) (h : ∀ (j : Nat) (hj : j < k), buf[j] = f[j]) :
    ∀ (j : Nat) (hj : j < k + 1), (buf.set k f[k])[j] = f[j] := by
  intro j hj
  by_cases heq : k = j
  · subst heq; exact Vector.getElem_set_self _
  · rw [Vector.getElem_set_ne _ _ heq]
    exact h j (by omega)

theorem run_succ_of_step {n : Nat} {s t : State} (h : step s = .next t) :
    Host.Core.run core (n + 1) s = Host.Core.run core n t := by
  simp only [Host.Core.run, show core.step s = .next t from h]

theorem run_one (s : State) : Host.Core.run core 1 s = step s := by
  simp only [Host.Core.run, show core.step s = step s from rfl]
  cases step s <;> rfl

section
variable (f : Frame)

/-- The events of the bytes of `f` from offset `k` on. -/
def bytesFrom (k : Nat) : List Event := (f.toList.drop k).map fun b => .host (.rx b)

theorem bytesFrom_eq_cons {k : Nat} (h : k < 11) : bytesFrom f k = .host (.rx f[k]) :: bytesFrom f (k + 1) := by
  have hlen : k < f.toList.length := by simpa using h
  rw [bytesFrom, List.drop_eq_getElem_cons hlen]
  rfl

theorem bytesFrom_eleven : bytesFrom f 11 = [] := by
  rw [bytesFrom, List.drop_eq_nil_of_le (by simp)]
  rfl

variable {f}

/-- `d` bytes and then the last one, sent to a parser that holds the bytes of `f` before them, complete `f`. -/
theorem run_bytes_completes (d : Nat) :
    ∀ (s : State) (rest : List Event) (k : Nat) (hk : k + d = 10), s.agenda = bytesFrom f k ++ rest →
      s.parser.pstate = .accum → s.parser.idx.val = k → (∀ (j : Nat) (hj : j < k), s.parser.buf[j] = f[j]) →
      Host.Core.run core (d + 1) s = completeFrame { s with agenda := rest, parser := Parser.idleWith f } := by
  induction d with
  | zero =>
    intro s rest k hk hag hp hidx hheld
    obtain rfl : k = 10 := hk
    rw [bytesFrom_eq_cons f (by omega), bytesFrom_eleven] at hag
    have hlast : step s = completeFrame { s with
        agenda := rest, parser := Parser.idleWith (s.parser.buf.set 10 f[10]) } :=
      binary32Build.nextStep_lastByte hag hp hidx
    rw [run_one, hlast, set_last_eq hheld]
  | succ d ih =>
    rintro s rest k hk hag hp rfl hheld
    rw [bytesFrom_eq_cons f (by omega)] at hag
    obtain ⟨-, -, hmore⟩ := parserTakesBytes s _ _ hag
    rw [run_succ_of_step (hmore s.parser.idx (by omega) hp rfl)]
    exact ih _ rest (s.parser.idx.val + 1) (by omega) rfl rfl rfl (set_next_agrees (by omega) hheld)

end

/-- Settles O27: the first byte is STX and begins the frame, the other ten complete it. -/
theorem elevenBytesRunTheInstruction : Obligations.ElevenBytesRunTheInstruction := by
  intro i s rest hwf hidle hag
  have hdec : decode s.cfg.hasX (encode i) = .cmd i := decodeOfEncode _ i hwf
  have hfirst : s.agenda = .host (.rx stx) :: (bytesFrom (encode i) 1 ++ rest) := hag
  obtain ⟨hbegin, -, -⟩ := parserTakesBytes s _ _ hfirst
  rw [run_succ_of_step (hbegin hidle rfl), run_bytes_completes 9 _ rest 1 rfl rfl rfl rfl ?held]
  case held =>
    rintro j hj
    obtain rfl : j = 0 := by omega
    exact Vector.getElem_set_self _
  exact binary32Build.completeFrame_cmd hdec

/-- Settles O28: the placed frame lacks its last byte only, which is the next to arrive. -/
theorem fetchedWordRunsNext : Obligations.FetchedWordRunsNext := by
  intro s nbits w i hX hword
  have hdec : decode s.cfg.hasX (frameOfWord nbits w) = .cmd i := by
    rw [hX]
    cases h : decode Config.current.hasX (frameOfWord nbits w) <;> simp_all [decodeTableWord, Decoded.instr?]
  have hlast : step (s.withFetchWord nbits w) = completeFrame { s with
      parser := Parser.idleWith ((frameOfWord nbits w).set 10 (frameOfWord nbits w)[10]) } :=
    binary32Build.nextStep_lastByte rfl rfl rfl
  rw [hlast, set_last_eq fun _ _ => rfl]
  exact binary32Build.completeFrame_cmd hdec

/-- Settles O29: the step is the queue's tail. -/
theorem txPopTakesOldest : Obligations.TxPopTakesOldest := by
  intro s rest hag
  have hstep : step s = .next (txPop { s with agenda := rest }) := binary32Build.nextStep_agenda hag
  refine ⟨fun b q hq => ?pop, fun hq => ?empty⟩
  case pop => rw [hstep, txPop, hq]; rfl
  case empty => rw [hstep, txPop, hq, List.tail_nil, ← hq]

end Sys2Proof.Machine

/-! The proofs about the agents' events (60_exceptions.md, 43_telemetry.md). First a build whose commands have the one
meaning, and what a completed frame, a byte and an event leave alone in it; then the telemetry tick in one equation for
each unit it writes; then the order of the timed refinement; and last the obligations. -/

namespace Sys2Proof.Machine

/-! A build whose commands have the one meaning. -/

section
variable {R : Type}

/-- The commands of the build have the meaning that `NUMERIC` does not change. -/
def Build.RunsInstr (B : Build R) : Prop := ∀ i s, B.exec i s = .next (runInstr B.numerics i s)

/-- What a completed frame leaves (R223). -/
def afterFrame (N : Numerics R) (s : State R) : State R :=
  match decode s.cfg.hasX s.parser.buf with
  | .drop cause => s.raiseDrop cause
  | .cmd i => runInstr N i s

theorem afterFrame_cases (N : Numerics R) (s : State R) :
    (∃ cause, decode s.cfg.hasX s.parser.buf = .drop cause ∧ afterFrame N s = s.raiseDrop cause) ∨
    ∃ i, decode s.cfg.hasX s.parser.buf = .cmd i ∧ afterFrame N s = runInstr N i s := by
  cases h : decode s.cfg.hasX s.parser.buf with
  | drop cause => exact .inl ⟨cause, rfl, by simp only [afterFrame, h]⟩
  | cmd i => exact .inr ⟨i, rfl, by simp only [afterFrame, h]⟩

/-- A completed frame writes axis records, timers, the reply queue and the drop log only. -/
theorem afterFrame_elsewhere (N : Numerics R) (s : State R) : SameElsewhere s (afterFrame N s) := by
  obtain ⟨_, -, h⟩ | ⟨i, -, h⟩ := afterFrame_cases N s <;> rw [h]
  · exact ⟨rfl, rfl, rfl, rfl, rfl, rfl, rfl, rfl, rfl, rfl⟩
  · exact runInstr_elsewhere ..

theorem dropLog_prefix_afterFrame (N : Numerics R) (s : State R) : s.dropLog <+: (afterFrame N s).dropLog := by
  obtain ⟨_, -, h⟩ | ⟨i, -, h⟩ := afterFrame_cases N s <;> rw [h]
  · exact List.prefix_append ..
  · exact dropLog_prefix_runInstr ..

variable {B : Build R} (hB : B.RunsInstr) {s t : State R} {e : Event} {b : Byte}
include hB

theorem Build.RunsInstr.completeFrame (s : State R) : B.completeFrame s = .next (afterFrame B.numerics s) := by
  obtain ⟨_, hdec, h⟩ | ⟨i, hdec, h⟩ := afterFrame_cases B.numerics s <;> rw [h]
  · exact B.completeFrame_drop hdec
  · exact (B.completeFrame_cmd hdec).trans (hB i s)

/-- A byte writes the parser, and what a completed frame writes. -/
theorem Build.RunsInstr.rx_elsewhere (h : B.rx b s = .next t) :
    SameElsewhere { s with parser := t.parser } t ∧ s.dropLog <+: t.dropLog := by
  obtain ⟨-, -, hdone⟩ | ht := B.rx_completes_or_writes_parser h
  · rw [hB.completeFrame] at hdone
    cases hdone
    obtain ⟨hcfg, hch, htb, -, hrest⟩ := afterFrame_elsewhere B.numerics
      { s with parser := Parser.idleWith (s.parser.buf.set 10 b) }
    exact ⟨⟨hcfg, hch, htb, rfl, hrest⟩, dropLog_prefix_afterFrame B.numerics
      { s with parser := Parser.idleWith (s.parser.buf.set 10 b) }⟩
  · rw [ht]
    exact ⟨⟨rfl, rfl, rfl, rfl, rfl, rfl, rfl, rfl, rfl, rfl⟩, List.prefix_rfl⟩

/-- What an event leaves alone: the parameters and the model's own fields always, the telemetry unit but for
`TELEM_TICK`, each port but for its setting. -/
theorem Build.RunsInstr.takeEvent_keeps (h : B.takeEvent e s = .next t) :
    t.cfg = s.cfg ∧ t.t = s.t ∧ (e ≠ .telemTick → t.ch = s.ch ∧ t.tbase = s.tbase) ∧
    ((∀ a raw, e ≠ .host (.setAdc a raw)) → t.adc = s.adc) ∧
    ((∀ a v, e ≠ .host (.setRpm a v)) → t.rpmIn = s.rpmIn) ∧ s.dropLog <+: t.dropLog := by
  match e with
  | .host (.rx b) =>
    obtain ⟨⟨hcfg, hch, htb, -, hadc, hrpm, -, ht, -⟩, hdrop⟩ := hB.rx_elsewhere h
    exact ⟨hcfg, ht, fun _ => ⟨hch, htb⟩, fun _ => hadc, fun _ => hrpm, hdrop⟩
  | .host .txPop | .schedTick a =>
    cases h; exact ⟨rfl, rfl, fun _ => ⟨rfl, rfl⟩, fun _ => rfl, fun _ => rfl, List.prefix_rfl⟩
  | .host (.setAdc a raw) =>
    cases h; exact ⟨rfl, rfl, fun _ => ⟨rfl, rfl⟩, fun hn => absurd rfl (hn a raw), fun _ => rfl, List.prefix_rfl⟩
  | .host (.setRpm a v) =>
    cases h; exact ⟨rfl, rfl, fun _ => ⟨rfl, rfl⟩, fun _ => rfl, fun hn => absurd rfl (hn a v), List.prefix_rfl⟩
  | .telemTick =>
    cases h
    rw [telemTick_eq]
    exact ⟨rfl, rfl, fun hn => absurd rfl hn, fun _ => rfl, fun _ => rfl, List.prefix_rfl⟩

end

theorem binary32Build_runsInstr : binary32Build.RunsInstr := exec_eq_runInstr

theorem realBuild_runsInstr : realBuild.RunsInstr := execReal_eq_runInstr

/-! The telemetry tick (43_telemetry.md R281). -/

section
variable {R : Type} (N : Numerics R) (s : State R)

theorem sampleIfDue_tbase :
    (s.sampleIfDue N).tbase =
      { s.tbase with
        lastSampleMs := if Config.tSampleMs ≤ (s.tbase.nowMs - s.tbase.lastSampleMs).toNat then s.tbase.nowMs
          else s.tbase.lastSampleMs } := by
  unfold State.sampleIfDue; split <;> rfl

theorem sampleIfDue_get_ch (a : AxisId) :
    (s.sampleIfDue N).ch.get a =
      if Config.tSampleMs ≤ (s.tbase.nowMs - s.tbase.lastSampleMs).toNat then s.sampled N a else s.ch.get a := by
  unfold State.sampleIfDue; split
  · cases a <;> rfl
  · rfl

theorem averageIfDue_tbase :
    s.averageIfDue.tbase =
      { s.tbase with
        lastAvgMs := if Config.tAvgMs ≤ (s.tbase.nowMs - s.tbase.lastAvgMs).toNat then s.tbase.nowMs
          else s.tbase.lastAvgMs } := by
  unfold State.averageIfDue; split <;> rfl

theorem averageIfDue_get_ch (a : AxisId) :
    s.averageIfDue.ch.get a =
      if Config.tAvgMs ≤ (s.tbase.nowMs - s.tbase.lastAvgMs).toNat then (s.ch.get a).averaged else s.ch.get a := by
  unfold State.averageIfDue; split
  · cases a <;> rfl
  · rfl

theorem telemTick_tbase :
    let now := s.tbase.nowMs + 1#32
    (s.telemTick N).tbase =
      { nowMs := now
        lastSampleMs := if Config.tSampleMs ≤ (now - s.tbase.lastSampleMs).toNat then now else s.tbase.lastSampleMs
        lastAvgMs := if Config.tAvgMs ≤ (now - s.tbase.lastAvgMs).toNat then now else s.tbase.lastAvgMs } := by
  rw [State.telemTick, averageIfDue_tbase, sampleIfDue_tbase]
  rfl

/-- A channel's sample and then its average, each where it is due. -/
theorem telemTick_get_ch (a : AxisId) :
    let now := s.tbase.nowMs + 1#32
    let afterSample := if Config.tSampleMs ≤ (now - s.tbase.lastSampleMs).toNat then s.sampled N a else s.ch.get a
    (s.telemTick N).ch.get a =
      if Config.tAvgMs ≤ (now - s.tbase.lastAvgMs).toNat then afterSample.averaged else afterSample := by
  rw [State.telemTick, averageIfDue_get_ch, sampleIfDue_tbase, sampleIfDue_get_ch]
  rfl

/-- No tick clears a full flag (R283). -/
theorem telemTick_full (a : AxisId) (h : (s.ch.get a).full = true) : ((s.telemTick N).ch.get a).full = true := by
  have hsampled : (s.sampled N a).full = true := by simp [State.sampled, pushSample_full, h]
  rw [telemTick_get_ch]
  split_ifs <;> simp [Channel.averaged, hsampled, h]

end

/-! The order of the timed refinement (60_exceptions.md R313, R320). -/

theorem HostEvent.isPop_iff (e : HostEvent) : e.isPop = true ↔ e = .txPop := by cases e <;> simp [HostEvent.isPop]

section
variable {now : Nat} {pre post : List Arrival} {x : Arrival}

/-- No arrival is due where each is to come later. -/
theorem dueArrival_eq_none {l : List Arrival} : dueArrival now l = none ↔ ∀ y ∈ l, now < y.time := by
  unfold dueArrival
  constructor
  · intro h y hy
    split at h
    · cases h
    next hfirst =>
      have hother := extractFirst_none.mp hfirst y hy
      have hpop := extractFirst_none.mp h y hy
      by_contra hdue
      cases hev : y.ev.isPop <;> simp_all
  · intro h
    have hlate (q : Arrival → Bool) : extractFirst (fun y => decide (y.time ≤ now) && q y) l = none :=
      extractFirst_none.mpr fun y hy => by simp [h y hy]
    rw [hlate fun y => !y.ev.isPop, hlate fun y => y.ev.isPop]

/-- The first due arrival that is no TX_POP is taken. -/
theorem dueArrival_of_not_pop (hx : x.time ≤ now) (hev : x.ev ≠ .txPop)
    (hpre : ∀ y ∈ pre, now < y.time ∨ y.ev = .txPop) :
    dueArrival now (pre ++ x :: post) = some (x, pre ++ post) := by
  have hfirst : extractFirst (fun y => decide (y.time ≤ now) && !y.ev.isPop) (pre ++ x :: post) =
      some (x, pre ++ post) := by
    refine extractFirst_append (fun y hy => ?_) (by simpa [hx, ← HostEvent.isPop_iff] using hev)
    rcases hpre y hy with hlate | hpop
    · simp [hlate]
    · simp [hpop, HostEvent.isPop]
  rw [dueArrival, hfirst]

/-- With nothing else due, the first due TX_POP is taken. -/
theorem dueArrival_of_pop (hx : x.time ≤ now) (hev : x.ev = .txPop)
    (hall : ∀ y ∈ pre ++ post, y.time ≤ now → y.ev = .txPop) (hpre : ∀ y ∈ pre, now < y.time) :
    dueArrival now (pre ++ x :: post) = some (x, pre ++ post) := by
  have hnone : extractFirst (fun y => decide (y.time ≤ now) && !y.ev.isPop) (pre ++ x :: post) = none := by
    refine extractFirst_none.mpr fun y hy => ?_
    have hpop : y.time ≤ now → y.ev = .txPop := by
      obtain hmem | rfl : y ∈ pre ++ post ∨ y = x := by simpa [or_left_comm, or_comm, or_assoc] using hy
      · exact hall y hmem
      · exact fun _ => hev
    by_cases hdue : y.time ≤ now
    · simp [hpop hdue, HostEvent.isPop]
    · simp [hdue]
  rw [dueArrival, hnone]
  exact extractFirst_append (fun y hy => by simp [hpre y hy]) (by simp [hx, hev, HostEvent.isPop])

end

section
variable {R : Type} {B : Build R} {s : State R}

theorem tickDue_iff (a : AxisId) :
    s.tickDue a = true ↔ (s.axis.get a).stepIntervalUs.toNat ≤ (s.timer.get a).toNat := by simp [State.tickDue]

theorem Build.nextStep_nil (h : s.agenda = []) : B.nextStep s = B.timedStep s := by simp [Build.nextStep, h]

/-- With no tick due and no TELEM_TICK, a due arrival is taken. -/
theorem Build.timedStep_arrival {x : Arrival} {rest : List Arrival} (h : ∀ a, s.tickDue a = false)
    (ht : s.telemDue = false) (hd : dueArrival s.t s.arrivals = some (x, rest)) :
    B.timedStep s = B.takeEvent (.host x.ev) { s with arrivals := rest } := by
  simp [Build.timedStep, h, ht, hd]

/-- With nothing due, one µs passes. -/
theorem Build.timedStep_nothing_due (h : ∀ a, s.tickDue a = false) (ht : s.telemDue = false)
    (hd : dueArrival s.t s.arrivals = none) : B.timedStep s = .next s.advanceUs := by
  simp [Build.timedStep, h, ht, hd]

end

theorem forall_axisId {p : AxisId → Prop} : (∀ a, p a) ↔ p .axis0 ∧ p .axis1 ∧ p .axis2 :=
  ⟨fun h => ⟨h _, h _, h _⟩, fun ⟨h0, h1, h2⟩ a => by cases a <;> assumption⟩

/-- Settles O12: no event writes the parameters or takes from the drop log, and a full ring stays full. -/
theorem nothingButResetClears : Obligations.NothingButResetClears := by
  intro s t h
  obtain ⟨e, ag, ar, td, -, he⟩ | ⟨rfl, -⟩ := step_cases h
  · obtain ⟨hcfg, -, hch, -, -, hdrop⟩ := binary32Build_runsInstr.takeEvent_keeps he
    refine ⟨hcfg, hdrop, fun a hfull => ?full⟩
    by_cases htelem : e = .telemTick
    · subst htelem
      cases he
      exact telemTick_full binary32 _ a hfull
    · rw [(hch htelem).1]
      exact hfull
  · exact ⟨rfl, List.prefix_rfl, fun _ hfull => hfull⟩

/-- Settles O30: the tick of the axis's record; a disabled axis's record is as it was. -/
theorem tickIsAxisLocal : Obligations.TickIsAxisLocal := by
  intro s a rest hag
  have hstep : step s = .next { s with
      agenda := rest, axis := s.axis.set a (schedTick binary32 s.cfg (s.axis.get a)),
      timer := s.timer.set a 0#32 } := binary32Build.nextStep_agenda hag
  exact ⟨hstep, fun hoff => by rw [hstep, schedTick_disabled binary32 s.cfg hoff, PerAxis.set_get]⟩

/-- Settles O46: the time base and the channels by their equations, the rest by the tick's frame. -/
theorem telemetryTick : Obligations.TelemetryTick := by
  intro s rest hag now sampled averaged sample
  let u : State := { s with agenda := rest }
  have hstep : step s = .next (u.telemTick binary32) := binary32Build.nextStep_agenda hag
  have hframe := telemTick_eq binary32 u
  have htbase : (u.telemTick binary32).tbase =
      { nowMs := now
        lastSampleMs := if sampled then now else s.tbase.lastSampleMs
        lastAvgMs := if averaged then now else s.tbase.lastAvgMs } := by
    simp only [sampled, averaged, decide_eq_true_eq]
    exact telemTick_tbase binary32 u
  refine ⟨_, hstep, by rw [htbase], by rw [htbase], by rw [htbase], fun a => ?channel, ?frame⟩
  case channel =>
    simp only [sampled, averaged, decide_eq_true_eq]
    exact telemTick_get_ch binary32 u a
  case frame =>
    rw [hframe]
    exact ⟨rfl, rfl, rfl, rfl, rfl, rfl, rfl, rfl, rfl, rfl, rfl, rfl⟩

/-- Settles O50: only TELEM_TICK writes the channels and the time base, and it writes nothing else. -/
theorem telemetryAndMotionAreApart : Obligations.TelemetryAndMotionAreApart := by
  intro s t e h
  obtain ⟨-, -, hch, -⟩ := binary32Build_runsInstr.takeEvent_keeps h
  refine ⟨hch, ?_⟩
  rintro rfl
  cases h
  exact ⟨telemTick_axis .., telemTick_timer .., telemTick_txq ..⟩

/-- Settles O55: an environment's event is one write of a port, and no other event writes one. -/
theorem environmentSetsPorts : Obligations.EnvironmentSetsPorts := by
  refine ⟨fun s a raw rest hag => ?adc, fun s a v rest hag => ?rpm, fun s t e h => ?others⟩
  case adc =>
    refine ⟨_, binary32Build.nextStep_agenda hag, rfl, PerAxis.get_set_self .., ?_, fun b hb =>
      PerAxis.get_set_ne _ _ hb⟩
    exact congrArg (min · s.cfg.adcMax) (PerAxis.get_set_self ..)
  case rpm =>
    exact ⟨_, binary32Build.nextStep_agenda hag, rfl, PerAxis.get_set_self .., fun b hb => PerAxis.get_set_ne _ _ hb⟩
  case others =>
    obtain ⟨-, -, -, hadc, hrpm, -⟩ := binary32Build_runsInstr.takeEvent_keeps h
    exact ⟨hadc, hrpm⟩

/-- Settles O51: the tests of `timedStep` in their order. -/
theorem timedPriority : Obligations.TimedPriority := by
  intro s hag due
  have hstep : step s = binary32Build.timedStep s := binary32Build.nextStep_nil hag
  have hdue (a : AxisId) : s.tickDue a = true ↔ due a := tickDue_iff a
  have hnot {a : AxisId} (h : ¬due a) : s.tickDue a = false := by simpa [← hdue] using h
  rw [hstep]
  refine ⟨fun h0 => ?_, fun h0 h1 => ?_, fun h0 h1 h2 => ?_, fun h0 h1 h2 ht => ?_, fun h0 h1 h2 ht => ?_⟩
  · simp [Build.timedStep, (hdue _).mpr h0]
  · simp [Build.timedStep, hnot h0, (hdue _).mpr h1]
  · simp [Build.timedStep, hnot h0, hnot h1, (hdue _).mpr h2]
  · simp [Build.timedStep, hnot h0, hnot h1, hnot h2, ht]
  · have hticks : ∀ a, s.tickDue a = false := forall_axisId.mpr ⟨hnot h0, hnot h1, hnot h2⟩
    refine ⟨fun pre x post harr hx hev hpre => ?_, fun pre x post harr hx hev hall hpre => ?_⟩
    · exact Build.timedStep_arrival hticks ht (harr ▸ dueArrival_of_not_pop hx hev hpre)
    · rw [← hev]
      exact Build.timedStep_arrival hticks ht (harr ▸ dueArrival_of_pop hx hev hall hpre)

/-- Settles O52: an event leaves the time as it is, and a µs passes where nothing is due. -/
theorem timeMovesWhenNothingIsDue : Obligations.TimeMovesWhenNothingIsDue := by
  intro s t hinv hag h
  have hstep : step s = binary32Build.timedStep s := binary32Build.nextStep_nil hag
  have hidle : ((∀ a, (s.timer.get a).toNat < (s.axis.get a).stepIntervalUs.toNat) ∧ s.telemDue = false ∧
      ∀ x ∈ s.arrivals, s.t < x.time) ↔
      (∀ a, s.tickDue a = false) ∧ s.telemDue = false ∧ dueArrival s.t s.arrivals = none := by
    simp only [dueArrival_eq_none, ← Bool.not_eq_true, tickDue_iff, not_le]
  have hdueNow (a : AxisId) (hd : s.tickDue a = true) : s.timer.get a = (s.axis.get a).stepIntervalUs :=
    BitVec.eq_of_toNat_eq (le_antisymm (hinv.timers a) ((tickDue_iff a).mp hd))
  obtain ⟨e, ag, ar, td, -, he⟩ | ⟨rfl, -, hticks, htelem, hnone⟩ := step_cases h
  case inl =>
    obtain ⟨-, htime, -⟩ := binary32Build_runsInstr.takeEvent_keeps he
    have hstays : t.t = s.t := htime
    refine ⟨⟨fun hmoves => by omega, fun hcond => ?moves⟩, fun _ => hstays, fun hmoves => by omega, hdueNow⟩
    case moves =>
      obtain ⟨hticks, htelem, hnone⟩ := hidle.mp hcond
      cases (hstep.trans (Build.timedStep_nothing_due hticks htelem hnone)).symm.trans h
      rfl
  case inr =>
    have hcond := hidle.mpr ⟨hticks, htelem, hnone⟩
    refine ⟨⟨fun _ => hcond, fun _ => rfl⟩, fun hn => absurd rfl hn, fun _ => ⟨rfl, rfl, rfl, fun a => ?count, ?telem⟩,
      hdueNow⟩
    case count =>
      obtain ⟨hbelow, -⟩ := hcond
      have hlt := hbelow a
      have hcount : s.advanceUs.timer.get a = s.timer.get a + 1#32 := by cases a <;> rfl
      rw [hcount]
      bv_omega
    case telem => exact decide_eq_true_iff

end Sys2Proof.Machine

/-! The proofs about the planner's sums and its real arithmetic (40_planner.md R153 to R160). -/

namespace Sys2Proof.Machine

/-- The counts of a plan: they sum to the total, which is the move's, with no step done (R158). -/
theorem plan_counts {R : Type} (N : Numerics R) (v0 vT vE a : R) (n : U32) :
    let p := plan N v0 vT vE a n
    p.accelSteps.toNat + p.cruiseSteps.toNat + p.decelSteps.toNat = n.toNat ∧ p.totalSteps = n ∧
      p.stepsDone = 0#32 := by
  intro p
  obtain hshort | hfits := Nat.lt_or_ge n.toNat
    (rndSat N (rampDistance N vT v0 (N.mul (N.ofInt 2) a)) + rndSat N (rampDistance N vT vE (N.mul (N.ofInt 2) a)))
  case inl =>
    have hp : p = _ := plan_triangular rfl rfl hshort
    have hle := Nat.min_le_left n.toNat
      (rndSat N (rampDistance N (trianglePeak N v0 vT vE a n) v0 (N.mul (N.ofInt 2) a)))
    rw [hp]
    refine ⟨?_, rfl, rfl⟩
    rw [toNat_ofNat_of_le_toNat (n := n) hle, toNat_ofNat_of_le_toNat (n := n) (Nat.sub_le ..)]
    simp only [BitVec.toNat_ofNat]
    omega
  case inr =>
    have hp : p = _ := plan_trapezoidal rfl rfl hfits
    rw [hp]
    refine ⟨?_, rfl, rfl⟩
    rw [toNat_ofNat_of_le_toNat (n := n), toNat_ofNat_of_le_toNat (n := n), toNat_ofNat_of_le_toNat (n := n)] <;> omega

/-- Settles O40: each count is a part of the sum. -/
theorem planPhasesSumExactly : Obligations.PlanPhasesSumExactly := by
  intro R N v0 vT vE a n p
  obtain ⟨hsum, htotal, hdone⟩ :
      p.accelSteps.toNat + p.cruiseSteps.toNat + p.decelSteps.toNat = n.toNat ∧ p.totalSteps = n ∧
        p.stepsDone = 0#32 := plan_counts N v0 vT vE a n
  refine ⟨htotal ▸ hsum, htotal, hdone, ?_, ?_, ?_⟩ <;> omega

/-! Under `REAL`. -/

theorem rampDistance_real {v u twoA : ℝ} (h : twoA ≠ 0) :
    rampDistance realNumerics v u twoA = max 0 ((v * v - u * u) / twoA) := by
  rw [rampDistance, realNumerics_div _ _ h]
  simp [realNumerics]

/-- A rounded count is at most half a step above a distance that is not negative. -/
theorem rndSat_real_le {x : ℝ} (hx : 0 ≤ x) : (rndSat realNumerics x : ℝ) ≤ x + 1 / 2 := by
  have hfloor : 0 ≤ ⌊x + 1 / 2⌋ := Int.floor_nonneg.mpr (by linarith)
  have hsat : (rndSat realNumerics x : Int) ≤ ⌊x + 1 / 2⌋ := by
    simp only [rndSat, realNumerics, satRounded, sat]
    omega
  calc (rndSat realNumerics x : ℝ) = ((rndSat realNumerics x : Int) : ℝ) := (Int.cast_natCast _).symm
    _ ≤ (⌊x + 1 / 2⌋ : ℝ) := by exact_mod_cast hsat
    _ ≤ x + 1 / 2 := Int.floor_le _

theorem rndSat_real_zero : rndSat realNumerics 0 = 0 := by
  have hlt : (rndSat realNumerics 0 : ℝ) < 1 := by linarith [rndSat_real_le le_rfl]
  exact Nat.lt_one_iff.mp (by exact_mod_cast hlt)

/-- The triangular peak over the reals, its root being of a number that is not negative (R155). -/
theorem trianglePeak_real {v0 vT a : ℝ} {n : U32} (h : 0 ≤ a * n.toNat + v0 * v0) :
    trianglePeak realNumerics v0 vT v0 a n = max v0 (min (Real.sqrt (a * n.toNat + v0 * v0)) vT) := by
  have hsum : realNumerics.add (realNumerics.mul a (realNumerics.ofInt n.toNat))
      (realNumerics.div (realNumerics.add (realNumerics.mul v0 v0) (realNumerics.mul v0 v0)) (realNumerics.ofInt 2)) =
      a * n.toNat + v0 * v0 := by
    rw [realNumerics_div _ _ (by simp [realNumerics])]
    simp [realNumerics]
  simp only [trianglePeak, hsum, realNumerics_sqrt _ h]
  rfl

/-- Settles O43: where two rounded ramps do not fit, twice the unrounded one is more than the move, so that the
unlimited peak is below the target. -/
theorem realTrianglePeakWithinBounds : Obligations.RealTrianglePeakWithinBounds := by
  intro v0 vT a n hv0 hvT ha hn d hshort p
  have htwo : realNumerics.mul (realNumerics.ofInt 2) a = 2 * a := by simp [realNumerics]
  have hdist := rampDistance_real (v := vT) (u := v0) (twoA := 2 * a) (by positivity)
  have hroom : a * n.toNat ≤ vT * vT - v0 * v0 := by
    have hd : (d : ℝ) ≤ max 0 ((vT * vT - v0 * v0) / (2 * a)) + 1 / 2 := hdist ▸ rndSat_real_le (by simp [hdist])
    have hn2 : (n.toNat : ℝ) + 1 ≤ d + d := by exact_mod_cast hshort
    have hn1 : (1 : ℝ) ≤ n.toNat := by exact_mod_cast hn
    have hn3 : (n.toNat : ℝ) ≤ 2 * max 0 ((vT * vT - v0 * v0) / (2 * a)) := by linarith
    rcases max_cases (0 : ℝ) ((vT * vT - v0 * v0) / (2 * a)) with ⟨hm, -⟩ | ⟨hm, -⟩
    · rw [hm] at hn3; linarith
    · rw [hm] at hn3
      have hmul : a * n.toNat ≤ a * (2 * ((vT * vT - v0 * v0) / (2 * a))) := mul_le_mul_of_nonneg_left hn3 ha.le
      have hcancel : a * (2 * ((vT * vT - v0 * v0) / (2 * a))) = vT * vT - v0 * v0 := by field_simp
      linarith
  have hnonneg : 0 ≤ a * n.toNat + v0 * v0 := by positivity
  have hgain : 0 ≤ a * n.toNat := by positivity
  have hlow : v0 ≤ Real.sqrt (a * n.toNat + v0 * v0) := Real.le_sqrt_of_sq_le (by nlinarith)
  have hhigh : Real.sqrt (a * n.toNat + v0 * v0) ≤ vT := Real.sqrt_le_iff.mpr ⟨hvT.le, by nlinarith⟩
  have hpeak : p.peakSpeedSps = Real.sqrt (a * n.toNat + v0 * v0) := by
    have hp : p = _ := plan_triangular (A := d) (D := d) (by rw [htwo]) (by rw [htwo]) hshort
    rw [hp]
    exact (trianglePeak_real hnonneg).trans (by rw [min_eq_left hhigh, max_eq_right hlow])
  exact ⟨hpeak, hpeak ▸ hlow, hpeak ▸ hhigh⟩

/-- Settles O44: a ramp down to the target has no length, so both ramps fit. -/
theorem realPlanBelowStartSpeed : Obligations.RealPlanBelowStartSpeed := by
  intro v0 vT a n hvT hle ha
  have htwo : realNumerics.mul (realNumerics.ofInt 2) a = 2 * a := by simp [realNumerics]
  have hramp :
      rndSat realNumerics (rampDistance realNumerics vT v0 (realNumerics.mul (realNumerics.ofInt 2) a)) = 0 := by
    have hneg : (vT * vT - v0 * v0) / (2 * a) ≤ 0 :=
      div_nonpos_of_nonpos_of_nonneg (by nlinarith) (by positivity)
    rw [htwo, rampDistance_real (by positivity), max_eq_left hneg, rndSat_real_zero]
  rw [plan_trapezoidal hramp hramp (Nat.zero_le _)]
  simp

end Sys2Proof.Machine

/-! The invariant of the fields that are no speeds, over either arithmetic. First that each operation on a record keeps
`AxisOk`, then that each event keeps `State.IntegersOk` and gives a next state, and last the obligations. -/

namespace Sys2Proof.Machine

/-! A record. -/

section
variable {R : Type} (N : Numerics R) {c : ConfigOf R} {ax : AxisOf R}

theorem one_le_timerMaxUs {h : U32} (hok : IntervalOk c h) : 1 ≤ c.timerMaxUs.toNat := hok.1.trans hok.2

/-- The interval of a legal record stays legal when the mailbox is applied. -/
theorem intervalOk_applied (h : AxisOk c ax) : IntervalOk c (ax.pendingIntervalUs.getD ax.stepIntervalUs) := by
  obtain ⟨-, hint, hpend, -⟩ := h
  cases hp : ax.pendingIntervalUs with
  | none => exact hint
  | some v => exact hpend v hp

theorem intervalOk_halfPeriod (v : R) (h : AxisOk c ax) : IntervalOk c (halfPeriod N c v ax.stepIntervalUs) := by
  obtain ⟨-, hint, -⟩ := h
  exact halfPeriod_ok N v (one_le_timerMaxUs hint) hint

/-- A new plan is one of a move with all its steps left. -/
theorem planOk_plan (v0 vT vE a : R) (n : U32) : PlanOk (plan N v0 vT vE a n) n := by
  obtain ⟨hsum, htotal, hdone⟩ := plan_counts N v0 vT vE a n
  exact ⟨hsum.trans (by rw [htotal]), by simp [htotal, hdone]⟩

theorem axisOk_startAxis {n : U32} (hn : n.toNat ≤ 999999) (h : AxisOk c ax) : AxisOk c (startAxis N c n ax) := by
  cases ht : ax.trapezoidEnabled with
  | true =>
    have hnew := intervalOk_halfPeriod N c.vMinSps h
    rw [startAxis_trapezoid N ht]
    refine ⟨hn, hnew, nofun, fun p hp => ?_, nofun⟩
    by_cases h0 : n = 0#32
    · simp [startTrapezoid, h0] at hp
    · obtain rfl : plan N _ _ _ _ n = p := by simpa [startTrapezoid, h0] using hp
      exact ⟨planOk_plan .., h0, ht⟩
  | false =>
    rw [startAxis_direct N ht]
    exact ⟨hn, intervalOk_applied h, nofun, nofun, nofun⟩

theorem axisOk_stopAxis (h : AxisOk c ax) : AxisOk c (stopAxis N ax) := by
  obtain ⟨-, hint, hpend, -⟩ := h
  exact ⟨Nat.zero_le _, hint, hpend, nofun, fun _ => rfl⟩

theorem axisOk_speedAxis (v : R) (h : AxisOk c ax) : AxisOk c (speedAxis N c v ax) := by
  have hnew := intervalOk_halfPeriod N v h
  obtain ⟨hrem, hint, hpend, hplan, hoff⟩ := h
  cases ht : ax.trapezoidEnabled with
  | true =>
    rw [speedAxis_trapezoid N v ht]
    refine ⟨hrem, hint, hpend, fun p hp => ?_, hoff⟩
    cases hc : c.vClearsPlan <;> simp [hc] at hp
    exact hplan p hp
  | false =>
    rw [speedAxis_direct N v ht]
    exact ⟨hrem, hint, fun x hx => Option.mem_some.mp hx ▸ hnew, hplan, hoff⟩

theorem axisOk_trapAxis (v : Nat) (h : AxisOk c ax) : AxisOk c (trapAxis N c v ax) := by
  have hnew := intervalOk_halfPeriod N ax.targetSpeedSps h
  have hsame := h
  obtain ⟨hrem, hint, hpend, hplan, hoff⟩ := h
  unfold trapAxis
  split
  · exact ⟨hrem, hint, fun x hx => Option.mem_some.mp hx ▸ hnew, nofun, hoff⟩
  · refine ⟨hrem, hint, hpend, fun p hp => ?_, hoff⟩
    obtain ⟨hok, hbounded, -⟩ := hplan p hp
    exact ⟨hok, hbounded, rfl⟩
  · exact hsame
  · exact hsame

/-- Every command keeps a record legal. -/
theorem axisOk_axisEffect {i : Instr} (hi : i.value ≤ 999999) (h : AxisOk c ax) : AxisOk c (axisEffect N c i ax) := by
  cases i with
  | start a n => exact axisOk_startAxis N ((stepCount_toNat hi).le.trans hi) h
  | stop => exact axisOk_stopAxis N h
  | fwd | rev | ena | dis | qcur | qrot => exact h
  | speed a rpm =>
    simp only [axisEffect]
    split
    · exact h
    · exact axisOk_speedAxis N _ h
  | trap a v => exact axisOk_trapAxis N v h

/-- A flip keeps a record legal: a step counted is one fewer left and one more done. -/
theorem axisOk_flipStep (hen : ax.enabled = true) (h : AxisOk c ax) : AxisOk c (flipStep ax) := by
  have happlied := intervalOk_applied h
  obtain ⟨hrem, hint, hpend, hplan, -⟩ := h
  rcases bit_cases ax.stepLevel with hlow | hhigh
  case inr =>
    rw [flipStep_falling hhigh]
    exact ⟨hrem, hint, hpend, hplan, fun hoff => by simp [hen] at hoff⟩
  by_cases h0 : ax.remainingSteps = 0#32
  · rw [flipStep_unbounded hlow h0]
    exact ⟨hrem, happlied, nofun, hplan, fun _ => h0⟩
  by_cases h1 : ax.remainingSteps = 1#32
  · rw [flipStep_last hlow h1]
    exact ⟨Nat.zero_le _, happlied, nofun, nofun, fun _ => rfl⟩
  have hmore : 1 < ax.remainingSteps.toNat := by bv_omega
  rw [flipStep_more hlow hmore]
  refine ⟨by bv_omega, happlied, nofun, fun q hq => ?_, fun hoff => by simp [hen] at hoff⟩
  obtain ⟨p, hp, rfl⟩ := Option.map_eq_some_iff.mp hq
  obtain ⟨⟨hsum, hprogress⟩, -, ht⟩ := hplan p hp
  have hdone : (p.stepsDone + 1#32).toNat = p.stepsDone.toNat + 1 := by bv_omega
  exact ⟨⟨hsum, by bv_omega⟩, by bv_omega, ht⟩

/-- A tick keeps a record legal. -/
theorem axisOk_schedTick (h : AxisOk c ax) : AxisOk c (schedTick N c ax) := by
  cases hen : ax.enabled with
  | false => rwa [schedTick_disabled N c hen]
  | true =>
    have hflip := axisOk_flipStep hen h
    rw [schedTick_enabled N c hen]
    split
    · have hnew := intervalOk_halfPeriod N (nextSpeed N c (flipStep ax)) hflip
      obtain ⟨hrem, -, hpend, hplan, hoff⟩ := hflip
      exact ⟨hrem, hnew, hpend, hplan, hoff⟩
    · exact hflip

end

/-! The state. -/

/-- A decoded command carries a value of six digits (R114). -/
theorem value_le_of_decode_cmd {hasX : Bool} {f : Frame} {i : Instr} (h : decode hasX f = .cmd i) :
    i.value ≤ 999999 := by
  obtain ⟨hvalue, -⟩ : i.value ≤ 999999 ∧ i.presentIn hasX = true := by
    simpa [Instr.wf, Instr.valueOk] using wf_of_decode_cmd h
  exact hvalue

section
variable {R : Type} (N : Numerics R) {s : State R}

/-- A completed frame that begins with STX is dropped with the cause that `decode` gives. -/
theorem integersOk_raiseDrop {cause : DropCause} (h : s.IntegersOk) (hstx : s.parser.buf[0] = stx)
    (hdec : decode s.cfg.hasX s.parser.buf = .drop cause) : (s.raiseDrop cause).IntegersOk where
  axes := h.axes
  parser := h.parser
  timeBase := h.timeBase
  drops := List.forall_mem_append.mpr ⟨h.drops, List.forall_mem_singleton.mpr ⟨hstx, .inl hdec⟩⟩
  timers := h.timers
  telemDue := h.telemDue

section
variable {i : Instr} (h : s.IntegersOk) (hstx : s.parser.buf[0] = stx)
  (hdec : decode s.cfg.hasX s.parser.buf = .cmd i)
include h

/-- START restarts the timer of the axis whose interval it may change. -/
theorem timers_runInstr (b : AxisId) :
    ((runInstr N i s).timer.get b).toNat ≤ ((runInstr N i s).axis.get b).stepIntervalUs.toNat := by
  by_cases hb : b = i.axis
  case neg => rw [runInstr_get_ne _ _ _ hb, runInstr_get_timer_ne _ _ _ hb]; exact h.timers b
  subst hb
  rw [runInstr_get_axis]
  obtain ⟨a, n, rfl, ht⟩ | ⟨ht, hint⟩ := runInstr_timer N i s
  · rw [ht, Instr.axis, PerAxis.get_set_self]; exact Nat.zero_le _
  · rw [ht, hint]; exact h.timers _

include hstx hdec

/-- The only drop a decoded command raises is a SPEED of value 0: QROT is decoded with the option only. -/
theorem drops_runInstr : ∀ d ∈ (runInstr N i s).dropLog, DropOk s.cfg d := by
  obtain hlog | ⟨a, rfl, hlog⟩ | ⟨a, v, rfl, hX, -⟩ := runInstr_dropLog N i s
  · rw [hlog]; exact h.drops
  · rw [hlog]
    have hcause : DropOk s.cfg ⟨.badValue, s.parser.buf⟩ :=
      ⟨hstx, .inr ⟨rfl, by cases a <;> simp [hdec]⟩⟩
    exact List.forall_mem_append.mpr ⟨h.drops, List.forall_mem_singleton.mpr hcause⟩
  · simp [hasX_of_decode_qrot hdec] at hX

theorem integersOk_runInstr : (runInstr N i s).IntegersOk := by
  have hvalue := value_le_of_decode_cmd hdec
  have htimers := timers_runInstr N (i := i) h
  have hdrops := drops_runInstr N h hstx hdec
  obtain ⟨hcfg, -, htb, hparser, -, -, -, ht, -, htd⟩ := runInstr_elsewhere N i s
  refine ⟨fun b => ?axes, hparser ▸ h.parser, htb ▸ h.timeBase, hcfg ▸ hdrops, htimers,
    by rw [htd, ht]; exact h.telemDue⟩
  rw [hcfg]
  by_cases hb : b = i.axis
  · subst hb; rw [runInstr_get_axis]; exact axisOk_axisEffect N hvalue (h.axes _)
  · rw [runInstr_get_ne _ _ _ hb]; exact h.axes b

end

/-- The eleventh byte of a frame begun with STX. -/
theorem integersOk_afterFrame {buf : Frame} (h : s.IntegersOk) (hstx : buf[0] = stx) :
    (afterFrame N { s with parser := Parser.idleWith buf }).IntegersOk := by
  have hidle : State.IntegersOk { s with parser := Parser.idleWith buf } :=
    { axes := h.axes, parser := ⟨fun _ => rfl, nofun⟩, timeBase := h.timeBase, drops := h.drops, timers := h.timers,
      telemDue := h.telemDue }
  obtain ⟨cause, hdec, hu⟩ | ⟨i, hdec, hu⟩ := afterFrame_cases N { s with parser := Parser.idleWith buf } <;> rw [hu]
  · exact integersOk_raiseDrop hidle hstx hdec
  · exact integersOk_runInstr N hidle hstx hdec

theorem integersOk_parser {p : Parser} (h : s.IntegersOk) (hp : ParserOk p) :
    State.IntegersOk { s with parser := p } where
  axes := h.axes
  parser := hp
  timeBase := h.timeBase
  drops := h.drops
  timers := h.timers
  telemDue := h.telemDue

theorem integersOk_rxIdle (b : Byte) (h : s.IntegersOk) : (rxIdle b s).IntegersOk := by
  unfold rxIdle
  split
  next hb => exact integersOk_parser h ⟨nofun, fun _ => ⟨le_rfl, by simp, hb ▸ Vector.getElem_set_self _⟩⟩
  next => exact h

/-- A tick restarts the timer of the axis whose interval it may change. -/
theorem integersOk_tick (a : AxisId) (h : s.IntegersOk) :
    ((s.updAxis a (schedTick N s.cfg)).restartTimer a).IntegersOk where
  axes b := by
    by_cases hb : b = a
    · subst hb; simpa using axisOk_schedTick N (h.axes b)
    · simpa [hb] using h.axes b
  parser := h.parser
  timeBase := h.timeBase
  drops := h.drops
  timers b := by
    by_cases hb : b = a
    · subst hb; simp
    · simpa [hb] using h.timers b
  telemDue := h.telemDue

/-- One ms more is sampled and averaged as soon as a period has passed. -/
theorem timeBaseOk_telemTick (h : TimeBaseOk s.tbase) : TimeBaseOk (s.telemTick N).tbase := by
  obtain ⟨hsample, havg⟩ := h
  rw [telemTick_tbase]
  simp only [TimeBaseOk]
  constructor
  · split
    · simp [Config.tSampleMs]
    · omega
  · split
    · simp [Config.tAvgMs]
    · omega

theorem integersOk_telemTick (h : s.IntegersOk) : (s.telemTick N).IntegersOk := by
  have htb := timeBaseOk_telemTick N h.timeBase
  rw [telemTick_eq]
  exact ⟨h.axes, h.parser, htb, h.drops, h.timers, h.telemDue⟩

/-- A µs passes where no count has reached its period. -/
theorem integersOk_advanceUs (h : s.IntegersOk) (hdue : ∀ a, s.tickDue a = false) : s.advanceUs.IntegersOk where
  axes := h.axes
  parser := h.parser
  timeBase := h.timeBase
  drops := h.drops
  timers a := by
    have hlt : ¬(s.axis.get a).stepIntervalUs.toNat ≤ (s.timer.get a).toNat := by
      rw [← tickDue_iff]; simp [hdue a]
    have hcount : s.advanceUs.timer.get a = s.timer.get a + 1#32 := by cases a <;> rfl
    rw [hcount, State.advanceUs_axis]
    bv_omega
  telemDue := by simp

variable {B : Build R} (hB : B.RunsInstr)
include hB

theorem Build.RunsInstr.rx_integersOk (b : Byte) (h : s.IntegersOk) : ∃ t, B.rx b s = .next t ∧ t.IntegersOk := by
  obtain ⟨hidle, haccum⟩ := h.parser
  cases hp : s.parser.pstate with
  | idle => exact ⟨_, B.rx_idle hp, integersOk_rxIdle b h⟩
  | accum =>
    obtain ⟨h1, h10, hstx⟩ := haccum hp
    have hbegun : (s.parser.buf.set s.parser.idx.val b)[0] = stx :=
      (Vector.getElem_set_ne _ _ (by omega)).trans hstx
    rw [B.rx_accum hp]
    obtain hlt | heq := Nat.lt_or_eq_of_le h10
    · exact ⟨_, B.rxAccum_more hlt, integersOk_parser h ⟨nofun, fun _ => ⟨by simp, by simpa using hlt, hbegun⟩⟩⟩
    · refine ⟨_, (B.rxAccum_last heq).trans (hB.completeFrame _), integersOk_afterFrame _ h ?_⟩
      simpa [heq] using hbegun

theorem Build.RunsInstr.takeEvent_integersOk (e : Event) (h : s.IntegersOk) :
    ∃ t, B.takeEvent e s = .next t ∧ t.IntegersOk := by
  match e with
  | .host (.rx b) => exact hB.rx_integersOk b h
  | .host .txPop | .host (.setAdc _ _) | .host (.setRpm _ _) =>
    exact ⟨_, rfl, h.axes, h.parser, h.timeBase, h.drops, h.timers, h.telemDue⟩
  | .schedTick a => exact ⟨_, rfl, integersOk_tick _ a h⟩
  | .telemTick => exact ⟨_, rfl, integersOk_telemTick _ h⟩

omit hB in
/-- A step is one agent's event on the state with the model's own scheduling fields moved on, or one µs where no tick
is due. -/
theorem Build.nextStep_eq (B : Build R) (s : State R) :
    (∃ e ag ar td, (td = true → s.telemDue = true) ∧
      B.nextStep s = B.takeEvent e { s with agenda := ag, arrivals := ar, telemDue := td }) ∨
    (B.nextStep s = .next s.advanceUs ∧ ∀ a, s.tickDue a = false) := by
  unfold Build.nextStep
  split
  · exact .inl ⟨_, _, s.arrivals, s.telemDue, id, rfl⟩
  unfold Build.timedStep
  split
  · exact .inl ⟨.schedTick .axis0, s.agenda, s.arrivals, s.telemDue, id, rfl⟩
  split
  · exact .inl ⟨.schedTick .axis1, s.agenda, s.arrivals, s.telemDue, id, rfl⟩
  split
  · exact .inl ⟨.schedTick .axis2, s.agenda, s.arrivals, s.telemDue, id, rfl⟩
  split
  · exact .inl ⟨.telemTick, s.agenda, s.arrivals, false, nofun, rfl⟩
  split
  · exact .inl ⟨_, s.agenda, _, s.telemDue, id, rfl⟩
  · exact .inr ⟨rfl, forall_axisId.mpr (by simp_all)⟩

/-- From a state that meets the invariant a step gives a next state, which meets it. -/
theorem Build.RunsInstr.nextStep_integersOk (h : s.IntegersOk) : ∃ t, B.nextStep s = .next t ∧ t.IntegersOk := by
  obtain ⟨e, ag, ar, td, htd, hstep⟩ | ⟨hstep, hdue⟩ := B.nextStep_eq s <;> rw [hstep]
  · exact hB.takeEvent_integersOk e
      ⟨h.axes, h.parser, h.timeBase, h.drops, h.timers, fun ht => h.telemDue (htd ht)⟩
  · exact ⟨_, rfl, integersOk_advanceUs h hdue⟩

end

/-- Settles O11: an accumulating parser holds at most ten bytes, so a byte never faults. -/
theorem stepNeverStops : Obligations.StepNeverStops := by
  intro s h
  obtain ⟨t, hstep, -⟩ := binary32Build_runsInstr.nextStep_integersOk h.toIntegersOk
  exact ⟨t, hstep⟩

/-- Settles O9: the parameters are never written. -/
theorem stepKeepsInvariant : Obligations.StepKeepsInvariant := by
  intro s t h hstep
  obtain ⟨u, hu, hok⟩ := binary32Build_runsInstr.nextStep_integersOk h.toIntegersOk
  cases hu.symm.trans hstep
  obtain ⟨hcfg, -⟩ := nothingButResetClears s t hstep
  exact ⟨hok, hcfg ▸ h.params⟩

end Sys2Proof.Machine

/-! The proofs that reset meets the invariant (70_reset_and_hazards.md R350). First positive values in units, then the
parameters, then the record after reset, and last the obligations. -/

namespace Sys2Proof.Machine.Binary32

theorem magUnits_eq_zero_iff {b : Nat} : magUnits b = 0 ↔ b = 0 := by
  unfold magUnits
  split
  · rfl
  next h =>
    have hpos : (2 ^ 23 + b % 2 ^ 23) * 2 ^ (b / 2 ^ 23 - 1) ≠ 0 := by positivity
    have hb : b ≠ 0 := by rintro rfl; exact h rfl
    simp [hb]

/-- The constraint of a positive parameter, in units (log entry 4). -/
theorem isPosFinite_iff {x : F32} : F32.isPosFinite x = true ↔ F32.isFinite x = true ∧ 0 < units x := by
  have hpos : 0 < magUnits (F32.magBits x) ↔ F32.isZero x = false := by
    rw [Nat.pos_iff_ne_zero, Ne, magUnits_eq_zero_iff]
    simp [F32.isZero]
  cases hs : F32.sign x with
  | true => simp [F32.isPosFinite, units, hs]
  | false => simp [F32.isPosFinite, units, hs, hpos]

theorem units_ne_zero {x : F32} (h : F32.isZero x = false) : units x ≠ 0 := by
  have hmag : magUnits (F32.magBits x) ≠ 0 := by
    rw [Ne, magUnits_eq_zero_iff]; exact of_decide_eq_false h
  unfold units
  split <;> omega

end Sys2Proof.Machine.Binary32

namespace Sys2Proof

/-- A value brought inside a constraint meets it where its replacement does. -/
theorem Config.within_ok {A : Type} {ok : A → Bool} {v w : A} (hw : ok w = true) :
    ok (Config.within ok v w) = true := by
  unfold Config.within
  split <;> assumption

/-- Each parameter without a body is brought inside its constraint (log entry 2); the others are literals. -/
theorem Config.current_wf : Config.current.wf = true := by
  have hsens : (Config.current.sensVPerA.isFinite && !Config.current.sensVPerA.isZero) = true :=
    Config.within_ok (ok := fun x : F32 => x.isFinite && !x.isZero) (by decide)
  obtain ⟨hfinite, hzero⟩ := Bool.and_eq_true_iff.mp hsens
  simp only [Config.wf, Bool.and_eq_true]
  exact ⟨⟨⟨⟨⟨⟨⟨⟨⟨⟨⟨by decide, Config.within_ok (by decide)⟩,
    Config.within_ok (ok := fun n => decide (1 ≤ n ∧ n ≤ 65535)) (by decide)⟩,
    Config.within_ok (ok := fun n : U32 => decide (1 ≤ n.toNat)) (by decide)⟩, by decide⟩, by decide⟩,
    Config.within_ok (by decide)⟩, Config.within_ok (by decide)⟩,
    Config.within_ok (ok := fun n => decide (1 ≤ n)) (by decide)⟩, Config.within_ok (by decide)⟩, hfinite⟩, hzero⟩

section
variable {c : Config} (h : c.wf = true)
include h

/-- The constraints on the parameters that the step's arithmetic reads. -/
theorem Config.wf_speeds : F32.isPosFinite c.vMinSps = true ∧ F32.isPosFinite c.aMinSps2 = true ∧
    (1 ≤ c.stepsPerRev ∧ c.stepsPerRev ≤ 65535) ∧ 1 ≤ c.timerMaxUs.toNat ∧ (c.dtDivisor = 1 ∨ c.dtDivisor = 2) ∧
    F32.isPosFinite c.resetTargetSps = true := by
  simp only [Config.wf, Bool.and_eq_true, decide_eq_true_eq] at h
  tauto

theorem Config.wf_sensor : F32.isPosFinite c.adcVrefV = true ∧ F32.isPosFinite c.adcRes = true ∧ 1 ≤ c.adcMax ∧
    F32.isZero c.sensVPerA = false := by
  simp only [Config.wf, Bool.and_eq_true, decide_eq_true_eq, Bool.not_eq_true'] at h
  tauto

end

end Sys2Proof

namespace Sys2Proof.Machine

/-- A record after reset is legal wherever the timer holds a microsecond. -/
theorem axisOk_reset {R : Type} (N : Numerics R) {c : ConfigOf R} (hT : 1 ≤ c.timerMaxUs.toNat) :
    AxisOk c (AxisOf.reset N c) :=
  ⟨Nat.zero_le _, halfPeriod_ok N c.vMinSps hT ⟨le_rfl, hT⟩, nofun, nofun, fun _ => rfl⟩

/-- The state after reset meets the invariant of the fields that are no speeds, over either arithmetic. -/
theorem integersOk_resetOf {R : Type} (N : Numerics R) {c : ConfigOf R} (hT : 1 ≤ c.timerMaxUs.toNat) :
    (State.resetOf N c).IntegersOk where
  axes a := by
    have hget : (State.resetOf N c).axis.get a = AxisOf.reset N c := PerAxis.get_all _ a
    rw [hget]
    exact axisOk_reset N hT
  parser := ⟨fun _ => rfl, nofun⟩
  timeBase := (by decide : TimeBaseOk { nowMs := 0#32, lastSampleMs := 0#32, lastAvgMs := 0#32 })
  drops := nofun
  timers a := by
    have hget : (State.resetOf N c).timer.get a = 0#32 := PerAxis.get_all _ a
    rw [hget]
    exact Nat.zero_le _
  telemDue := nofun

theorem speedsOk_reset {c : Config} (h : F32.isPosFinite c.resetTargetSps = true) : SpeedsOk (Axis.reset c) := by
  have hzero : (F32.isFinite 0#32 = true ∧ 0 ≤ Binary32.units 0#32) ∧ F32.isNaN 0#32 = false := by decide
  obtain ⟨hspeed, hacc⟩ := hzero
  rw [Axis.reset_eq]
  exact ⟨hspeed, h, hacc, nofun⟩

theorem realOf_pos {x : F32} (h : F32.isPosFinite x = true) : 0 < realOf x := by
  obtain ⟨-, hpos⟩ := Binary32.isPosFinite_iff.mp h
  exact div_pos (by exact_mod_cast hpos) (by positivity)

theorem realOf_ne_zero {x : F32} (h : F32.isZero x = false) : realOf x ≠ 0 :=
  div_ne_zero (by exact_mod_cast Binary32.units_ne_zero h) (by positivity)

theorem realParamsOk {c : Config} (h : c.wf = true) : RealParamsOk (realParams c) := by
  obtain ⟨hvMin, haMin, hsteps, hT, hdt, htarget⟩ := Config.wf_speeds h
  obtain ⟨hvref, hres, hmax, hsens⟩ := Config.wf_sensor h
  exact ⟨realOf_pos hvMin, realOf_pos haMin, hsteps, hT, hdt, realOf_pos htarget, realOf_pos hvref, realOf_pos hres,
    hmax, realOf_ne_zero hsens⟩

/-- Settles O8: the interval is a half-period, every speed is zero or the target parameter. -/
theorem resetMeetsInvariant : Obligations.ResetMeetsInvariant := by
  refine ⟨Config.current_wf, fun c h => ?_⟩
  obtain ⟨-, -, -, hT, -, htarget⟩ := Config.wf_speeds h
  refine ⟨⟨integersOk_resetOf binary32 hT, h⟩, fun a => ?_⟩
  rw [State.resetWith_axis]
  exact speedsOk_reset htarget

/-- Settles O60: the real parameters are positive where the binary32 ones are. -/
theorem realResetMeetsInvariant : Obligations.RealResetMeetsInvariant := by
  have hreset (c : Config) (h : c.wf = true) : (State.resetOf realNumerics (realParams c)).RealInv := by
    have hparams := realParamsOk h
    have ⟨_, _, _, hT, _, htarget, _⟩ := hparams
    refine ⟨integersOk_resetOf realNumerics hT, hparams, fun a => ?_⟩
    have hget : (State.resetOf realNumerics (realParams c)).axis.get a = AxisOf.reset realNumerics (realParams c) :=
      PerAxis.get_all _ a
    rw [hget]
    exact ⟨by simp [AxisOf.reset, realNumerics], htarget, nofun⟩
  exact ⟨hreset _ Config.current_wf, hreset⟩

end Sys2Proof.Machine

/-! The proofs about the tick's counts and phases (41_scheduler.md R186 to R190). First a tick as the flip but for the
speed and the interval, then a bounded move tick by tick, then the planned phases, and last the obligations. -/

namespace Sys2Proof.Machine

section
variable {R : Type} (N : Numerics R) (c : ConfigOf R) {x : AxisOf R} (hen : x.enabled = true)
include hen

/-- An enabled axis's tick writes what the flip writes, the speed and the interval. -/
theorem schedTick_eq_flipStep :
    ∃ v h, schedTick N c x = { flipStep x with currentSpeedSps := v, stepIntervalUs := h } := by
  rw [schedTick_enabled N c hen]
  split
  · exact ⟨_, _, rfl⟩
  · exact ⟨(flipStep x).currentSpeedSps, (flipStep x).stepIntervalUs, rfl⟩

/-- The last step of a bounded move is the flip alone: the speed is kept (R187). -/
theorem schedTick_last (hlow : x.stepLevel = 0#1) (h1 : x.remainingSteps = 1#32) :
    schedTick N c x = flipStep x := by
  have hoff : (flipStep x).enabled = false := by rw [flipStep_last hlow h1]
  simp [schedTick_enabled N c hen, hoff]

end

/-- Settles O31: the flip of a falling edge, and of a rising edge by the steps left. -/
theorem risingEdgeAccounting : Obligations.RisingEdgeAccounting := by
  intro c x hen y
  obtain ⟨v, h, hy⟩ : ∃ v h, y = { flipStep x with currentSpeedSps := v, stepIntervalUs := h } :=
    schedTick_eq_flipStep binary32 c hen
  refine ⟨fun hhigh => ?falling, fun hlow => ?rising, ?kept⟩
  case falling =>
    rw [hy, flipStep_falling hhigh]
    exact ⟨rfl, rfl, rfl, hen, rfl⟩
  case rising =>
    refine ⟨by rw [hy, flipStep_eq]; simp [hlow], by rw [hy, flipStep_eq]; simp [hlow], fun h0 => ?unbounded,
      fun h1 => ?last, fun hmore => ?more⟩
    case unbounded =>
      rw [hy, flipStep_unbounded hlow h0]
      exact ⟨h0, rfl, hen⟩
    case last =>
      have hflip : y = flipStep x := schedTick_last binary32 c hen hlow h1
      rw [hflip, flipStep_last hlow h1]
      exact ⟨rfl, rfl, rfl, rfl, rfl⟩
    case more =>
      rw [hy, flipStep_more hlow hmore]
      exact ⟨(countStep_more x hmore).2, hen, rfl⟩
  case kept =>
    rw [hy, flipStep_eq]
    exact ⟨rfl, rfl, rfl, rfl, rfl, rfl⟩

/-! A bounded move, tick by tick. `p` is 1 where the move starts with the line low, 0 where it starts high: a tick `k`
raises the line where `k + p` is odd, and the last step is made by the tick with `k + p = 2n - 1`. -/

section
variable (c : Config) {x : Axis} {n p : Nat} (hp : p ≤ 1) (hlevel : x.stepLevel = 0#1 ↔ p = 1)
  (hen : x.enabled = true) (hrem : x.remainingSteps.toNat = n)
include hp hlevel hen hrem

/-- Before its last step a bounded move goes on, with the steps of the raised line taken off. -/
theorem iterate_schedTick_bounded (k : Nat) (hk : k + p < 2 * n) :
    ((schedTick binary32 c)^[k] x).enabled = true ∧
    (((schedTick binary32 c)^[k] x).stepLevel = 0#1 ↔ (k + p) % 2 = 1) ∧
    ((schedTick binary32 c)^[k] x).remainingSteps.toNat = n - (k + p) / 2 := by
  induction k with
  | zero =>
    refine ⟨hen, hlevel.trans ?_, hrem.trans ?_⟩ <;> omega
  | succ k ih =>
    obtain ⟨hon, hlow, hleft⟩ := ih (by omega)
    rw [Function.iterate_succ_apply']
    obtain ⟨hfalls, hrises, -⟩ := risingEdgeAccounting c _ hon
    rcases bit_cases ((schedTick binary32 c)^[k] x).stepLevel with h0 | h1
    · obtain ⟨hup, -, -, -, hmore⟩ := hrises h0
      obtain ⟨hcount, hstill, -⟩ := hmore (by rw [hleft]; have := hlow.mp h0; omega)
      have hodd := hlow.mp h0
      refine ⟨hstill, ?_, by omega⟩
      rw [hup]
      simp only [show ¬((1#1 : Bit) = 0#1) by decide, false_iff]
      omega
    · obtain ⟨hdown, hcount, -, hstill, -⟩ := hfalls h1
      have heven : ¬(k + p) % 2 = 1 := by rw [← hlow, h1]; decide
      refine ⟨hstill, ?_, by rw [hcount]; omega⟩
      rw [hdown]
      simp only [true_iff]
      omega

/-- The tick that makes the last step of a bounded move ends it. -/
theorem iterate_schedTick_end (hn : 0 < n) :
    let y := (schedTick binary32 c)^[2 * n - p] x
    y.enabled = false ∧ y.remainingSteps = 0#32 ∧ y.plan = none ∧ y.stepLevel = 1#1 := by
  obtain ⟨k, hk⟩ : ∃ k, 2 * n - p = k + 1 := ⟨2 * n - p - 1, by omega⟩
  obtain ⟨hon, hlow, hleft⟩ := iterate_schedTick_bounded c hp hlevel hen hrem k (by omega)
  have hone : ((schedTick binary32 c)^[k] x).remainingSteps = 1#32 := by
    apply BitVec.eq_of_toNat_eq
    rw [hleft]
    simp only [BitVec.toNat_ofNat]
    omega
  obtain ⟨-, hrises, -⟩ := risingEdgeAccounting c _ hon
  obtain ⟨hup, -, -, hlast, -⟩ := hrises (hlow.mpr (by omega))
  obtain ⟨hnone, hplan, hoff, -⟩ := hlast hone
  rw [hk, Function.iterate_succ_apply']
  exact ⟨hoff, hnone, hplan, hup⟩

/-- A tick of the move raises the line where the line was low. -/
theorem iterate_schedTick_raises (k : Nat) (hk : k + p < 2 * n) :
    (((schedTick binary32 c)^[k] x).stepLevel == 0#1 && ((schedTick binary32 c)^[k + 1] x).stepLevel == 1#1) =
      decide ((k + p) % 2 = 1) := by
  obtain ⟨hon, hlow, -⟩ := iterate_schedTick_bounded c hp hlevel hen hrem k hk
  obtain ⟨-, hrises, -⟩ := risingEdgeAccounting c _ hon
  rw [Function.iterate_succ_apply', Bool.eq_iff_iff]
  simp only [Bool.and_eq_true, beq_iff_eq, decide_eq_true_eq]
  exact ⟨fun ⟨h0, _⟩ => hlow.mp h0, fun hodd => ⟨hlow.mpr hodd, (hrises (hlow.mpr hodd)).1⟩⟩

end

theorem length_filter_range_odd {p : Nat} (hp : p ≤ 1) (m : Nat) :
    ((List.range m).filter fun k => decide ((k + p) % 2 = 1)).length = (m + p) / 2 := by
  induction m with
  | zero => simp; omega
  | succ m ih =>
    rw [List.range_succ, List.filter_append, List.length_append, ih]
    by_cases hodd : (m + p) % 2 = 1
    · simp [hodd]; omega
    · simp [hodd]; omega

/-- Settles O33: ticks before the last step, at it and after it; every other tick raises the line. -/
theorem boundedMoveEndsOnTime : Obligations.BoundedMoveEndsOnTime := by
  intro c x n hen hrem hn after last
  obtain ⟨p, hp, hlevel, hlast⟩ : ∃ p, p ≤ 1 ∧ (x.stepLevel = 0#1 ↔ p = 1) ∧ last = 2 * n - p := by
    by_cases h0 : x.stepLevel = 0#1
    · exact ⟨1, le_rfl, by simp [h0], if_pos h0⟩
    · exact ⟨0, by omega, by simp [h0], if_neg h0⟩
  obtain ⟨hoff, hnone, hplan, hup⟩ : (after last).enabled = false ∧ (after last).remainingSteps = 0#32 ∧
      (after last).plan = none ∧ (after last).stepLevel = 1#1 := by
    rw [hlast]
    exact iterate_schedTick_end c hp hlevel hen hrem hn
  refine ⟨fun k hk => ?before, fun k hk => ?afterwards, ?count⟩
  case before =>
    obtain ⟨hon, -⟩ := iterate_schedTick_bounded c hp hlevel hen hrem k (by omega)
    exact hon
  case afterwards =>
    have hsame : after k = after last := by
      obtain ⟨j, rfl⟩ := Nat.exists_eq_add_of_le' hk
      exact (Function.iterate_add_apply ..).trans
        (Function.iterate_fixed (schedTick_disabled binary32 c hoff) j)
    rw [hsame]
    exact ⟨rfl, hoff, hnone, hplan, hup⟩
  case count =>
    have hcongr : ((List.range last).filter fun k =>
        (after k).stepLevel == 0#1 && (after (k + 1)).stepLevel == 1#1) =
        (List.range last).filter fun k => decide ((k + p) % 2 = 1) :=
      List.filter_congr fun k hk =>
        iterate_schedTick_raises c hp hlevel hen hrem k (by have := List.mem_range.mp hk; omega)
    rw [hcongr, length_filter_range_odd hp]
    omega

/-! The planned phases (R190). -/

/-- At or below its goal a ramp only rises. -/
theorem towards_of_not_above {R : Type} (N : Numerics R) {cur goal : R} (d : R) (h : ¬N.lt goal cur = true) :
    towards N cur goal d = if N.lt cur goal then N.min goal (N.add cur d) else cur := by
  rw [towards, if_neg h]

/-- Accelerating from at most the peak is the ramp toward it. -/
theorem accelerate_eq_towards {cur peak : F32} (hcur : F32.isFinite cur = true) (hpeak : F32.isFinite peak = true)
    (d : F32) (h : Binary32.units cur ≤ Binary32.units peak) :
    (if Binary32.lt cur peak then Binary32.min peak (Binary32.add cur d) else cur) = towards binary32 cur peak d := by
  have hnot : ¬Binary32.lt peak cur = true := mt (Binary32.lt_iff hpeak hcur).mp (not_lt.mpr h)
  exact (towards_of_not_above binary32 d hnot).symm

/-- Settles O36: accelerating and decelerating are the ramps, which do not overshoot. -/
theorem plannedPhases : Obligations.PlannedPhases := by
  intro c p cur d u v done numbers
  refine ⟨fun h => ⟨plannedSpeed_accelerating binary32 c cur d h, ?accelerate⟩,
    fun ha hc => plannedSpeed_cruising binary32 c cur d ha hc,
    fun h => ⟨plannedSpeed_decelerating binary32 c cur d h, ?decelerate⟩⟩
  case accelerate =>
    rintro ⟨hcur, hpeak, -, hd, hd0⟩
    have hv : v = if Binary32.lt cur p.peakSpeedSps then Binary32.min p.peakSpeedSps (Binary32.add cur d) else cur :=
      plannedSpeed_accelerating binary32 c cur d h
    rcases le_or_gt (u cur) (u p.peakSpeedSps) with hle | hgt
    · rw [hv, accelerate_eq_towards hcur hpeak d hle]
      obtain ⟨hlow, hhigh⟩ := towards_between_speed_and_goal hcur hd hd0 hpeak hle
      exact ⟨hlow, fun _ => hhigh⟩
    · have hnot : ¬Binary32.lt cur p.peakSpeedSps = true := mt (Binary32.lt_iff hcur hpeak).mp (not_lt.mpr hgt.le)
      rw [hv, if_neg hnot]
      exact ⟨le_rfl, id⟩
  case decelerate =>
    rintro ⟨hcur, -, hmin, hd, hd0⟩
    obtain ⟨-, -, hdown⟩ := rampsDoNotOvershoot c cur cur d
    obtain ⟨-, -, hle, -⟩ := hdown hcur hcur hmin hd hd0
    exact (congrArg u (plannedSpeed_decelerating binary32 c cur d h)).trans_le hle

end Sys2Proof.Machine

/-! The proof about fifty samples (43_telemetry.md R283, R284): the mean of a full ring, then the ring after reset. -/

namespace Sys2Proof.Machine

/-- The mean of a full ring is the truncated mean of its fifty entries. -/
theorem Channel.mean_of_full {c : Channel} (h : c.full = true) :
    c.mean.toInt = Int.tdiv (c.ring.toList.map BitVec.toInt).sum 50 := by
  have hcount : c.count = 50 := if_pos h
  have hsum : c.sum = (c.ring.toList.map BitVec.toInt).sum := by
    rw [Channel.sum, List.take_of_length_le (by simp [hcount])]
  rw [Channel.mean_toInt (by omega), hsum, hcount]
  rfl

/-- Settles O49: fifty samples from cursor 0 are the ring, and the next one takes the place of the first. -/
theorem fiftySamplesAverage : Obligations.FiftySamplesAverage := by
  intro l v hl c
  have hfull : c.full = true := by simp [c, foldl_pushSample_full, hl]
  have hring : c.ring.toList = l := by
    refine List.ext_getElem (by simp [hl]) fun k hk _ => ?_
    have hk50 : k < 50 := by simpa using hk
    have hslot : (slotAfter Channel.reset.wr k).val = k := by simp [slotAfter, Channel.reset, Nat.mod_eq_of_lt hk50]
    rw [← foldl_pushSample_ring Channel.reset l hl.le (hl ▸ hk50)]
    simp only [Fin.getElem_fin, hslot, Vector.getElem_toList, c]
  have hcursor : c.wr = 0 := by simp [c, foldl_pushSample_wr, hl, Channel.reset]
  have hfull' : (pushSample c v).full = true := by simp [pushSample_full, hfull]
  have hring' : (pushSample c v).ring.toList = v :: l.tail := by
    obtain ⟨first, rest, rfl⟩ : ∃ first rest, l = first :: rest := List.exists_cons_of_length_eq_add_one hl
    have hset : (pushSample c v).ring.toList = c.ring.toList.set c.wr.val v :=
      Vector.toList_set (h := c.wr.isLt) ..
    rw [hset, hring, hcursor]
    rfl
  refine ⟨hfull, hring, by rw [Channel.mean_of_full hfull, hring], ?next⟩
  rw [Channel.mean_of_full hfull', hring']
  simp [add_comm]

end Sys2Proof.Machine

/-! The proofs about rounding (00_scope.md R11). First the nearest integer, then the nearest magnitude, then the root,
whose approximation lies on the same side of every midpoint as the exact root, and last the obligations. -/

namespace Sys2Proof.Machine.Binary32

/-! The nearest multiple of the denominator. -/

/-- No multiple is nearer than the one that `nearestEven` gives, and where another is as near, its factor is even. -/
theorem nearestEven_nearest (num k : Nat) {den : Nat} (h : 0 < den) :
    ((num : Int) - (nearestEven num den * den : Nat)).natAbs ≤ ((num : Int) - (k * den : Nat)).natAbs ∧
    (((num : Int) - (k * den : Nat)).natAbs = ((num : Int) - (nearestEven num den * den : Nat)).natAbs →
      k ≠ nearestEven num den → nearestEven num den % 2 = 0) := by
  have hnum := Nat.div_add_mod num den
  have hlt := Nat.mod_lt num h
  rw [Nat.mul_comm] at hnum
  have hk : k * den + den ≤ num / den * den ∨ k = num / den ∨ k = num / den + 1 ∨
      num / den * den + den + den ≤ k * den := by
    rcases Nat.lt_trichotomy k (num / den) with hk | hk | hk
    · exact .inl ((Nat.succ_mul k den).symm.trans_le (Nat.mul_le_mul_right den hk))
    · exact .inr (.inl hk)
    · obtain hk | hk := Nat.eq_or_lt_of_le (Nat.succ_le_of_lt hk)
      · exact .inr (.inr (.inl hk.symm))
      · refine .inr (.inr (.inr ?_))
        rw [← Nat.succ_mul, ← Nat.succ_mul]
        exact Nat.mul_le_mul_right den hk
  have hsucc : (num / den + 1) * den = num / den * den + den := Nat.succ_mul ..
  unfold nearestEven
  simp only
  generalize num / den = q at *
  generalize num % den = r at *
  rcases hk with hk | rfl | rfl | hk <;> split <;> omega

/-! The nearest magnitude. -/

/-- The units of a pattern written as `roundMag` writes it: a significand that carries is the next power. -/
theorem magUnits_rounded {sh n : Nat} (hn : n ≤ 2 ^ 24) (hsh : sh = 0 ∨ 2 ^ 23 ≤ n) :
    magUnits (sh * 2 ^ 23 + n) = n * 2 ^ sh := by
  obtain hsub | hlow := Nat.lt_or_ge n (2 ^ 23)
  · obtain rfl : sh = 0 := by omega
    have hexp : (0 * 2 ^ 23 + n) / 2 ^ 23 = 0 := by omega
    rw [magUnits, if_pos hexp]
    omega
  · have hexp : (sh * 2 ^ 23 + n) / 2 ^ 23 ≠ 0 := by omega
    rw [magUnits, if_neg hexp]
    obtain hnormal | rfl : n < 2 ^ 24 ∨ n = 2 ^ 24 := by omega
    · rw [show (sh * 2 ^ 23 + n) / 2 ^ 23 - 1 = sh by omega, show 2 ^ 23 + (sh * 2 ^ 23 + n) % 2 ^ 23 = n by omega]
    · rw [show (sh * 2 ^ 23 + 2 ^ 24) / 2 ^ 23 - 1 = sh + 1 by omega,
        show 2 ^ 23 + (sh * 2 ^ 23 + 2 ^ 24) % 2 ^ 23 = 2 ^ 23 by omega, pow_succ 2 sh]
      ring

/-- A magnitude is a multiple of `2 ^ sh`, or smaller than every normal one with that unit in the last place. -/
theorem magUnits_dvd_or_lt (b sh : Nat) : 2 ^ sh ∣ magUnits b ∨ magUnits b < 2 ^ 23 * 2 ^ sh := by
  unfold magUnits
  split
  next hexp =>
    have hone : 1 ≤ 2 ^ sh := Nat.one_le_two_pow
    exact .inr (by omega)
  next hexp =>
    obtain hlt | hle := Nat.lt_or_ge (b / 2 ^ 23 - 1) sh
    · right
      calc (2 ^ 23 + b % 2 ^ 23) * 2 ^ (b / 2 ^ 23 - 1) < 2 ^ 24 * 2 ^ (b / 2 ^ 23 - 1) :=
            Nat.mul_lt_mul_of_pos_right (by omega) (by positivity)
        _ = 2 ^ 23 * 2 ^ (b / 2 ^ 23 - 1 + 1) := by rw [pow_succ]; ring
        _ ≤ 2 ^ 23 * 2 ^ sh := Nat.mul_le_mul_left _ (Nat.pow_le_pow_right (by norm_num) hlt)
    · exact .inl (Dvd.dvd.mul_left (pow_dvd_pow 2 hle) _)

theorem magUnits_injective {b c : Nat} (hb : b < F32.infBits) (hc : c < F32.infBits)
    (h : magUnits b = magUnits c) : b = c := by
  rw [← roundMag_magUnits hb, h, roundMag_magUnits hc]

/-- A finite rounding is a significand that fits its 24 bits, or carries, over the bits dropped; where some are dropped,
it has all its bits. -/
theorem exists_significand {num den : Nat} (h : roundMag num den < F32.infBits) :
    ∃ sh n, roundMag num den = sh * 2 ^ 23 + n ∧ n = nearestEven num (den * 2 ^ sh) ∧ n ≤ 2 ^ 24 ∧
      (sh = 0 ∨ 2 ^ 23 ≤ n ∧ 2 ^ 23 * 2 ^ sh ≤ num / den) := by
  have hround : roundMag num den = dropBits num den * 2 ^ 23 + nearestEven num (den * 2 ^ dropBits num den) := by
    unfold roundMag at *
    simp only at *
    omega
  obtain ⟨hlow, hhigh⟩ := nearestEven_bounds num (den * 2 ^ dropBits num den)
  rw [← Nat.div_div_eq_div_mul] at hlow hhigh
  have h24 : num / den / 2 ^ dropBits num den < 2 ^ 24 := by
    rw [Nat.div_lt_iff_lt_mul (by positivity)]
    exact lt_pow_dropBits _
  refine ⟨_, _, hround, rfl, by omega, (Nat.eq_zero_or_pos _).imp_right fun hpos => ?_⟩
  have hbits : 2 ^ 23 * 2 ^ dropBits num den ≤ num / den := pow_dropBits_le _ hpos
  have h23 : 2 ^ 23 ≤ num / den / 2 ^ dropBits num den := (Nat.le_div_iff_mul_le (by positivity)).mpr hbits
  exact ⟨by omega, hbits⟩

/-- Settles O38: a magnitude with the result's last place is a multiple of it, and any other one is below the result's
binade, farther than the least of the binade. -/
theorem roundingIsNearestEven : Obligations.RoundingIsNearestEven := by
  intro num den b hden hr hb r far
  obtain ⟨sh, n, hround, hn, hfits, hbits⟩ := exists_significand hr
  have hunits : magUnits r = n * 2 ^ sh :=
    (congrArg magUnits hround).trans (magUnits_rounded hfits (hbits.imp_right And.left))
  have hfar (k m : Nat) (hm : magUnits m = k * 2 ^ sh) :
      far m = ((num : Int) - (k * (den * 2 ^ sh) : Nat)).natAbs := by
    simp only [far, hm]
    rw [show k * 2 ^ sh * den = k * (den * 2 ^ sh) by ring]
  have hnearest (k : Nat) := nearestEven_nearest num k (den := den * 2 ^ sh) (by positivity)
  rw [← hn] at hnearest
  rw [hfar n r hunits]
  by_cases hdvd : 2 ^ sh ∣ magUnits b
  case pos =>
    obtain ⟨k, hk⟩ := hdvd
    rw [Nat.mul_comm] at hk
    obtain ⟨hle, heven⟩ := hnearest k
    rw [hfar k b hk]
    refine ⟨hle, fun htie hne => ?_⟩
    have hkn : k ≠ n := by
      rintro rfl
      exact hne (magUnits_injective hb hr (hk.trans hunits.symm))
    have hr2 : r = sh * 2 ^ 23 + n := hround
    have := heven htie hkn
    omega
  case neg =>
    have hlt : magUnits b < 2 ^ 23 * 2 ^ sh := (magUnits_dvd_or_lt b sh).resolve_left hdvd
    obtain ⟨-, hbinade⟩ := hbits.resolve_left (by rintro rfl; simp at hdvd)
    have hbelow : magUnits b * den < 2 ^ 23 * (den * 2 ^ sh) := by
      calc magUnits b * den < 2 ^ 23 * 2 ^ sh * den := Nat.mul_lt_mul_of_pos_right hlt hden
        _ = 2 ^ 23 * (den * 2 ^ sh) := by ring
    have hnum : 2 ^ 23 * (den * 2 ^ sh) ≤ num := by
      calc 2 ^ 23 * (den * 2 ^ sh) = 2 ^ 23 * 2 ^ sh * den := by ring
        _ ≤ num := (Nat.le_div_iff_mul_le hden).mp hbinade
    obtain ⟨hle, -⟩ := hnearest (2 ^ 23)
    simp only [far]
    omega

/-! The root. -/

/-- Which of two numbers is the nearer, by their midpoint. -/
theorem abs_sub_le_abs_sub_iff_midpoint (e p q : ℝ) :
    |e - p| ≤ |e - q| ↔ (p < q ∧ 2 * e ≤ p + q) ∨ p = q ∨ (q < p ∧ p + q ≤ 2 * e) := by
  rw [← sq_le_sq]
  rcases lt_trichotomy p q with h | h | h
  · simp only [h, h.ne, h.not_gt, true_and, false_and, or_false]
    constructor <;> intro _ <;> nlinarith
  · simp [h]
  · simp only [h, h.ne', h.not_gt, true_and, false_and, false_or]
    constructor <;> intro _ <;> nlinarith

/-- `sqrt`'s approximation of the root of `n` half units, in quarter units: the floor, and one more where it is not
exact. -/
def rootQuarters (n : Nat) : Nat := 2 * Nat.sqrt n + if Nat.sqrt n * Nat.sqrt n = n then 0 else 1

section
variable (n z : Nat)

/-- The approximation is on the same side of every half unit as the root. -/
theorem sqrt_le_iff_rootQuarters_le : Real.sqrt n ≤ z ↔ rootQuarters n ≤ 2 * z := by
  have hsq : Real.sqrt n ≤ z ↔ n ≤ z * z := by
    rw [Real.sqrt_le_iff, ← pow_two]
    exact ⟨fun h => by exact_mod_cast h.2, fun h => ⟨by positivity, by exact_mod_cast h⟩⟩
  have hlow : Nat.sqrt n * Nat.sqrt n ≤ n := Nat.sqrt_le n
  have hhigh : n < (Nat.sqrt n + 1) * (Nat.sqrt n + 1) := Nat.lt_succ_sqrt n
  rw [hsq, rootQuarters]
  split
  next hexact =>
    have hroot : n ≤ z * z ↔ Nat.sqrt n ≤ z := by
      conv_lhs => rw [← hexact]
      exact Nat.mul_self_le_mul_self_iff
    omega
  next hexact =>
    have hroot : n ≤ z * z ↔ Nat.sqrt n < z := by
      refine ⟨fun h => Nat.mul_self_lt_mul_self_iff.mp (by omega), fun h => ?_⟩
      exact hhigh.le.trans (Nat.mul_self_le_mul_self h)
    omega

theorem le_sqrt_iff_le_rootQuarters : (z : ℝ) ≤ Real.sqrt n ↔ 2 * z ≤ rootQuarters n := by
  have hsq : (z : ℝ) ≤ Real.sqrt n ↔ z ≤ Nat.sqrt n := by
    rw [← Nat.le_floor_iff (Real.sqrt_nonneg _), Real.nat_floor_real_sqrt_eq_nat_sqrt]
  rw [hsq, rootQuarters]
  split <;> omega

/-- So it is nearer to the one of two magnitudes that the root is nearer to. -/
theorem sqrt_nearer_iff (p q : Nat) :
    |Real.sqrt n / 2 - p| ≤ |Real.sqrt n / 2 - q| ↔
      ((rootQuarters n : Int) - (p * 4 : Nat)).natAbs ≤ ((rootQuarters n : Int) - (q * 4 : Nat)).natAbs := by
  rw [abs_sub_le_abs_sub_iff_midpoint, mul_div_cancel₀ _ two_ne_zero, ← Nat.cast_add, sqrt_le_iff_rootQuarters_le,
    le_sqrt_iff_le_rootQuarters, Nat.cast_lt, Nat.cast_lt, Nat.cast_inj]
  omega

end

/-! The root of a positive value. -/

theorem magBits_lt_of_isFinite {x : F32} (hx : F32.isFinite x = true) : F32.magBits x < F32.infBits :=
  of_decide_eq_true hx

/-- The root's argument in half units: `sqrt` takes the root of 2^149 times a value's units. -/
def rootArgument (x : F32) : Nat := magUnits (F32.magBits x) * one * 4

theorem rootArgument_le {x : F32} (hx : F32.isFinite x = true) : rootArgument x ≤ 2 ^ 428 := by
  have hmag := magUnits_mono (magBits_lt_of_isFinite hx).le
  exact (Nat.mul_le_mul_right 4 (Nat.mul_le_mul_right one hmag)).trans (by decide +kernel)

/-- The exact root in units, from its argument in half units. -/
theorem sqrt_rootArgument (x : F32) :
    Real.sqrt (rootArgument x) / 2 = Real.sqrt ((magUnits (F32.magBits x) : ℝ) * 2 ^ 149) := by
  have harg : ((rootArgument x : Nat) : ℝ) = (magUnits (F32.magBits x) : ℝ) * 2 ^ 149 * 2 ^ 2 := by
    simp only [rootArgument, one]
    push_cast
    norm_num
  rw [harg, Real.sqrt_mul (by positivity), Real.sqrt_sq (by norm_num), mul_div_cancel_right₀ _ two_ne_zero]

/-- The root of a finite value rounds to a finite magnitude. -/
theorem roundMag_rootQuarters_lt {x : F32} (hx : F32.isFinite x = true) :
    roundMag (rootQuarters (rootArgument x)) 4 < F32.infBits := by
  have hroot : Nat.sqrt (rootArgument x) ≤ 2 ^ 214 := by
    rw [← Nat.sqrt_eq (2 ^ 214)]
    exact Nat.sqrt_le_sqrt ((rootArgument_le hx).trans (by decide +kernel))
  have hquarters : rootQuarters (rootArgument x) ≤ 2 * 2 ^ 214 + 1 := by
    unfold rootQuarters
    split <;> omega
  exact (roundMag_mono hquarters).trans_lt (by decide +kernel)

/-- `sqrt` of a positive value rounds the approximation of its root. -/
theorem sqrt_eq_pack {x : F32} (hx : F32.isFinite x = true) (hpos : 0 < units x) :
    sqrt x = pack false (roundMag (rootQuarters (rootArgument x)) 4) := by
  obtain ⟨hsign, hzero⟩ : F32.sign x = false ∧ F32.isZero x = false := by
    have hpf := isPosFinite_iff.mpr ⟨hx, hpos⟩
    simp only [F32.isPosFinite, Bool.and_eq_true, Bool.not_eq_true'] at hpf
    tauto
  have hlt : magUnits (F32.magBits x) * one * 4 < 2 ^ 430 := (rootArgument_le hx).trans_lt (by decide +kernel)
  simp only [sqrt, not_isNaN_of_isFinite hx, not_isInf_of_isFinite hx, hsign, hzero, isqrt_eq_sqrt hlt]
  rfl

/-! The other operations on finite operands. -/

section
variable {x y : F32} (hx : F32.isFinite x = true) (hy : F32.isFinite y = true)
include hx hy

theorem add_eq_pack (h : units x + units y ≠ 0) :
    add x y = pack (decide (units x + units y < 0)) (roundMag (units x + units y).natAbs 1) := by
  rw [add_finite hx hy, if_neg h, ofUnits]

theorem sub_eq_pack (h : units x - units y ≠ 0) :
    sub x y = pack (decide (units x - units y < 0)) (roundMag (units x - units y).natAbs 1) := by
  have hneg : units x + units (neg y) = units x - units y := by rw [units_neg, sub_eq_add_neg]
  rw [sub, add_eq_pack hx (by simpa) (hneg ▸ h), hneg]

theorem mul_eq_pack :
    mul x y = pack (F32.sign x != F32.sign y)
      (roundMag (magUnits (F32.magBits x) * magUnits (F32.magBits y)) (2 ^ 149)) := by
  simp only [mul, not_isNaN_of_isFinite hx, not_isNaN_of_isFinite hy, not_isInf_of_isFinite hx,
    not_isInf_of_isFinite hy]
  rfl

theorem div_eq_pack (h : magUnits (F32.magBits y) ≠ 0) :
    div x y = pack (F32.sign x != F32.sign y)
      (roundMag (magUnits (F32.magBits x) * 2 ^ 149) (magUnits (F32.magBits y))) := by
  have hzero : F32.isZero y = false := by simpa [F32.isZero, magUnits_eq_zero_iff] using h
  simp only [div, not_isNaN_of_isFinite hx, not_isNaN_of_isFinite hy, not_isInf_of_isFinite hx,
    not_isInf_of_isFinite hy, hzero]
  rfl

end

/-- Settles O39: the operations by their equations; the root's approximation is rounded to the nearest magnitude, which
is the one nearest to the exact root too. -/
theorem operationsRoundOnce : Obligations.OperationsRoundOnce := by
  intro x y hx hy u m
  refine ⟨add_eq_pack hx hy, sub_eq_pack hx hy, mul_eq_pack hx hy, div_eq_pack hx hy, fun hpos => ?root⟩
  intro exact far r
  have hsqrt := sqrt_eq_pack hx hpos
  have hr : r = roundMag (rootQuarters (rootArgument x)) 4 := by
    rw [← pack_magBits false (roundMag_lt_sign (rootQuarters (rootArgument x)) 4), ← hsqrt]
  have hfinite := roundMag_rootQuarters_lt hx
  have hfar (p q : Nat) := sqrt_nearer_iff (rootArgument x) (magUnits p) (magUnits q)
  rw [sqrt_rootArgument] at hfar
  refine ⟨by rw [hsqrt, pack_sign _ (roundMag_lt_sign _ _)], hr ▸ hfinite, fun b hb => ?nearest⟩
  obtain ⟨hle, heven⟩ := roundingIsNearestEven (rootQuarters (rootArgument x)) 4 b (by decide) hfinite hb
  rw [← hr] at hle heven
  refine ⟨(hfar r b).mpr hle, fun htie hne => heven ?_ hne⟩
  exact le_antisymm ((hfar b r).mp htie.le) ((hfar r b).mp htie.ge)

end Sys2Proof.Machine.Binary32

/-! The proof about the commands and the tick under `REAL` (00_scope.md R12). First the datapath in exact arithmetic,
then the commands' records, and last the obligation. -/

namespace Sys2Proof.Machine

/-! The datapath (41_scheduler.md section 1). -/

section
variable (c : ConfigOf ℝ)

theorem realNumerics_ofInt_ofNat (n : Nat) : realNumerics.ofInt n = (n : ℝ) := Int.cast_natCast n

/-- RPM to steps/s (R250). -/
theorem sps_real (rpm : Nat) : sps realNumerics c rpm = (rpm : ℝ) * (c.stepsPerRev : ℝ) / 60 := by
  rw [sps, realNumerics_div _ _ (by simp [realNumerics])]
  simp [realNumerics]

theorem rampAccel_real (goal from_ : ℝ) : rampAccel realNumerics goal from_ = (goal - from_) * 5 := by
  simp [rampAccel, realNumerics, Config.rampRate]

theorem halfPeriod_real_of_nonpos {v : ℝ} (old : U32) (hv : v ≤ 0) : halfPeriod realNumerics c v old = old :=
  halfPeriod_of_le_zero old (by simpa [realNumerics_le_iff, realNumerics] using hv)

theorem halfPeriod_real_of_pos {v : ℝ} (old : U32) (hT : 1 ≤ c.timerMaxUs.toNat) (hv : 0 < v) :
    ((halfPeriod realNumerics c v old).toNat : Int) = min (c.timerMaxUs.toNat : Int) (max 1 ⌊500000 / v⌋) := by
  refine halfPeriod_toNat old hT (by simpa [realNumerics] using hv) ?_
  rw [realNumerics_div _ _ hv.ne']
  simp [realNumerics]

/-- The speed change of one half-period (R183). -/
theorem dv_real (ax : AxisOf ℝ) (hdt : c.dtDivisor = 1 ∨ c.dtDivisor = 2) :
    dv realNumerics c ax =
      max |ax.accelerationSps2| c.aMinSps2 * ((ax.stepIntervalUs.toNat : ℝ) / (c.dtDivisor : ℝ)) / 1000000 := by
  have hne : (c.dtDivisor : ℝ) ≠ 0 := by rcases hdt with h | h <;> simp [h]
  rw [dv, realNumerics_ofInt_ofNat, realNumerics_ofInt_ofNat, realNumerics_div _ _ hne,
    realNumerics_div _ _ (by simp [realNumerics])]
  simp [realNumerics, amag]

/-- The stopping distance (line 24 of R186). -/
theorem stopDistance_real (ax : AxisOf ℝ) (ha : 0 < c.aMinSps2) :
    stopDistance realNumerics c ax =
      ax.currentSpeedSps * ax.currentSpeedSps / (2 * max |ax.accelerationSps2| c.aMinSps2) := by
  have hmag : 0 < max |ax.accelerationSps2| c.aMinSps2 := lt_max_of_lt_right ha
  have htwo : realNumerics.mul (realNumerics.ofInt 2) (amag realNumerics c ax) =
      2 * max |ax.accelerationSps2| c.aMinSps2 := by simp [realNumerics, amag]
  rw [stopDistance, htwo, realNumerics_div _ _ (by positivity)]
  rfl

variable (cur goal d : ℝ)

theorem towards_real_up (h : cur < goal) : towards realNumerics cur goal d = min goal (cur + d) :=
  if_pos ((realNumerics_lt_iff _ _).mpr h)

theorem towards_real_down (h : goal < cur) : towards realNumerics cur goal d = max goal (cur - d) := by
  have hnot : ¬realNumerics.lt cur goal = true := by rw [realNumerics_lt_iff]; exact h.not_gt
  rw [towards, if_neg hnot, if_pos ((realNumerics_lt_iff _ _).mpr h)]
  rfl

theorem towards_real_self : towards realNumerics cur cur d = cur := by
  simp [towards, realNumerics]

theorem down_real (h : c.vMinSps < cur) : down realNumerics c cur d = max c.vMinSps (cur - d) :=
  if_pos ((realNumerics_lt_iff _ _).mpr h)

theorem down_real_of_le (h : cur ≤ c.vMinSps) : down realNumerics c cur d = cur :=
  if_neg (by rw [realNumerics_lt_iff]; exact h.not_gt)

variable {p : MotionPlanOf ℝ}

theorem plannedSpeed_real_accelerating (hdone : p.stepsDone.toNat < p.accelSteps.toNat) :
    (cur < p.peakSpeedSps → plannedSpeed realNumerics c p cur d = min p.peakSpeedSps (cur + d)) ∧
    (p.peakSpeedSps ≤ cur → plannedSpeed realNumerics c p cur d = cur) := by
  rw [plannedSpeed_accelerating realNumerics c cur d hdone]
  exact ⟨fun h => if_pos ((realNumerics_lt_iff _ _).mpr h),
    fun h => if_neg (by rw [realNumerics_lt_iff]; exact h.not_gt)⟩

end

/-! The commands. -/

/-- A command over the reals that writes its axis's record only. -/
theorem execReal_updAxis {i : Instr} {a : AxisId} {s : State ℝ} {f : AxisOf ℝ → AxisOf ℝ} {x : AxisOf ℝ}
    (h : runInstr realNumerics i s = s.updAxis a f) (hx : f (s.axis.get a) = x) :
    ∃ t, execReal i s = .next t ∧ OnlyAxis a s t ∧ t.axis.get a = x :=
  ⟨_, (execReal_eq_runInstr i s).trans (congrArg Host.Outcome.next h), onlyAxis_updAxis s a f,
    (get_updAxis ..).trans hx⟩

theorem startCommon_dirOut {R : Type} (c : ConfigOf R) (n : U32) (ax : AxisOf R) :
    (startCommon c n ax).dirOut =
      match c.dirUpdate with
      | .atStart => if ax.direction = .forward then c.dirFwdLevel else 1#1 - c.dirFwdLevel
      | .immediate => ax.dirOut := by
  cases h : c.dirUpdate <;> simp only [startCommon, h, dirLevel_decide]

theorem setDirection_eq {R : Type} (c : ConfigOf R) (d : Direction) (ax : AxisOf R) :
    setDirection c d ax =
      { ax with
        direction := d
        dirOut :=
          match c.dirUpdate with
          | .atStart => ax.dirOut
          | .immediate => if d = .forward then c.dirFwdLevel else 1#1 - c.dirFwdLevel } := by
  cases h : c.dirUpdate <;> simp only [setDirection, h, dirLevel_decide]

/-- Settles O58: each command by the equation of its record, the tick as the flip and then the speed of its phase. -/
theorem realCommandsAndTicks : Obligations.RealCommandsAndTicks := by
  refine ⟨fun c v old hT => ⟨halfPeriod_real_of_nonpos c old, halfPeriod_real_of_pos c old hT⟩,
    fun a n s hn => ?start, fun a rpm s => ?speed, fun a v s => ?others, fun c x hdt ha => ?tick⟩
  case start =>
    intro c ax lineAtStart line acc
    have hline : (startCommon c (stepCount n) ax).dirOut = line := startCommon_dirOut ..
    have hget : (runInstr realNumerics (.start a n) s).axis.get a = startAxis realNumerics c (stepCount n) ax :=
      get_updAxis ..
    refine ⟨_, execReal_eq_runInstr _ s, runInstr_elsewhere .., rfl, rfl, rfl,
      fun b hb => runInstr_get_ne _ _ _ hb, fun hon => ?trapezoid, fun hoff => ?direct⟩
    case trapezoid =>
      rw [hget, startAxis_trapezoid _ hon, ← hline]
      simp only [startTrapezoid, stepCount_eq_zero hn, rampAccel_real]
      rfl
    case direct =>
      rw [hget, startAxis_direct _ hoff, ← hline]
      rfl
  case speed =>
    intro ax v
    have hv : sps realNumerics s.cfg rpm = v := sps_real s.cfg rpm
    refine ⟨fun h0 => congrArg Host.Outcome.next (if_pos h0), fun hpos => ?update⟩
    have hrun : runInstr realNumerics (.speed a rpm) s = s.updAxis a (speedAxis realNumerics s.cfg v) := by
      rw [← hv]; exact if_neg hpos.ne'
    obtain ⟨t, ht, honly, hget⟩ := execReal_updAxis hrun rfl
    refine ⟨t, ht, honly, fun hon => ?trapezoid, fun hoff => ?direct⟩
    case trapezoid => rw [hget, speedAxis_trapezoid realNumerics v hon, rampAccel_real]
    case direct => rw [hget, speedAxis_direct realNumerics v hoff]
  case others =>
    intro c ax changes line requested reply
    have htrap : execReal (.trap a v) s = .next (s.trap realNumerics a v) := rfl
    have hreq (present : Bool) (h : ax.trapezoidEnabled = present) : trapRequest c v present = requested := by
      subst h
      rfl
    have hreply (w : Int) : s.reply a.selector w = { s with txq := reply w } := by
      rw [selector_eq_ofNat]
      rfl
    refine ⟨execReal_updAxis rfl ?stop, execReal_updAxis rfl (setDirection_eq ..),
      execReal_updAxis rfl (setDirection_eq ..), execReal_updAxis (f := fun x => { x with enaOutN := 0#1 }) rfl rfl,
      execReal_updAxis (f := fun x => { x with enaOutN := 1#1 }) rfl rfl, fun hsame => ?same,
      fun hon hoff => execReal_updAxis rfl ((trapAxis_off realNumerics hon ((hreq true hon).trans hoff)).trans rfl),
      fun hoff hon => execReal_updAxis rfl (trapAxis_on realNumerics hoff ((hreq false hoff).trans hon)),
      congrArg Host.Outcome.next (hreply _), fun hX => ?rotation,
      fun hX => congrArg Host.Outcome.next (if_neg (Bool.not_eq_true _ ▸ hX))⟩
    case stop => simp [stopAxis, realNumerics, ax]
    case same => exact congrArg Host.Outcome.next (updAxis_eq_self (trapAxis_same _ ((hreq _ rfl).trans hsame.symm)))
    case rotation => exact congrArg Host.Outcome.next ((if_pos hX).trans (hreply _))
  case tick =>
    intro y rising counts last interval rem cur goal mag d new toTarget slower
    have heq (hen : x.enabled = true) : y =
        { x with
          enabled := !last, stepLevel := ~~~x.stepLevel, remainingSteps := rem,
          pendingIntervalUs := if rising then none else x.pendingIntervalUs,
          plan := if last then none
            else if counts then x.plan.map fun p => { p with stepsDone := p.stepsDone + 1#32 } else x.plan,
          currentSpeedSps := new, stepIntervalUs := y.stepIntervalUs } := by
      obtain ⟨v, h, hy⟩ : ∃ v h, y = { flipStep x with currentSpeedSps := v, stepIntervalUs := h } :=
        schedTick_eq_flipStep realNumerics c hen
      have hnew : new = v := congrArg AxisOf.currentSpeedSps hy
      have hint : y.stepIntervalUs = h := congrArg AxisOf.stepIntervalUs hy
      rw [hnew, hint, hy, flipStep_eq, hen, Bool.true_and]
    have hinterval : (flipStep x).stepIntervalUs = interval := by rw [flipStep_eq]
    have hcur : (flipStep x).currentSpeedSps = cur := by rw [flipStep_eq]
    refine ⟨schedTick_disabled realNumerics c, heq, fun hen hdirect => ?direct, fun hen hon hmore => ?trapezoid⟩
    case direct =>
      have hy : y = flipStep x := by
        rcases hdirect with hoff | hlast
        · exact schedTick_direct realNumerics c hen hoff
        · obtain ⟨hlow, h1⟩ : x.stepLevel = 0#1 ∧ x.remainingSteps = 1#32 := by simpa [last, rising] using hlast
          exact schedTick_last realNumerics c hen hlow h1
      exact ⟨(congrArg AxisOf.currentSpeedSps hy).trans hcur, (congrArg AxisOf.stepIntervalUs hy).trans hinterval⟩
    case trapezoid =>
      have hstill : y.enabled = true := (congrArg AxisOf.enabled (heq hen)).trans (by simp [hmore])
      have hy : y = speedUpdate realNumerics c (flipStep x) := schedTick_trapezoid realNumerics c hen hon hstill
      have hspeed : new = nextSpeed realNumerics c (flipStep x) := congrArg AxisOf.currentSpeedSps hy
      have hrem : (flipStep x).remainingSteps = rem := by rw [flipStep_eq]
      have hacc : (flipStep x).accelerationSps2 = x.accelerationSps2 := by rw [flipStep_eq]
      have htarget : (flipStep x).targetSpeedSps = goal := by rw [flipStep_eq]
      have hd : dv realNumerics c (flipStep x) = d := by rw [dv_real c _ hdt, hacc, hinterval]
      have hstop : stopDistance realNumerics c (flipStep x) = cur * cur / (2 * mag) := by
        rw [stopDistance_real c _ ha, hacc, hcur]
      have htowards (h : new = towards realNumerics cur goal d) : toTarget :=
        ⟨fun hlt => h.trans (towards_real_up _ _ _ hlt), fun hgt => h.trans (towards_real_down _ _ _ hgt),
          fun hself => h.trans (by rw [← hself, towards_real_self])⟩
      have hslower (h : new = down realNumerics c cur d) : slower :=
        ⟨fun hgt => h.trans (down_real c _ _ hgt), fun hle => h.trans (down_real_of_le c _ _ hle)⟩
      refine ⟨?interval, fun h => htowards ?unbounded, fun h p hp => ?planned, fun h hp => ?unplanned⟩
      case interval =>
        rw [hspeed, ← hinterval]
        exact congrArg AxisOf.stepIntervalUs hy
      case unbounded => rw [hspeed, nextSpeed_unbounded _ _ (hrem.trans h), hcur, htarget, hd]
      case planned =>
        have hbounded : (flipStep x).remainingSteps ≠ 0#32 := hrem ▸ h
        rw [nextSpeed_planned _ _ hbounded (flipStep_plan_some hp hbounded), hd, hcur] at hspeed
        refine ⟨fun haccel => ?_, fun hpast hcruise => hspeed.trans (plannedSpeed_cruising _ _ _ _ hpast hcruise),
          fun hpast => hslower (hspeed.trans (plannedSpeed_decelerating _ _ _ _ hpast))⟩
        obtain ⟨hbelow, hat⟩ := plannedSpeed_real_accelerating c cur d (p := { p with stepsDone := _ }) haccel
        exact ⟨fun hlt => hspeed.trans (hbelow hlt), fun hle => hspeed.trans (hat hle)⟩
      case unplanned =>
        rw [nextSpeed_unplanned _ _ (hrem ▸ h) (flipStep_plan_none hp), hd, fallbackSpeed, hstop, hrem, hcur, htarget,
          realNumerics_ofInt_ofNat] at hspeed
        refine ⟨fun hle => hslower (hspeed.trans (if_pos ((realNumerics_le_iff _ _).mpr hle))),
          fun hgt => htowards (hspeed.trans (if_neg ?_))⟩
        rw [realNumerics_le_iff]
        exact not_le.mpr hgt

end Sys2Proof.Machine

/-! The legal speeds (10_state.md R37, R38), over either arithmetic. First what a step does to the axis records; then
what an arithmetic's operations must keep, and that then every command and every tick keeps a record's speeds legal;
then the operations of `REAL`, and that under it every step keeps the invariant. -/

namespace Sys2Proof.Machine

section
variable {R : Type} {B : Build R} (hB : B.RunsInstr) {s t : State R}
include hB

/-- Of the axis records a step writes at most one: by a command that carries six digits, or by a tick. -/
theorem Build.RunsInstr.nextStep_axis_cases (h : B.nextStep s = .next t) :
    (∃ i : Instr, i.value ≤ 999999 ∧
      t.axis = s.axis.set i.axis (axisEffect B.numerics s.cfg i (s.axis.get i.axis))) ∨
    (∃ a, t.axis = s.axis.set a (schedTick B.numerics s.cfg (s.axis.get a))) ∨ t.axis = s.axis := by
  obtain ⟨e, ag, ar, td, -, he⟩ | ⟨rfl, -⟩ := nextStep_cases h
  · obtain ⟨-, -, b, hdone⟩ | hother := Build.takeEvent_axis_cases he
    · rw [hB.completeFrame] at hdone
      cases hdone
      obtain ⟨_, -, hframe⟩ | ⟨i, hdec, hframe⟩ := afterFrame_cases B.numerics
        { s with
          agenda := ag, arrivals := ar, telemDue := td, parser := Parser.idleWith (s.parser.buf.set 10 b) } <;>
        rw [hframe]
      · exact .inr (.inr rfl)
      · exact .inl ⟨i, value_le_of_decode_cmd hdec, runInstr_axis ..⟩
    · exact .inr hother
  · exact .inr (.inr rfl)

/-- What every command and every tick keep of a record, a step keeps of each axis's. -/
theorem Build.RunsInstr.nextStep_forall_axis (h : B.nextStep s = .next t) {P : AxisOf R → Prop}
    (hcmd : ∀ (i : Instr) x, i.value ≤ 999999 → P x → P (axisEffect B.numerics s.cfg i x))
    (htick : ∀ x, P x → P (schedTick B.numerics s.cfg x)) (hs : ∀ a, P (s.axis.get a)) (a : AxisId) :
    P (t.axis.get a) := by
  obtain ⟨i, hi, ht⟩ | ⟨b, ht⟩ | ht := hB.nextStep_axis_cases h <;> rw [ht]
  · rw [PerAxis.get_set]
    split
    · exact hcmd i _ hi (hs _)
    · exact hs a
  · rw [PerAxis.get_set]
    split
    · exact htick _ (hs _)
    · exact hs a
  · exact hs a

theorem Build.RunsInstr.nextStep_cfg (h : B.nextStep s = .next t) : t.cfg = s.cfg := by
  obtain ⟨e, ag, ar, td, -, he⟩ | ⟨rfl, -⟩ := nextStep_cases h
  · obtain ⟨hcfg, -⟩ := hB.takeEvent_keeps he
    exact hcfg
  · rfl

end

/-! Legal speeds, in the terms of any arithmetic. -/

section
variable {R : Type}

/-- Which numbers are legal as a current speed, as a goal (a target or a peak), as an acceleration, and as the speed
change of one half-period. -/
structure SpeedLaw (R : Type) where
  speed : R → Prop
  goal : R → Prop
  accel : R → Prop
  change : R → Prop

/-- The speeds of a record are legal. -/
def SpeedLaw.Holds (L : SpeedLaw R) (ax : AxisOf R) : Prop :=
  L.speed ax.currentSpeedSps ∧ L.goal ax.targetSpeedSps ∧ L.accel ax.accelerationSps2 ∧
    ∀ p ∈ ax.plan, L.goal p.peakSpeedSps

/-- The datapath's operations keep the law under the parameters `c`. -/
structure SpeedLaw.Kept (L : SpeedLaw R) (N : Numerics R) (c : ConfigOf R) : Prop where
  zero : L.speed (N.ofInt 0)
  speed_of_goal : ∀ {v}, L.goal v → L.speed v
  vMin : L.goal c.vMinSps
  sps : ∀ {rpm : Nat}, rpm ≠ 0 → rpm ≤ 999999 → L.goal (sps N c rpm)
  rampAccel : ∀ {v u}, L.goal v → L.speed u → L.accel (rampAccel N v u)
  trianglePeak : ∀ {vT ax} {n : U32}, L.goal vT → L.accel (AxisOf.accelerationSps2 ax) → n ≠ 0#32 →
    L.goal (trianglePeak N c.vMinSps vT c.vMinSps (amag N c ax) n)
  dv : ∀ {ax : AxisOf R}, L.accel ax.accelerationSps2 → IntervalOk c ax.stepIntervalUs → L.change (dv N c ax)
  towards : ∀ {cur goal d}, L.speed cur → L.goal goal → L.change d → L.speed (towards N cur goal d)
  down : ∀ {cur d}, L.speed cur → L.change d → L.speed (down N c cur d)
  accelerate : ∀ {cur peak d}, L.speed cur → L.goal peak → L.change d →
    L.speed (if N.lt cur peak then N.min peak (N.add cur d) else cur)

variable {L : SpeedLaw R} {N : Numerics R} {c : ConfigOf R} (hL : L.Kept N c) {ax : AxisOf R}
include hL

/-- A plan's peak is the target or the triangular branch's. -/
theorem SpeedLaw.Kept.plan_peak {vT : R} {n : U32} (hvT : L.goal vT) (hacc : L.accel ax.accelerationSps2)
    (hn : n ≠ 0#32) : L.goal (plan N c.vMinSps vT c.vMinSps (amag N c ax) n).peakSpeedSps := by
  unfold plan
  simp only
  split
  · exact hvT
  · exact hL.trianglePeak hvT hacc hn

theorem SpeedLaw.Kept.startAxis (n : U32) (h : L.Holds ax) : L.Holds (startAxis N c n ax) := by
  obtain ⟨hspeed, hgoal, hacc, -⟩ := h
  cases ht : ax.trapezoidEnabled with
  | true =>
    rw [startAxis_trapezoid N ht]
    have hramp : L.accel (Machine.rampAccel N ax.targetSpeedSps c.vMinSps) :=
      hL.rampAccel hgoal (hL.speed_of_goal hL.vMin)
    refine ⟨hL.speed_of_goal hL.vMin, hgoal, hramp, fun p hp => ?_⟩
    by_cases h0 : n = 0#32
    · simp [startTrapezoid, h0] at hp
    · obtain rfl : Machine.plan N _ _ _ _ n = p := by simpa [startTrapezoid, h0] using hp
      exact hL.plan_peak hgoal hramp h0
  | false =>
    rw [startAxis_direct N ht]
    exact ⟨hspeed, hgoal, hacc, nofun⟩

theorem SpeedLaw.Kept.speedAxis {v : R} (hv : L.goal v) (h : L.Holds ax) : L.Holds (speedAxis N c v ax) := by
  obtain ⟨hspeed, -, hacc, hplan⟩ := h
  cases ht : ax.trapezoidEnabled with
  | true =>
    rw [speedAxis_trapezoid N v ht]
    refine ⟨hspeed, hv, hL.rampAccel hv hspeed, fun p hp => ?_⟩
    cases hclear : c.vClearsPlan <;> simp [hclear] at hp
    exact hplan p hp
  | false =>
    rw [speedAxis_direct N v ht]
    exact ⟨hL.speed_of_goal hv, hv, hacc, hplan⟩

theorem SpeedLaw.Kept.trapAxis (v : Nat) (h : L.Holds ax) : L.Holds (trapAxis N c v ax) := by
  obtain ⟨hspeed, hgoal, hacc, hplan⟩ := h
  unfold Machine.trapAxis
  split
  · exact ⟨hL.speed_of_goal hgoal, hgoal, hacc, nofun⟩
  all_goals exact ⟨hspeed, hgoal, hacc, hplan⟩

/-- Every command keeps a record's speeds legal. -/
theorem SpeedLaw.Kept.axisEffect {i : Instr} (hi : i.value ≤ 999999) (h : L.Holds ax) :
    L.Holds (axisEffect N c i ax) := by
  cases i with
  | start a n => exact hL.startAxis _ h
  | stop =>
    obtain ⟨-, hgoal, hacc, -⟩ := h
    exact ⟨hL.zero, hgoal, hacc, nofun⟩
  | fwd | rev | ena | dis | qcur | qrot => exact h
  | speed a rpm =>
    simp only [Machine.axisEffect]
    split
    · exact h
    next h0 => exact hL.speedAxis (hL.sps h0 hi) h
  | trap a v => exact hL.trapAxis v h

omit hL in
/-- The flip writes no speed, and of a plan its progress only. -/
theorem SpeedLaw.holds_flipStep (h : L.Holds ax) : L.Holds (flipStep ax) := by
  obtain ⟨hspeed, hgoal, hacc, hplan⟩ := h
  rw [flipStep_eq]
  refine ⟨hspeed, hgoal, hacc, fun q hq => ?_⟩
  simp only at hq
  split_ifs at hq
  · cases hq
  · obtain ⟨p, hp, rfl⟩ := Option.map_eq_some_iff.mp hq
    exact hplan p hp
  · exact hplan q hq

/-- The speed of each phase is legal (lines 12 to 28 of R186). -/
theorem SpeedLaw.Kept.nextSpeed (hint : IntervalOk c ax.stepIntervalUs) (h : L.Holds ax) :
    L.speed (nextSpeed N c ax) := by
  obtain ⟨hspeed, hgoal, hacc, hplan⟩ := h
  have hd := hL.dv hacc hint
  by_cases h0 : ax.remainingSteps = 0#32
  · rw [nextSpeed_unbounded N c h0]
    exact hL.towards hspeed hgoal hd
  cases hp : ax.plan with
  | none =>
    rw [nextSpeed_unplanned N c h0 hp, fallbackSpeed]
    split
    · exact hL.down hspeed hd
    · exact hL.towards hspeed hgoal hd
  | some p =>
    rw [nextSpeed_planned N c h0 hp, plannedSpeed]
    split
    · exact hL.accelerate hspeed (hplan p hp) hd
    · split
      · exact hL.speed_of_goal (hplan p hp)
      · exact hL.down hspeed hd

/-- A tick keeps a legal record's speeds legal. -/
theorem SpeedLaw.Kept.schedTick (hax : AxisOk c ax) (h : L.Holds ax) : L.Holds (schedTick N c ax) := by
  cases hen : ax.enabled with
  | false => rwa [schedTick_disabled N c hen]
  | true =>
    have hflip := SpeedLaw.holds_flipStep h
    rw [schedTick_enabled N c hen]
    split
    · have ⟨_, hint, _⟩ := axisOk_flipStep hen hax
      have hnew := hL.nextSpeed hint hflip
      obtain ⟨-, hgoal, hacc, hplan⟩ := hflip
      exact ⟨hnew, hgoal, hacc, hplan⟩
    · exact hflip

end

/-- A step keeps every axis's speeds legal. -/
theorem SpeedLaw.Kept.nextStep {R : Type} {L : SpeedLaw R} {B : Build R} {s t : State R}
    (hL : L.Kept B.numerics s.cfg) (hB : B.RunsInstr) (h : B.nextStep s = .next t)
    (haxes : ∀ a, AxisOk s.cfg (s.axis.get a)) (hs : ∀ a, L.Holds (s.axis.get a)) (a : AxisId) :
    L.Holds (t.axis.get a) := by
  obtain ⟨-, hlegal⟩ := hB.nextStep_forall_axis h (P := fun x => AxisOk s.cfg x ∧ L.Holds x)
    (fun i x hi ⟨hax, hx⟩ => ⟨axisOk_axisEffect _ hi hax, hL.axisEffect hi hx⟩)
    (fun x ⟨hax, hx⟩ => ⟨axisOk_schedTick _ hax, hL.schedTick hax hx⟩) (fun b => ⟨haxes b, hs b⟩) a
  exact hlegal

/-! Under `REAL`. -/

/-- The legal speeds under `REAL`; an acceleration is any number. -/
def realSpeedLaw : SpeedLaw ℝ where
  speed v := 0 ≤ v
  goal v := 0 < v
  accel _ := True
  change d := 0 ≤ d

theorem realSpeedLaw_holds_iff (ax : AxisOf ℝ) : realSpeedLaw.Holds ax ↔ RealSpeedsOk ax := by
  simp [SpeedLaw.Holds, realSpeedLaw, RealSpeedsOk]

theorem towards_real_nonneg {cur goal d : ℝ} (hcur : 0 ≤ cur) (hgoal : 0 < goal) (hd : 0 ≤ d) :
    0 ≤ towards realNumerics cur goal d := by
  rcases lt_trichotomy cur goal with hlt | rfl | hgt
  · rw [towards_real_up _ _ _ hlt]
    exact le_min hgoal.le (add_nonneg hcur hd)
  · rwa [towards_real_self]
  · rw [towards_real_down _ _ _ hgt]
    exact le_max_of_le_left hgoal.le

theorem trianglePeak_real_pos {v0 vT vE a : ℝ} (h : 0 < v0) (n : U32) : 0 < trianglePeak realNumerics v0 vT vE a n :=
  lt_max_of_lt_left h

/-- The real operations keep the legal speeds under legal parameters. -/
theorem realSpeedLaw_kept {c : ConfigOf ℝ} (hc : RealParamsOk c) : realSpeedLaw.Kept realNumerics c := by
  obtain ⟨hvMin, ha, ⟨hsteps, -⟩, -, hdt, -⟩ := hc
  constructor <;> simp only [realSpeedLaw]
  case zero => simp [realNumerics]
  case speed_of_goal => exact le_of_lt
  case vMin => exact hvMin
  case sps =>
    intro rpm h0 _
    have hrpm : 0 < rpm := Nat.pos_of_ne_zero h0
    rw [sps_real]
    positivity
  case rampAccel => exact fun _ _ => trivial
  case trianglePeak => exact fun _ _ _ => trianglePeak_real_pos hvMin _
  case dv =>
    intro ax _ _
    rw [dv_real c ax hdt]
    positivity
  case towards => exact towards_real_nonneg
  case down =>
    intro cur d hcur _
    rcases le_or_gt cur c.vMinSps with hle | hgt
    · rwa [down_real_of_le c _ _ hle]
    · rw [down_real c _ _ hgt]
      exact le_max_of_le_left hvMin.le
  case accelerate =>
    intro cur peak d hcur hpeak hd
    split
    · exact le_min hpeak.le (add_nonneg hcur hd)
    · exact hcur

/-- Settles O59: the fields that are no speeds as under `BINARY32`, and the legal speeds. -/
theorem realStepKeepsInvariant : Obligations.RealStepKeepsInvariant := by
  intro s h
  obtain ⟨t, hstep, hok⟩ := realBuild_runsInstr.nextStep_integersOk h.toIntegersOk
  have hcfg := realBuild_runsInstr.nextStep_cfg hstep
  refine ⟨t, hstep, hok, hcfg ▸ h.params, fun a => (realSpeedLaw_holds_iff _).mp ?_⟩
  exact (realSpeedLaw_kept h.params).nextStep realBuild_runsInstr hstep h.axes
    (fun b => (realSpeedLaw_holds_iff _).mpr (h.speeds b)) a

end Sys2Proof.Machine

/-! The legal speeds under `BINARY32` (10_state.md R37, R38). First the numbers that are not negative and the operations
that keep them, then the range of a rounded product and quotient, then the operations of the datapath, and last the
obligation. -/

namespace Sys2Proof.Machine.Binary32

/-! Numbers that are not negative. An infinity is one of them. -/

/-- A number whose sign bit is 0. -/
structure IsNonneg (x : F32) : Prop where
  number : F32.isNaN x = false
  sign : F32.sign x = false

/-- A number above zero. -/
structure IsPos (x : F32) : Prop where
  number : F32.isNaN x = false
  units_pos : 0 < units x

section
variable {x y : F32}

theorem IsNonneg.units_nonneg (h : IsNonneg x) : 0 ≤ units x := by
  simp [units, h.sign]

theorem IsPos.sign (h : IsPos x) : F32.sign x = false := by
  have hpos := h.units_pos
  by_contra hs
  simp only [units, Bool.not_eq_false _ ▸ hs] at hpos
  simp at hpos
  omega

theorem IsPos.isZero (h : IsPos x) : F32.isZero x = false := by
  have hpos := h.units_pos
  by_contra hz
  have hmag : F32.magBits x = 0 := of_decide_eq_true (Bool.not_eq_false _ ▸ hz)
  simp [units, hmag, magUnits] at hpos

theorem isPos_of_isPosFinite (h : F32.isPosFinite x = true) : IsPos x := by
  obtain ⟨hfinite, hpos⟩ := isPosFinite_iff.mp h
  exact ⟨not_isNaN_of_isFinite hfinite, hpos⟩

theorem isNonneg_pack {m : Nat} (h : m ≤ F32.infBits) : IsNonneg (pack false m) :=
  ⟨not_isNaN_pack_of_le_inf false h, pack_sign false (h.trans_lt (by decide))⟩

theorem isNonneg_inf : IsNonneg (inf false) := isNonneg_pack le_rfl

theorem isNonneg_ofUnits {z : Int} (h : 0 ≤ z) : IsNonneg (ofUnits z) := by
  rw [ofUnits, decide_eq_false (not_lt.mpr h)]
  exact isNonneg_pack (roundMag_le_inf _ _)

theorem IsNonneg.add (hx : IsNonneg x) (hy : IsNonneg y) : IsNonneg (add x y) := by
  have hsum : 0 ≤ units x + units y := add_nonneg hx.units_nonneg hy.units_nonneg
  have ⟨hxn, hxs⟩ := hx
  have ⟨hyn, hys⟩ := hy
  simp only [Binary32.add, hxn, hyn, hxs, hys]
  simp only [Bool.or_false, bne_self_eq_false, Bool.and_false, if_neg Bool.false_ne_true]
  split_ifs
  · exact hx
  · exact hy
  · exact isNonneg_pack (Nat.zero_le _)
  · exact isNonneg_ofUnits hsum

theorem IsPos.mul (hx : IsPos x) (hy : IsPos y) : IsNonneg (mul x y) := by
  simp only [Binary32.mul, hx.number, hy.number, hx.sign, hy.sign, hx.isZero, hy.isZero]
  simp only [Bool.or_false, bne_self_eq_false, if_neg Bool.false_ne_true]
  split
  · exact isNonneg_inf
  · exact isNonneg_pack (roundMag_le_inf _ _)

theorem IsNonneg.div (hx : IsNonneg x) (hy : F32.isPosFinite y = true) : IsNonneg (div x y) := by
  have hpos := isPos_of_isPosFinite hy
  obtain ⟨hfinite, -⟩ := isPosFinite_iff.mp hy
  obtain ⟨hxn, hxs⟩ := hx
  simp only [Binary32.div, hxn, hpos.number, hxs, hpos.sign, hpos.isZero, not_isInf_of_isFinite hfinite]
  simp only [Bool.or_false, bne_self_eq_false, if_neg Bool.false_ne_true]
  split
  · exact isNonneg_inf
  · exact isNonneg_pack (roundMag_le_inf _ _)

/-- The root of a number that is not negative is a number. -/
theorem IsNonneg.not_isNaN_sqrt (hx : IsNonneg x) : F32.isNaN (sqrt x) = false := by
  obtain ⟨hxn, hxs⟩ := hx
  simp only [Binary32.sqrt, hxn, hxs, if_neg Bool.false_ne_true]
  split
  · exact hxn
  split
  · exact hxn
  · exact not_isNaN_pack_of_le_inf _ (roundMag_le_inf _ _)

/-- A product with a finite positive factor is a number. -/
theorem not_isNaN_mul (hx : F32.isNaN x = false) (hy : F32.isPosFinite y = true) : F32.isNaN (mul x y) = false := by
  have hpos := isPos_of_isPosFinite hy
  obtain ⟨hfinite, -⟩ := isPosFinite_iff.mp hy
  simp only [Binary32.mul, hx, hpos.number, hpos.isZero, not_isInf_of_isFinite hfinite]
  simp only [Bool.or_false, if_neg Bool.false_ne_true]
  split
  next hinf =>
    have hmag : F32.magBits x = F32.infBits := of_decide_eq_true hinf
    have hzero : F32.isZero x = false := by simp [F32.isZero, hmag, F32.infBits]
    rw [hzero, if_neg Bool.false_ne_true]
    exact not_isNaN_pack_of_le_inf _ le_rfl
  next => exact not_isNaN_pack_of_le_inf _ (roundMag_le_inf _ _)

theorem not_isNaN_max (hx : F32.isNaN x = false) (hy : F32.isNaN y = false) : F32.isNaN (max x y) = false := by
  simp only [max, hx, hy, Bool.or_false, if_neg Bool.false_ne_true]
  split <;> assumption

theorem not_isNaN_min (hx : F32.isNaN x = false) (hy : F32.isNaN y = false) : F32.isNaN (min x y) = false := by
  simp only [min, hx, hy, Bool.or_false, if_neg Bool.false_ne_true]
  split <;> assumption

theorem isNaN_abs (x : F32) : F32.isNaN (abs x) = F32.isNaN x := by
  have hmag : F32.magBits (abs x) = F32.magBits x := by
    have hand : (abs x).toNat = x.toNat % 2 ^ 31 := by
      rw [abs, BitVec.toNat_and]
      exact Nat.and_two_pow_sub_one_eq_mod x.toNat 31
    rw [F32.magBits, hand, Nat.mod_mod]
    rfl
  simp only [F32.isNaN, hmag]

theorem natAbs_units (x : F32) : (units x).natAbs = magUnits (F32.magBits x) := by
  unfold units
  split <;> simp

/-- A number that is not negative and at most a finite one is finite. -/
theorem isFinite_of_units_le (hx : F32.isNaN x = false) (h0 : 0 ≤ units x) (hy : F32.isFinite y = true)
    (hle : units x ≤ units y) : F32.isFinite x = true := by
  refine (isInf_or_isFinite hx).resolve_left fun hinf => ?_
  have hmag : F32.magBits x = F32.infBits := of_decide_eq_true hinf
  have hbelow : magUnits (F32.magBits y) ≤ magUnits (F32.infBits - 1) :=
    magUnits_mono (Nat.le_sub_one_of_lt (magBits_lt_of_isFinite hy))
  have hgap : magUnits (F32.infBits - 1) < magUnits F32.infBits := by decide +kernel
  have hux := natAbs_units x
  have huy := natAbs_units y
  rw [hmag] at hux
  omega

end

/-! The range of a magnitude pattern through roundings. -/

/-- A value that is not negative, with its magnitude pattern between two. -/
structure InRange (lo hi : Nat) (x : F32) : Prop where
  sign : F32.sign x = false
  low : lo ≤ F32.magBits x
  high : F32.magBits x ≤ hi

theorem inRange_pack {lo hi m : Nat} (hlo : lo ≤ m) (hhi : m ≤ hi) (hm : m ≤ F32.infBits) :
    InRange lo hi (pack false m) := by
  have hlt : m < 2 ^ 31 := hm.trans_lt (by decide)
  exact ⟨pack_sign false hlt, (pack_magBits false hlt).symm ▸ hlo, (pack_magBits false hlt).symm ▸ hhi⟩

theorem ofInt_natCast (n : Nat) : ofInt n = pack false (roundMag (n * one) 1) := by
  have hz : ((n : Int) * one) = ((n * one : Nat) : Int) := (Nat.cast_mul n one).symm
  rw [ofInt, hz, ofUnits, decide_eq_false (not_lt.mpr (Int.natCast_nonneg _)), Int.natAbs_natCast]

theorem inRange_ofInt {m n k : Nat} (hm : m ≤ n) (hk : n ≤ k) :
    InRange (roundMag (m * one) 1) (roundMag (k * one) 1) (ofInt n) := by
  rw [ofInt_natCast]
  exact inRange_pack (roundMag_mono (Nat.mul_le_mul_right _ hm)) (roundMag_mono (Nat.mul_le_mul_right _ hk))
    (roundMag_le_inf _ _)

section
variable {lo hi lo' hi' k : Nat} {x y : F32} (hx : InRange lo hi x) (hhi : hi < F32.infBits)
include hx hhi

theorem InRange.isFinite : F32.isFinite x = true := decide_eq_true (hx.high.trans_lt hhi)

theorem InRange.isPosFinite (hlo : 0 < lo) : F32.isPosFinite x = true := by
  refine isPosFinite_iff.mpr ⟨hx.isFinite hhi, ?_⟩
  have hne : magUnits (F32.magBits x) ≠ 0 := by
    rw [Ne, magUnits_eq_zero_iff]
    exact (hlo.trans_le hx.low).ne'
  simp only [units, hx.sign, if_neg Bool.false_ne_true]
  omega

/-- A product lies between the products of the bounds. -/
theorem InRange.mul (hy : InRange lo' hi' y) (hhi' : hi' < F32.infBits) :
    InRange (roundMag (magUnits lo * magUnits lo') (2 ^ 149)) (roundMag (magUnits hi * magUnits hi') (2 ^ 149))
      (mul x y) := by
  rw [mul_eq_pack (hx.isFinite hhi) (hy.isFinite hhi'), hx.sign, hy.sign]
  exact inRange_pack (roundMag_mono (Nat.mul_le_mul (magUnits_mono hx.low) (magUnits_mono hy.low)))
    (roundMag_mono (Nat.mul_le_mul (magUnits_mono hx.high) (magUnits_mono hy.high))) (roundMag_le_inf _ _)

/-- A quotient by a known value lies between the quotients of the bounds. -/
theorem InRange.div (hy : InRange k k y) (hk : k < F32.infBits) (hk0 : 0 < k) :
    InRange (roundMag (magUnits lo * 2 ^ 149) (magUnits k)) (roundMag (magUnits hi * 2 ^ 149) (magUnits k))
      (div x y) := by
  have hmag : F32.magBits y = k := le_antisymm hy.high hy.low
  have hne : magUnits (F32.magBits y) ≠ 0 := by
    rw [Ne, magUnits_eq_zero_iff, hmag]
    exact hk0.ne'
  rw [div_eq_pack (hx.isFinite hhi) (hy.isFinite hk) hne, hx.sign, hy.sign, hmag]
  exact inRange_pack (roundMag_mono (Nat.mul_le_mul_right _ (magUnits_mono hx.low)))
    (roundMag_mono (Nat.mul_le_mul_right _ (magUnits_mono hx.high))) (roundMag_le_inf _ _)

end

/-- An integer from 1 to 2^32 is a finite positive value. -/
theorem isPosFinite_ofInt {n : Nat} (h1 : 1 ≤ n) (h32 : n ≤ 2 ^ 32) : F32.isPosFinite (ofInt n) = true :=
  (inRange_ofInt h1 h32).isPosFinite (by decide +kernel) (by decide +kernel)

/-- The speed of an RPM that a frame carries is finite and positive: between 1 and 999999 times 65535, over 60. -/
theorem isPosFinite_sps {c : Config} {rpm : Nat} (hsteps : 1 ≤ c.stepsPerRev ∧ c.stepsPerRev ≤ 65535)
    (h1 : 1 ≤ rpm) (hrpm : rpm ≤ 999999) : F32.isPosFinite (sps binary32 c rpm) = true := by
  obtain ⟨hlow, hhigh⟩ := hsteps
  rw [sps_binary32]
  have hproduct := (inRange_ofInt h1 hrpm).mul (by decide +kernel) (inRange_ofInt hlow hhigh) (by decide +kernel)
  have hquotient := hproduct.div (by decide +kernel) (inRange_ofInt (n := 60) le_rfl le_rfl) (by decide +kernel)
    (by decide +kernel)
  exact hquotient.isPosFinite (by decide +kernel) (by decide +kernel)

/-- Half of a legal interval, or all of it, is a finite positive number of µs. -/
theorem isPosFinite_interval {n d : Nat} (h1 : 1 ≤ n) (h32 : n ≤ 2 ^ 32) (hd : d = 1 ∨ d = 2) :
    F32.isPosFinite (div (ofInt n) (ofInt d)) = true := by
  obtain rfl | rfl := hd
  · exact ((inRange_ofInt h1 h32).div (by decide +kernel) (inRange_ofInt (n := 1) le_rfl le_rfl) (by decide +kernel)
      (by decide +kernel)).isPosFinite (by decide +kernel) (by decide +kernel)
  · exact ((inRange_ofInt h1 h32).div (by decide +kernel) (inRange_ofInt (n := 2) le_rfl le_rfl) (by decide +kernel)
      (by decide +kernel)).isPosFinite (by decide +kernel) (by decide +kernel)

end Sys2Proof.Machine.Binary32

namespace Sys2Proof.Machine

/-! The datapath. -/

theorem binary32_add : binary32.add = Binary32.add := rfl

theorem binary32_max : binary32.max = Binary32.max := rfl

theorem binary32_min : binary32.min = Binary32.min := rfl

theorem binary32_abs : binary32.abs = Binary32.abs := rfl

theorem binary32_sqrt : binary32.sqrt = Binary32.sqrt := rfl

/-- The legal speeds under `BINARY32`. -/
def binary32SpeedLaw : SpeedLaw F32 where
  speed v := F32.isFinite v = true ∧ 0 ≤ Binary32.units v
  goal v := F32.isPosFinite v = true
  accel v := F32.isNaN v = false
  change d := F32.isNaN d = false ∧ 0 ≤ Binary32.units d

theorem binary32SpeedLaw_holds_iff (ax : Axis) : binary32SpeedLaw.Holds ax ↔ SpeedsOk ax := Iff.rfl

section
variable {c : Config}

/-- The acceleration's magnitude is at least its floor (R182). -/
theorem isPos_amag (ha : F32.isPosFinite c.aMinSps2 = true) {ax : Axis}
    (hacc : F32.isNaN ax.accelerationSps2 = false) : Binary32.IsPos (amag binary32 c ax) := by
  have hmin := Binary32.isPos_of_isPosFinite ha
  have habs : F32.isNaN (Binary32.abs ax.accelerationSps2) = false := (Binary32.isNaN_abs _).trans hacc
  rw [amag, binary32_max, binary32_abs]
  refine ⟨Binary32.not_isNaN_max habs hmin.number, ?_⟩
  rw [Binary32.units_max habs hmin.number]
  exact lt_max_of_lt_right hmin.units_pos

/-- The speed change of a half-period is a number that is not negative (R183). -/
theorem isNonneg_dv (ha : F32.isPosFinite c.aMinSps2 = true) (hdt : c.dtDivisor = 1 ∨ c.dtDivisor = 2) {ax : Axis}
    (hacc : F32.isNaN ax.accelerationSps2 = false) (hint : IntervalOk c ax.stepIntervalUs) :
    Binary32.IsNonneg (dv binary32 c ax) := by
  have hdt32 := Binary32.isPosFinite_interval hint.1 ax.stepIntervalUs.isLt.le hdt
  rw [dv, binary32_div, binary32_mul, binary32_ofInt]
  exact ((isPos_amag ha hacc).mul (Binary32.isPos_of_isPosFinite hdt32)).div
    (Binary32.isPosFinite_ofInt (n := 1000000) (by decide) (by decide))

/-- The triangular peak is at least the start speed and at most the larger of it and the target (R155). -/
theorem isPosFinite_trianglePeak {v0 vT a : F32} {n : U32} (hv0 : F32.isPosFinite v0 = true)
    (hvT : F32.isPosFinite vT = true) (ha : Binary32.IsPos a) (hn : n ≠ 0#32) :
    F32.isPosFinite (trianglePeak binary32 v0 vT v0 a n) = true := by
  have hpos0 := Binary32.isPos_of_isPosFinite hv0
  have hposT := Binary32.isPos_of_isPosFinite hvT
  have hsteps : F32.isPosFinite (Binary32.ofInt n.toNat) = true :=
    Binary32.isPosFinite_ofInt (by bv_omega) n.isLt.le
  have hsquare := hpos0.mul hpos0
  have htwo : F32.isPosFinite (Binary32.ofInt 2) = true := Binary32.isPosFinite_ofInt (n := 2) (by decide) (by decide)
  have hroot := ((ha.mul (Binary32.isPos_of_isPosFinite hsteps)).add ((hsquare.add hsquare).div htwo)).not_isNaN_sqrt
  simp only [trianglePeak, binary32_max, binary32_min, binary32_sqrt, binary32_add, binary32_mul, binary32_div,
    binary32_ofInt]
  generalize Binary32.sqrt _ = root at *
  have hmin := Binary32.not_isNaN_min hroot hposT.number
  have hunits := Binary32.units_max hpos0.number hmin
  rw [Binary32.units_min hroot hposT.number] at hunits
  have hpeak := Binary32.not_isNaN_max hpos0.number hmin
  generalize Binary32.max v0 _ = peak at *
  obtain ⟨hfin0, h0⟩ := Binary32.isPosFinite_iff.mp hv0
  obtain ⟨hfinT, hT⟩ := Binary32.isPosFinite_iff.mp hvT
  refine Binary32.isPosFinite_iff.mpr ⟨?_, by omega⟩
  rcases le_total (Binary32.units v0) (Binary32.units vT) with hle | hle
  · exact Binary32.isFinite_of_units_le hpeak (by omega) hfinT (by omega)
  · exact Binary32.isFinite_of_units_le hpeak (by omega) hfin0 (by omega)

section
variable {cur goal d : F32} (hcur : F32.isFinite cur = true ∧ 0 ≤ Binary32.units cur)
  (hd : F32.isNaN d = false ∧ 0 ≤ Binary32.units d)
include hcur hd

/-- A ramp stays between two legal speeds. -/
theorem towards_binary32_legal (hgoal : F32.isFinite goal = true ∧ 0 ≤ Binary32.units goal) :
    F32.isFinite (towards binary32 cur goal d) = true ∧ 0 ≤ Binary32.units (towards binary32 cur goal d) := by
  obtain ⟨hcurFin, hcur0⟩ := hcur
  obtain ⟨hgoalFin, hgoal0⟩ := hgoal
  obtain ⟨hdNum, hd0⟩ := hd
  have hnumber : F32.isNaN (towards binary32 cur goal d) = false := by
    unfold towards
    split
    · exact Binary32.not_isNaN_min (Binary32.not_isNaN_of_isFinite hgoalFin) (Binary32.not_isNaN_add hcurFin hdNum)
    split
    · exact Binary32.not_isNaN_max (Binary32.not_isNaN_of_isFinite hgoalFin) (Binary32.not_isNaN_sub hcurFin hdNum)
    · exact Binary32.not_isNaN_of_isFinite hcurFin
  rcases le_total (Binary32.units cur) (Binary32.units goal) with hle | hle
  · obtain ⟨hlow, hhigh⟩ := towards_between_speed_and_goal hcurFin hdNum hd0 hgoalFin hle
    have h0 := hcur0.trans hlow
    exact ⟨Binary32.isFinite_of_units_le hnumber h0 hgoalFin hhigh, h0⟩
  · obtain ⟨hlow, hhigh⟩ := towards_between_goal_and_speed hcurFin hdNum hd0 hgoalFin hle
    have h0 := hgoal0.trans hlow
    exact ⟨Binary32.isFinite_of_units_le hnumber h0 hcurFin hhigh, h0⟩

theorem down_binary32_legal (hmin : F32.isFinite c.vMinSps = true ∧ 0 ≤ Binary32.units c.vMinSps) :
    F32.isFinite (down binary32 c cur d) = true ∧ 0 ≤ Binary32.units (down binary32 c cur d) := by
  have ⟨hminFin, _⟩ := hmin
  have ⟨hcurFin, _⟩ := hcur
  rcases le_total (Binary32.units cur) (Binary32.units c.vMinSps) with hle | hge
  · rwa [down_of_le_vMin hminFin hcurFin d hle]
  · rw [down_eq_towards hminFin hcurFin d hge]
    exact towards_binary32_legal hcur hd hmin

theorem accelerate_binary32_legal {peak : F32} (hpeak : F32.isFinite peak = true ∧ 0 ≤ Binary32.units peak) :
    let v := if Binary32.lt cur peak then Binary32.min peak (Binary32.add cur d) else cur
    F32.isFinite v = true ∧ 0 ≤ Binary32.units v := by
  intro v
  have ⟨hcurFin, _⟩ := hcur
  have ⟨hpeakFin, _⟩ := hpeak
  rcases le_or_gt (Binary32.units cur) (Binary32.units peak) with hle | hgt
  · have hv : v = towards binary32 cur peak d := accelerate_eq_towards hcurFin hpeakFin d hle
    rw [hv]
    exact towards_binary32_legal hcur hd hpeak
  · have hnot : ¬Binary32.lt cur peak = true := mt (Binary32.lt_iff hcurFin hpeakFin).mp (not_lt.mpr hgt.le)
    have hv : v = cur := if_neg hnot
    rwa [hv]

end

theorem speed_of_isPosFinite {v : F32} (h : F32.isPosFinite v = true) :
    F32.isFinite v = true ∧ 0 ≤ Binary32.units v := by
  obtain ⟨hfinite, hpos⟩ := Binary32.isPosFinite_iff.mp h
  exact ⟨hfinite, hpos.le⟩

/-- The binary32 operations keep the legal speeds under legal parameters. -/
theorem binary32SpeedLaw_kept (hc : c.wf = true) : binary32SpeedLaw.Kept binary32 c := by
  obtain ⟨hvMin, ha, hsteps, -, hdt, -⟩ := Config.wf_speeds hc
  constructor <;> simp only [binary32SpeedLaw]
  case zero => rw [binary32_ofInt_zero]; decide
  case speed_of_goal => exact speed_of_isPosFinite
  case vMin => exact hvMin
  case sps => exact fun h0 hrpm => Binary32.isPosFinite_sps hsteps (Nat.pos_of_ne_zero h0) hrpm
  case rampAccel =>
    intro v u hv hu
    obtain ⟨hvFin, -⟩ := speed_of_isPosFinite hv
    rw [rampAccel, binary32_mul, binary32_sub, binary32_ofInt]
    exact Binary32.not_isNaN_mul (Binary32.not_isNaN_sub hvFin (Binary32.not_isNaN_of_isFinite hu.1))
      (Binary32.isPosFinite_ofInt (n := Config.rampRate) (by decide) (by decide))
  case trianglePeak => exact fun hvT hacc hn => isPosFinite_trianglePeak hvMin hvT (isPos_amag ha hacc) hn
  case dv =>
    intro ax hacc hint
    have hd := isNonneg_dv ha hdt hacc hint
    exact ⟨hd.number, hd.units_nonneg⟩
  case towards => exact fun hcur hgoal hd => towards_binary32_legal hcur hd (speed_of_isPosFinite hgoal)
  case down => exact fun hcur hd => down_binary32_legal hcur hd (speed_of_isPosFinite hvMin)
  case accelerate => exact fun hcur hpeak hd => accelerate_binary32_legal hcur hd (speed_of_isPosFinite hpeak)

end

/-- Settles O10: the invariant's intervals make the speed change a number, and the operations keep the legal speeds. -/
theorem stepKeepsSpeedsLegal : Obligations.StepKeepsSpeedsLegal := by
  intro s t h hs hstep a
  have hkept : binary32SpeedLaw.Kept binary32Build.numerics s.cfg := binary32SpeedLaw_kept h.params
  exact (binary32SpeedLaw_holds_iff _).mp
    (hkept.nextStep binary32Build_runsInstr hstep h.axes (fun b => (binary32SpeedLaw_holds_iff _).mpr (hs b)) a)

end Sys2Proof.Machine
